-- ==== Sys2Proof/Word.lean ====
section
/-! DEFINITION. The word types of the machine: bytes, 16-bit words and addresses (00 R6, R8). -/

namespace Sys2Proof

/-- A byte: 8 bits (00 R8). -/
abbrev Byte := BitVec 8

/-- A word: 16 bits; also every address (00 R6, R8). -/
abbrev Word := BitVec 16

/-- A bus address: 16 bits, one address space (10 R59). -/
abbrev Addr := BitVec 16

/-- A packed RGB value: 24 bits, red in bits 23 to 16 (60 R432). -/
abbrev Rgb := BitVec 24

/-- A 2-bit colour number or shade (00 R19). -/
abbrev Shade := BitVec 2

end Sys2Proof
end

