-- ==== Sys2Proof/Machine/Bits.lean ====
section
/-! DEFINITION. Bit fields, byte order and extension (00 R9, R10; 20 R112). -/

namespace Sys2Proof.Machine

/-- `hi8(w)`: bits 15 to 8 (00 R9). -/
def hi8 (w : Word) : Byte := w.extractLsb' 8 8

/-- `lo8(w)`: bits 7 to 0 (00 R9). -/
def lo8 (w : Word) : Byte := w.extractLsb' 0 8

/-- `hi:lo`, the word of two bytes (00 R9). -/
def mkWord (hi lo : Byte) : Word := hi ++ lo

/-- `zext_16(b)` (00 R10). -/
def zext16 (b : Byte) : Word := b.setWidth 16

/-- `sext_16(b)` (00 R10). -/
def sext16 (b : Byte) : Word := b.signExtend 16

/-- The address in page 0xFF of an offset: `0xFF00 + n` (30 R136). -/
def page0xFF (n : Byte) : Addr := 0xFF00#16 + zext16 n

/-- `v[i]` of a byte (00 R9). -/
def bitOf (v : Byte) (i : Nat) : Bool := v.getLsbD i

/-- The slice `v[lo + n - 1 : lo]` of a byte as a number (00 R9). -/
def sliceOf (v : Byte) (lo n : Nat) : Nat := v.toNat / 2 ^ lo % 2 ^ n

end Sys2Proof.Machine
end

