-- ==== Sys2Proof/Machine/IoMap.lean ====
section
/-! DEFINITION. Who owns each address of the I/O page (10 R63), and the addresses that nobody owns (20 R105). -/

namespace Sys2Proof.Machine

/-- The owners of the I/O addresses (10 R63). -/
inductive IoReg where
  | joyp | serial | div | tima | tma | tac | iflag | apu | lcdc | stat | scy | scx | ly | lyc | dma | bgp | obp0 | obp1
  | wy | wx | unowned
  deriving DecidableEq, Repr

/-- The register at an I/O address 0xFF00 to 0xFF7F (10 R63, 20 R93). -/
def ioReg (a : Addr) : IoReg :=
  let n := a.toNat
  if n = 0xFF00 then .joyp
  else if n = 0xFF01 ∨ n = 0xFF02 then .serial
  else if n = 0xFF04 then .div
  else if n = 0xFF05 then .tima
  else if n = 0xFF06 then .tma
  else if n = 0xFF07 then .tac
  else if n = 0xFF0F then .iflag
  else if 0xFF10 ≤ n ∧ n ≤ 0xFF3F then .apu
  else if n = 0xFF40 then .lcdc
  else if n = 0xFF41 then .stat
  else if n = 0xFF42 then .scy
  else if n = 0xFF43 then .scx
  else if n = 0xFF44 then .ly
  else if n = 0xFF45 then .lyc
  else if n = 0xFF46 then .dma
  else if n = 0xFF47 then .bgp
  else if n = 0xFF48 then .obp0
  else if n = 0xFF49 then .obp1
  else if n = 0xFF4A then .wy
  else if n = 0xFF4B then .wx
  else .unowned

/-- Whether no device owns an I/O address (10 R63, 20 R105): 0xFF03, 0xFF08 to 0xFF0E, 0xFF4C to 0xFF7F. -/
def isUnownedIo (a : Addr) : Bool :=
  a == 0xFF03#16 || (0xFF08#16 ≤ a && a ≤ 0xFF0E#16) || (0xFF4C#16 ≤ a && a ≤ 0xFF7F#16)

/-- Every unowned I/O address, the spec value of `TOLERATED_IO` (20 R105, 92 D28). -/
def everyUnownedIo : List Addr :=
  ((List.range 128).map fun k => BitVec.ofNat 16 (0xFF00 + k)).filter isUnownedIo

end Sys2Proof.Machine
end

