-- ==== Sys2Proof/Config.lean ====
section
/-! DEFINITION. What a particular machine fixes (the open parameters of 00 R7) and the free values.

A `Config` is plain data and is held in the state, so that a statement about every state holds for every
value of every parameter. The values that 93 X1 to X4 refuse cannot be written down (log 18). The free values are opaque
constants: nothing can evaluate them. -/

namespace Sys2Proof

/-- The external devices the core reaches through a port (20 R100 to R103). -/
inductive Device where
  | cart | joypad | serial | apu
  deriving DecidableEq, Repr

/-- What stands behind the cartridge port (20 R100): the spec value, a flat 32 KiB ROM image without
RAM, or any device at all. -/
inductive CartModel where
  | flatRom | any
  deriving DecidableEq, Repr

/-- What stands behind the joypad, serial or sound port (20 R101 to R103): the spec value, a byte
store, or any device at all. -/
inductive PortModel where
  | store | any
  deriving DecidableEq, Repr

/-- The two readings of `WIN_X0` that a source supports (60 R425, 90 C3, 93 X4): `WX - 7`, the spec
value, and `WX + 7`. -/
inductive WinX0 where
  | minus7 | plus7
  deriving DecidableEq, Repr

/-- `SHADE_RGB` as the four packed colours of the shades 0 to 3 (60 R432): any injective map, and no other (93 V12,
X2). -/
structure ShadeRgb where
  shade0 : Rgb
  shade1 : Rgb
  shade2 : Rgb
  shade3 : Rgb
  /-- No two shades have one colour (93 X2). -/
  injective : [shade0, shade1, shade2, shade3].Nodup
  deriving DecidableEq, Repr

/-- The open parameters of 00 R7. `RESET_MEM` is an argument of `State.launch` and `UNUSED_READ` is
`freeUnusedBits`. -/
structure Config where
  /-- `CART` (20 R100). -/
  cart : CartModel
  /-- `JOYPAD` (20 R101). -/
  joypad : PortModel
  /-- `SERIAL` (20 R102). -/
  serial : PortModel
  /-- `APU` (20 R103). -/
  apu : PortModel
  /-- `TOLERATED_IO`: the unowned I/O addresses that read 0xFF and ignore writes (20 R105). -/
  toleratedIo : List Addr
  /-- Every tolerated address is unowned (93 X3). -/
  tolerates_unowned : toleratedIo.all Machine.isUnownedIo = true
  /-- `VRAM_OAM_BLOCKING` (20 R92). -/
  vramOamBlocking : Bool
  /-- `DIV_WRITE_CLEARS_ACC` (60 R385). -/
  divWriteClearsAcc : Bool
  /-- `WIN_X0` (60 R425). -/
  winX0 : WinX0
  /-- `SHADE_RGB` (60 R432). -/
  shadeRgb : ShadeRgb
  /-- `HOST_IRQ` (60 R352). -/
  hostIrq : Bool
  /-- `RESET_IME` (70 R452). -/
  resetIme : Bool
  deriving DecidableEq, Repr

/-- One access of the core to an external device. -/
inductive PortOp where
  | read (a : Addr)
  | write (a : Addr) (v : Byte)
  deriving DecidableEq, Repr

/-- FREE VALUE: the bits without state of the `k`-th draw (`UNUSED_READ`, 10 R46, 92 D42). Log 5. -/
opaque freeUnusedBits : Nat → Byte

/-- FREE VALUE: the byte a device left open answers to a read of an address, given every earlier access to
that device, latest first (20 R100: a read may depend on the whole history). Log 7. -/
opaque freePortByte : Device → List PortOp → Addr → Byte

/-- FREE VALUE: the requests the host makes before the step of the `k`-th draw when `HOST_IRQ` is true:
bit 0 Serial, bit 1 Joypad (60 R352). Log 6. -/
opaque freeHostRequest : Nat → BitVec 2

end Sys2Proof
end

