-- ==== Sys2Proof/Machine/Parts.lean ====
section
/-! DEFINITION. The parts of the state: the register file (10 sections 1 to 3), the interrupt state (10 section
4), the timer (10 section 5) and the PPU registers (10 section 6), and how memory and the pixel buffer are held. -/

namespace Sys2Proof.Machine

/-- The four flags; `F` is their byte view, so its low nibble is 0 by construction (10 R21, log 15). -/
structure Flags where
  /-- Zero, `F[7]` (10 R30). -/
  z : Bool
  /-- Subtract, `F[6]` (10 R31). -/
  n : Bool
  /-- Half-carry, `F[5]` (10 R32). -/
  h : Bool
  /-- Carry, `F[4]` (10 R33). -/
  c : Bool
  deriving DecidableEq, Repr

/-- The register file (10 R20 to R24). -/
structure Regs where
  a : Byte
  f : Flags
  b : Byte
  c : Byte
  d : Byte
  e : Byte
  h : Byte
  l : Byte
  sp : Word
  pc : Word
  deriving DecidableEq, Repr

/-- The pending-enable counter, values 0, 1 and 2 (10 R37). -/
abbrev ImeDelay := Fin 3

/-- The interrupt state (10 R36 to R40). -/
structure Irq where
  /-- `IME` (10 R36). -/
  ime : Bool
  /-- `ime_delay` (10 R37). -/
  imeDelay : ImeDelay
  /-- `halted` (10 R38). -/
  halted : Bool
  /-- `IE`, all eight bits stored (10 R39). -/
  enable : Byte
  /-- `IF[4:0]` (10 R40). -/
  request : BitVec 5
  deriving DecidableEq, Repr

/-- The timer (10 R41 to R45). -/
structure Timer where
  /-- `DIV` (10 R41). -/
  div : Byte
  /-- `div_acc` (10 R42). -/
  divAcc : Nat
  /-- `TIMA` (10 R43). -/
  tima : Byte
  /-- `tima_acc` (10 R44). -/
  timaAcc : Nat
  /-- `TMA` (10 R45). -/
  tma : Byte
  /-- `TAC[2:0]` (10 R45). -/
  tac : BitVec 3
  /-- `req_timer` (10 R45). -/
  reqTimer : Bool
  deriving DecidableEq, Repr

/-- The PPU modes (10 R56). -/
inductive PpuMode where
  | hblank | vblank | oamScan | pixelTransfer
  deriving DecidableEq, Repr

/-- The PPU registers (10 R47 to R57). -/
structure Ppu where
  /-- `LCDC` (10 R47). -/
  lcdc : Byte
  /-- `stat_arm`, bits 6 to 3 of `STAT`: HBlank, VBlank, OAM-Scan, line-compare from bit 0 up (10 R48). -/
  statArm : BitVec 4
  /-- `SCY` (10 R49). -/
  scy : Byte
  /-- `SCX` (10 R49). -/
  scx : Byte
  /-- `LY`, an integer 0 to 153 (10 R50). -/
  ly : Nat
  /-- `LYC` (10 R51). -/
  lyc : Byte
  /-- `BGP` (10 R53). -/
  bgp : Byte
  /-- `OBP0` (10 R54). -/
  obp0 : Byte
  /-- `OBP1` (10 R54). -/
  obp1 : Byte
  /-- `WY` (10 R55). -/
  wy : Byte
  /-- `WX` (10 R55). -/
  wx : Byte
  /-- `mode` (10 R56). -/
  mode : PpuMode
  /-- `dot`, an integer 0 to 455 (10 R56). -/
  dot : Nat
  /-- `req_vblank` (10 R57). -/
  reqVblank : Bool
  /-- `req_stat` (10 R57). -/
  reqStat : Bool
  deriving DecidableEq, Repr

/-- Memory: (storage address, byte) pairs in one canonical form, see `Memory.wf` in Machine/Memory.lean. -/
abbrev Memory := List Host.Cell

/-- The pixel buffer: (line, its 160 pixels) pairs in one canonical form, see `PixelBuffer.wf` there. -/
abbrev PixelBuffer := List (Nat × List Rgb)

end Sys2Proof.Machine
end

