-- ==== Sys2Proof/Machine/ResetValues.lean ====
section
/-! DEFINITION. The values of reset (70 R451, as in the `Reset:` lines of 10) and the spec values of the open
parameters (00 R7, 92 section 2). -/

namespace Sys2Proof.Machine

/-- `F = 0xB0`: Z 1, N 0, H 1, C 1 (10 R21). -/
def resetFlags : Flags := { z := true, n := false, h := true, c := true }

/-- `AF=0x01B0, BC=0x0013, DE=0x00D8, HL=0x014D`, `SP = 0xFFFE`, `PC = 0x0100` (70 R451). -/
def resetRegs : Regs :=
  { a := 0x01, f := resetFlags, b := 0x00, c := 0x13, d := 0x00, e := 0xD8, h := 0x01, l := 0x4D,
    sp := 0xFFFE, pc := 0x0100 }

/-- No request, nothing enabled, `IME` the parameter `RESET_IME` (70 R451, R452). -/
def resetIrq (resetIme : Bool) : Irq :=
  { ime := resetIme, imeDelay := 0, halted := false, enable := 0x00, request := 0 }

/-- Timer disabled, every count 0 (70 R451). -/
def resetTimer : Timer :=
  { div := 0, divAcc := 0, tima := 0x00, timaAcc := 0, tma := 0x00, tac := 0, reqTimer := false }

/-- LCD on, line 0, dot 0, OAM-Scan (70 R451). -/
def resetPpu : Ppu :=
  { lcdc := 0x91, statArm := 0, scy := 0x00, scx := 0x00, ly := 0, lyc := 0x00, bgp := 0xFC, obp0 := 0xFF,
    obp1 := 0xFF, wy := 0x00, wx := 0x00, mode := .oamScan, dot := 0, reqVblank := false, reqStat := false }

/-- DESIGN CHOICE (log 2): the DMA read-back byte after reset, which the spec leaves unspecified (10 R52). -/
def resetDma : Byte := 0x00

/-- The spec values of the parameters (00 R7). -/
def specConfig : Config :=
  { cart := .flatRom, joypad := .store, serial := .store, apu := .store, toleratedIo := everyUnownedIo, tolerates_unowned := by decide,
    vramOamBlocking := true, divWriteClearsAcc := false, winX0 := .minus7,
    shadeRgb := { shade0 := 0xFFFFFF, shade1 := 0xAAAAAA, shade2 := 0x555555, shade3 := 0x000000, injective := by decide },
    hostIrq := false, resetIme := false }

end Sys2Proof.Machine
end

