-- ==== Sys2Proof/Machine/State.lean ====
section
/-! DEFINITION. The state of the machine as plain data, the faults, and the state after reset. -/

namespace Sys2Proof.Machine

/-- The whole state (10): register file, interrupt state, timer, PPU, memories, pixel buffer, DMA read-back
byte; the parameters of this machine; and three fields of the model (cycles, draws, portLog). -/
structure State where
  /-- The register file (10 R20 to R24). -/
  regs : Regs
  /-- The interrupt state (10 R36 to R40). -/
  irq : Irq
  /-- The timer (10 R41 to R45). -/
  timer : Timer
  /-- The PPU registers (10 R47 to R57). -/
  ppu : Ppu
  /-- The `DMA` read-back byte (10 R52). -/
  dma : Byte
  /-- `VRAM`, `WRAM`, `OAM`, `HRAM` (10 R60), the flat ROM image (20 R100) and the byte stores (20 R101 to
  R103), by storage address. -/
  mem : Memory
  /-- `FB` (10 R58). -/
  fb : PixelBuffer
  /-- The open parameters of this machine (00 R7, log 4); no step changes them. -/
  cfg : Config
  /-- The cycle count of the last step, its output `ok(cycles)` (00 R16, log 8). -/
  cycles : Nat
  /-- How many free values have been drawn (log 5). -/
  draws : Nat
  /-- The accesses so far to devices that are left open, latest first (20 R100, log 7). -/
  portLog : List (Device × PortOp)
  deriving DecidableEq, Repr

/-- The direction of an I/O access, with the byte of a write (60 R360). -/
inductive IoDir where
  | read
  | write (v : Byte)
  deriving DecidableEq, Repr

/-- The spec's fatal conditions (60 R360). A fault is terminal: there is no state after it. `InvalidIndex` cannot
occur (60 R363) and is not represented. -/
inductive Fault where
  /-- F1 (60 R361): raised by `STOP` and the eleven undefined bytes once the opcode byte is fetched; carries the
  byte and the register file. Safe: the spec says the machine stops here. -/
  | unimplementedOpcode (op : Byte) (regs : Regs)
  /-- F2 (60 R362): raised by a router access to an unowned I/O address outside `TOLERATED_IO`; carries the
  address, the direction, the byte of a write and the register file. Safe: the spec says the machine stops here. -/
  | unimplementedIo (addr : Addr) (dir : IoDir) (regs : Regs)
  deriving DecidableEq, Repr

/-- Why an instruction has no meaning in the model. -/
inductive Refusal where
  /-- Raised by an arm of `exec` for an instruction that has no meaning yet. Safe: nothing can be proved of it. No
  arm does. -/
  | notModelled (mnemonic : String)
  deriving DecidableEq, Repr

/-- The state after reset (70 R451) of a machine with the parameters `cfg`, the memory contents and ROM image
`mem`, the pixel buffer `fb` and the DMA read-back byte `dma`: the launch of 70 R481. -/
def State.launch (cfg : Config) (mem : Memory) (fb : PixelBuffer) (dma : Byte) : State :=
  { regs := resetRegs, irq := resetIrq cfg.resetIme, timer := resetTimer, ppu := resetPpu, dma := dma, mem := mem,
    fb := fb, cfg := cfg, cycles := 0, draws := 0, portLog := [] }

/-- The machine right after reset, at the spec values of the parameters, with nothing listed in memory (70 R451;
logs 1 to 5, 7, 8). -/
def State.reset : State := State.launch specConfig [] [] resetDma

end Sys2Proof.Machine
end

