-- ==== Sys2Proof/Machine/Memory.lean ====
section
/-! DEFINITION. Memory and the pixel buffer as sorted lists of (key, value) pairs in one canonical form: keys
strictly rising, no entry equal to what an unlisted key reads as. -/

namespace Sys2Proof.Machine

/-- The value listed for a key, or `dflt`. -/
def cellsGet {α : Type} (dflt : α) (cells : List (Nat × α)) (k : Nat) : α :=
  match cells with
  | [] => dflt
  | (k', v) :: rest => if k' = k then v else cellsGet dflt rest k

/-- List `v` for the key `k`, at its place in the order. -/
def cellsInsert {α : Type} (cells : List (Nat × α)) (k : Nat) (v : α) : List (Nat × α) :=
  match cells with
  | [] => [(k, v)]
  | (k', w) :: rest =>
    if k < k' then (k, v) :: (k', w) :: rest
    else if k' = k then (k, v) :: rest
    else (k', w) :: cellsInsert rest k v

/-- Make the key `k` read as `v`: an entry equal to the unlisted value `dflt` is removed. -/
def cellsSet {α : Type} [DecidableEq α] (dflt : α) (cells : List (Nat × α)) (k : Nat) (v : α) : List (Nat × α) :=
  if v = dflt then cells.filter (fun c => c.1 != k) else cellsInsert cells k v

/-- What an address that memory does not list reads as. The byte stores of the I/O page read 0xFF before any write
(20 R101 to R103). DESIGN CHOICE (log 1), unsafe: every other byte (RAM after reset, the ROM image) reads 0x00, which
the spec leaves unspecified (`RESET_MEM`, 70 R455). -/
def unlisted (k : Nat) : Byte := if 0xFF00 ≤ k ∧ k < 0xFF80 then 0xFF else 0x00

/-- The byte stored at a storage address. -/
def Memory.get (m : Memory) (k : Nat) : Byte := cellsGet (unlisted k) m k

/-- Store a byte at a storage address. -/
def Memory.set (m : Memory) (k : Nat) (v : Byte) : Memory := cellsSet (unlisted k) m k v

/-- The canonical form of memory: addresses strictly rising and inside the address space, no entry equal to what an
unlisted address reads as. -/
abbrev Memory.wf (m : Memory) : Prop :=
  (m.map Prod.fst).Pairwise (· < ·) ∧ ∀ c ∈ m, c.1 < 65536 ∧ c.2 ≠ unlisted c.1

/-- The pixel of a line that has not been rendered. DESIGN CHOICE (log 3), unsafe: the spec leaves `FB` unspecified
after reset (10 R58). -/
def blankPixel : Rgb := 0x000000

/-- A line that has not been rendered: 160 pixels (10 R58). -/
def blankLine : List Rgb := List.replicate 160 blankPixel

/-- Line `y` of the pixel buffer. -/
def PixelBuffer.line (fb : PixelBuffer) (y : Nat) : List Rgb := cellsGet blankLine fb y

/-- Replace line `y` of the pixel buffer. -/
def PixelBuffer.setLine (fb : PixelBuffer) (y : Nat) (line : List Rgb) : PixelBuffer := cellsSet blankLine fb y line

/-- `FB[y][x]` (10 R58). -/
def PixelBuffer.pixel (fb : PixelBuffer) (y x : Nat) : Rgb := (fb.line y).getD x blankPixel

/-- The canonical form of the pixel buffer: lines strictly rising, each below 144, of 160 pixels, and not blank. -/
abbrev PixelBuffer.wf (fb : PixelBuffer) : Prop :=
  (fb.map Prod.fst).Pairwise (· < ·) ∧ ∀ c ∈ fb, c.1 < 144 ∧ c.2.length = 160 ∧ c.2 ≠ blankLine

end Sys2Proof.Machine
end

