-- ==== Sys2Proof/Machine/Ops.lean ====
section
/-! DEFINITION. The named operations over registers and memory: the bus router with its devices (20), OAM DMA (20
R106), words and the stack (20 R110, R111; 00 R15), the faults (60 R360), interrupt dispatch, which is the machine's
one way of taking an exception (60 R348), and the return from it (45 R299). -/

namespace Sys2Proof.Machine

/-! ### Outcomes -/

/-- An outcome of this machine. -/
abbrev Res (α : Type) := Host.Outcome α Fault Refusal

/-- Go on with the value of a next outcome; a fault or a refusal ends the step (00 R16). -/
def andThen {α β : Type} (r : Res α) (k : α → Res β) : Res β :=
  match r with
  | .next x => k x
  | .fault f => .fault f
  | .refused q => .refused q

/-- Raise F1 with the register file at this point (60 R360, R361). -/
def raiseUnimplementedOpcode (op : Byte) (s : State) : Res State := .fault (.unimplementedOpcode op s.regs)

/-! ### Updates of the state -/

def State.withRegs (s : State) (r : Regs) : State := { s with regs := r }
def State.withIrq (s : State) (q : Irq) : State := { s with irq := q }
def State.withTimer (s : State) (t : Timer) : State := { s with timer := t }
def State.withPpu (s : State) (p : Ppu) : State := { s with ppu := p }
def State.withDma (s : State) (v : Byte) : State := { s with dma := v }
def State.withMem (s : State) (m : Memory) : State := { s with mem := m }
def State.withFb (s : State) (fb : PixelBuffer) : State := { s with fb := fb }
def State.withCycles (s : State) (n : Nat) : State := { s with cycles := n }
def State.withDraws (s : State) (n : Nat) : State := { s with draws := n }
def State.withPortLog (s : State) (l : List (Device × PortOp)) : State := { s with portLog := l }

/-- `PC <- w`. -/
def State.setPc (s : State) (w : Word) : State := s.withRegs { s.regs with pc := w }
/-- `SP <- w`. -/
def State.setSp (s : State) (w : Word) : State := s.withRegs { s.regs with sp := w }

/-- The word `H:L` (10 R22). -/
def State.hl (s : State) : Word := mkWord s.regs.h s.regs.l

/-! ### The address map -/

/-- The regions of the address space (20 R80). -/
inductive Region where
  | rom | vram | cartRam | wram | echo | oam | unmapped | io | hram | ie
  deriving DecidableEq, Repr

/-- The region of an address, by the first matching row of the map (20 R80, R82). -/
def region (a : Addr) : Region :=
  let n := a.toNat
  if n < 0x8000 then .rom
  else if n < 0xA000 then .vram
  else if n < 0xC000 then .cartRam
  else if n < 0xE000 then .wram
  else if n < 0xFE00 then .echo
  else if n < 0xFEA0 then .oam
  else if n < 0xFF00 then .unmapped
  else if n < 0xFF80 then .io
  else if n < 0xFFFF then .hram
  else .ie

/-- Whether the access is to an address that answers: every one but an unowned I/O address outside `TOLERATED_IO`
(20 R105). -/
def tolerates (cfg : Config) (a : Addr) : Bool :=
  match region a with
  | .io => if ioReg a = .unowned then cfg.toleratedIo.contains a else true
  | _ => true

/-- `Blocked()` (20 R92). -/
def blocked (s : State) : Bool := s.cfg.vramOamBlocking && bitOf s.ppu.lcdc 7 && (s.ppu.mode == .pixelTransfer)

/-! ### External devices (20 R100 to R104) -/

/-- Whether a device is left open (any device at all) rather than at its spec value. -/
def isOpen (cfg : Config) (dev : Device) : Bool :=
  match dev with
  | .cart => cfg.cart == .any
  | .joypad => cfg.joypad == .any
  | .serial => cfg.serial == .any
  | .apu => cfg.apu == .any

/-- What a device at its spec value answers: the flat ROM reads its image below 0x8000 and 0xFF in the cartridge RAM
range; the others are byte stores (20 R100 to R103). -/
def portStored (dev : Device) (a : Addr) (s : State) : Byte :=
  match dev with
  | .cart => if a.toNat < 0x8000 then s.mem.get a.toNat else 0xFF
  | _ => s.mem.get a.toNat

/-- The accesses a device has seen, latest first. -/
def portHistory (dev : Device) (s : State) : List PortOp :=
  (s.portLog.filter fun e => e.1 == dev).map Prod.snd

/-- The byte a read of a device's port returns: at the spec value as stored; from an open device a free value of its
history (log 7). -/
def portRead (dev : Device) (a : Addr) (s : State) : Byte :=
  if isOpen s.cfg dev then freePortByte dev (portHistory dev s) a else portStored dev a s

/-- An open device remembers the access; a spec-value device is not changed by it. -/
def portNote (dev : Device) (op : PortOp) (s : State) : State :=
  if isOpen s.cfg dev then s.withPortLog ((dev, op) :: s.portLog) else s

/-- A write to a device's port: an open device takes it into its history; the flat ROM ignores it; a byte store holds
it (20 R100 to R103). -/
def portWrite (dev : Device) (a : Addr) (v : Byte) (s : State) : State :=
  if isOpen s.cfg dev then portNote dev (.write a v) s
  else
    match dev with
    | .cart => s
    | _ => s.withMem (s.mem.set a.toNat v)

/-! ### Reads -/

/-- `ModeNumber` (20 R93, 10 R48). -/
def modeNumber (m : PpuMode) : BitVec 2 :=
  match m with
  | .hblank => 0
  | .vblank => 1
  | .oamScan => 2
  | .pixelTransfer => 3

/-- The `UNUSED_READ` draw of a read made now (10 R46, log 5). -/
def unusedBits (s : State) : Byte := freeUnusedBits s.draws

/-- `TAC` as read: bits 7 to 3 drawn (20 R93). -/
def tacRead (s : State) : Byte := (unusedBits s).extractLsb' 3 5 ++ s.timer.tac

/-- `IF` as read: bits 7 to 5 drawn (20 R93). -/
def iflagRead (s : State) : Byte := (unusedBits s).extractLsb' 5 3 ++ s.irq.request

/-- `STAT` as read: bit 7 drawn, the arm bits, `LY = LYC`, the mode number (20 R93, 60 R406). -/
def statRead (s : State) : Byte :=
  (unusedBits s).extractLsb' 7 1 ++ s.ppu.statArm ++ BitVec.ofBool (s.ppu.ly == s.ppu.lyc.toNat)
    ++ modeNumber s.ppu.mode

/-- `LY` read as a byte (10 R50). -/
def lyRead (s : State) : Byte := BitVec.ofNat 8 s.ppu.ly

/-- `IoRead` (20 R93); an unowned address reads 0xFF where it is tolerated (20 R105). -/
def ioRead (a : Addr) (s : State) : Byte :=
  match ioReg a with
  | .joyp => portRead .joypad a s
  | .serial => portRead .serial a s
  | .div => s.timer.div
  | .tima => s.timer.tima
  | .tma => s.timer.tma
  | .tac => tacRead s
  | .iflag => iflagRead s
  | .apu => portRead .apu a s
  | .lcdc => s.ppu.lcdc
  | .stat => statRead s
  | .scy => s.ppu.scy
  | .scx => s.ppu.scx
  | .ly => lyRead s
  | .lyc => s.ppu.lyc
  | .dma => s.dma
  | .bgp => s.ppu.bgp
  | .obp0 => s.ppu.obp0
  | .obp1 => s.ppu.obp1
  | .wy => s.ppu.wy
  | .wx => s.ppu.wx
  | .unowned => 0xFF

/-- The byte a router read of an address returns now (20 R83). -/
def peek (a : Addr) (s : State) : Byte :=
  match region a with
  | .rom => portRead .cart a s
  | .vram => if blocked s then 0xFF else s.mem.get a.toNat
  | .cartRam => portRead .cart a s
  | .wram => s.mem.get a.toNat
  | .echo => s.mem.get (a.toNat - 0x2000)
  | .oam => if blocked s then 0xFF else s.mem.get a.toNat
  | .unmapped => 0xFF
  | .io => ioRead a s
  | .hram => s.mem.get a.toNat
  | .ie => s.irq.enable

/-- What a read leaves behind: nothing in the core (20 R97); a draw is used up, an open device remembers. -/
def afterRead (a : Addr) (s : State) : State :=
  match region a with
  | .rom => portNote .cart (.read a) s
  | .cartRam => portNote .cart (.read a) s
  | .io =>
    match ioReg a with
    | .joyp => portNote .joypad (.read a) s
    | .serial => portNote .serial (.read a) s
    | .apu => portNote .apu (.read a) s
    | .tac => s.withDraws (s.draws + 1)
    | .iflag => s.withDraws (s.draws + 1)
    | .stat => s.withDraws (s.draws + 1)
    | _ => s
  | _ => s

/-- `MemRead(addr, 1)` (20 R83): the byte and the state after, or F2 (20 R105). -/
def memRead (a : Addr) (s : State) : Res (Byte × State) :=
  if tolerates s.cfg a then .next (peek a s, afterRead a s) else .fault (.unimplementedIo a .read s.regs)

/-! ### Writes -/

/-- `CompareLine()` (60 R408): a line match raises an LCD-STAT request when `STAT[6]` is armed. -/
def compareLine (p : Ppu) : Ppu :=
  if p.ly = p.lyc.toNat ∧ p.statArm.getLsbD 3 = true then { p with reqStat := true } else p

/-- `LcdOff()` (60 R404). It does not touch the pixel buffer, whose lines keep their content while the LCD is off (60
R404, R433). DEDUCED (log 22): 93 V3 lets that content be any value, and the rules are followed. -/
def lcdOff (p : Ppu) : Ppu := { p with ly := 0, dot := 0, mode := .hblank }

/-- `LcdOn()` (60 R405). -/
def lcdOn (p : Ppu) : Ppu := { p with mode := .oamScan }

/-- `PpuWriteLcdc(v)` (60 R403). -/
def writeLcdc (v : Byte) (p : Ppu) : Ppu :=
  let q := { p with lcdc := v }
  if bitOf p.lcdc 7 && !bitOf v 7 then lcdOff q
  else if !bitOf p.lcdc 7 && bitOf v 7 then lcdOn q
  else q

/-- `PpuWriteLyc(v)` (60 R409). -/
def writeLyc (v : Byte) (p : Ppu) : Ppu := compareLine { p with lyc := v }

/-- `TimerWriteDiv()` (60 R385). -/
def writeDiv (cfg : Config) (t : Timer) : Timer :=
  { t with div := 0, divAcc := if cfg.divWriteClearsAcc then 0 else t.divAcc }

/-- `IoWrite` (20 R94) for every address but 0xFF46, whose copy is `oamDma`; here that write only stores the byte. -/
def ioPoke (a : Addr) (v : Byte) (s : State) : State :=
  match ioReg a with
  | .joyp => portWrite .joypad a v s
  | .serial => portWrite .serial a v s
  | .div => s.withTimer (writeDiv s.cfg s.timer)
  | .tima => s.withTimer { s.timer with tima := v }
  | .tma => s.withTimer { s.timer with tma := v }
  | .tac => s.withTimer { s.timer with tac := v.extractLsb' 0 3 }
  | .iflag => s.withIrq { s.irq with request := v.extractLsb' 0 5 }
  | .apu => portWrite .apu a v s
  | .lcdc => s.withPpu (writeLcdc v s.ppu)
  | .stat => s.withPpu { s.ppu with statArm := v.extractLsb' 3 4 }
  | .scy => s.withPpu { s.ppu with scy := v }
  | .scx => s.withPpu { s.ppu with scx := v }
  | .ly => s
  | .lyc => s.withPpu (writeLyc v s.ppu)
  | .dma => s.withDma v
  | .bgp => s.withPpu { s.ppu with bgp := v }
  | .obp0 => s.withPpu { s.ppu with obp0 := v }
  | .obp1 => s.withPpu { s.ppu with obp1 := v }
  | .wy => s.withPpu { s.ppu with wy := v }
  | .wx => s.withPpu { s.ppu with wx := v }
  | .unowned => s

/-- A router write of a byte (20 R84), less the copy that a write to 0xFF46 starts. -/
def poke (a : Addr) (v : Byte) (s : State) : State :=
  match region a with
  | .rom => portWrite .cart a v s
  | .vram => if blocked s then s else s.withMem (s.mem.set a.toNat v)
  | .cartRam => portWrite .cart a v s
  | .wram => s.withMem (s.mem.set a.toNat v)
  | .echo => s.withMem (s.mem.set (a.toNat - 0x2000) v)
  | .oam => if blocked s then s else s.withMem (s.mem.set a.toNat v)
  | .unmapped => s
  | .io => ioPoke a v s
  | .hram => s.withMem (s.mem.set a.toNat v)
  | .ie => s.withIrq { s.irq with enable := v }

/-- The last `n` transfers of an OAM DMA from the page `base` (20 R106): transfer `160 - n` and those after it, each a
router read and a router write. -/
def oamDmaLast (n : Nat) (base : Addr) (s : State) : Res State :=
  match n with
  | 0 => .next s
  | m + 1 =>
    let i : Addr := BitVec.ofNat 16 (159 - m)
    andThen (memRead (base + i) s) fun r => oamDmaLast m base (poke (0xFE00#16 + i) r.1 r.2)

/-- `OamDma(v)` (20 R106): 160 transfers from `v << 8`. -/
def oamDma (v : Byte) (s : State) : Res State := oamDmaLast 160 (mkWord v 0) s

/-- `MemWrite(addr, 1, v)` (20 R84): the state after, or F2 (20 R105). -/
def memWrite (a : Addr) (v : Byte) (s : State) : Res State :=
  if tolerates s.cfg a then
    if a = 0xFF46#16 then oamDma v (poke a v s) else .next (poke a v s)
  else .fault (.unimplementedIo a (.write v) s.regs)

/-! ### Words and the stack -/

/-- `MemRead(addr, 2)` (20 R110): the low byte first. -/
def memReadWord (a : Addr) (s : State) : Res (Word × State) :=
  andThen (memRead a s) fun lo =>
  andThen (memRead (a + 1) lo.2) fun hi =>
  .next (mkWord hi.1 lo.1, hi.2)

/-- `MemWrite(addr, 2, w)` (20 R111): the low byte first. -/
def memWriteWord (a : Addr) (w : Word) (s : State) : Res State :=
  andThen (memWrite a (lo8 w) s) fun s => memWrite (a + 1) (hi8 w) s

/-- `Push16(w)` (00 R15). -/
def push16 (w : Word) (s : State) : Res State :=
  let sp := s.regs.sp - 2
  memWriteWord sp w (s.setSp sp)

/-- `Pop16()` (00 R15). -/
def pop16 (s : State) : Res (Word × State) :=
  andThen (memReadWord s.regs.sp s) fun r => .next (r.1, r.2.setSp (r.2.regs.sp + 2))

/-! ### Fetching -/

/-- `Fetch8()` (00 R14). -/
def fetch8 (s : State) : Res (Byte × State) :=
  andThen (memRead s.regs.pc s) fun r => .next (r.1, r.2.setPc (r.2.regs.pc + 1))

/-! ### Taking an interrupt and returning from one -/

/-- The five interrupt sources (60 R344). -/
inductive Source where
  | vblank | lcdStat | timer | serial | joypad
  deriving DecidableEq, Repr

/-- The bit of a source in `IE` and `IF` (60 R344). -/
def Source.bit (i : Source) : Nat :=
  match i with
  | .vblank => 0
  | .lcdStat => 1
  | .timer => 2
  | .serial => 3
  | .joypad => 4

/-- The vector of a source: `0x0040 + 8 * i` (60 R344, R348). -/
def Source.vector (i : Source) : Addr := BitVec.ofNat 16 (0x0040 + 8 * i.bit)

/-- `p = IE & IF & 0x1F` (60 R345). -/
def pending (q : Irq) : BitVec 5 := q.enable.extractLsb' 0 5 &&& q.request

/-- The source of the lowest set bit (60 R347); `none` when no bit is set. -/
def lowestSource (p : BitVec 5) : Option Source :=
  if p.getLsbD 0 then some .vblank
  else if p.getLsbD 1 then some .lcdStat
  else if p.getLsbD 2 then some .timer
  else if p.getLsbD 3 then some .serial
  else if p.getLsbD 4 then some .joypad
  else none

/-- `IF[i] <- 0` (60 R348). -/
def clearRequest (i : Source) (r : BitVec 5) : BitVec 5 := r &&& ~~~(BitVec.ofNat 5 (2 ^ i.bit))

/-- Taking the interrupt `i` (60 R348): the request bit is cleared, `IME` and `ime_delay` become 0, `PC` is pushed and
becomes the vector. -/
def dispatch (i : Source) (s : State) : Res State :=
  let q := { s.irq with request := clearRequest i s.irq.request, ime := false, imeDelay := 0 }
  andThen (push16 s.regs.pc (s.withIrq q)) fun s => .next (s.setPc i.vector)

/-- Halt release, first thing of the interrupt check (60 R345). -/
def releaseHalt (q : Irq) : Irq := if q.halted && pending q != 0 then { q with halted := false } else q

/-- `InterruptCheck()` (60 R345 to R348): whether an interrupt was dispatched, and the state after. -/
def interruptCheck (s : State) : Res (Bool × State) :=
  let s1 := s.withIrq (releaseHalt s.irq)
  match if s1.irq.ime then lowestSource (pending s1.irq) else none with
  | none => .next (false, s1)
  | some i => andThen (dispatch i s1) fun s2 => .next (true, s2)

/-- Schedule the enable of interrupts after the next instruction: `ime_delay <- 2` (10 R37). -/
def scheduleEnable (s : State) : State := s.withIrq { s.irq with imeDelay := 2 }

/-- The return from an interrupt: pop `PC` and schedule the enable (45 R299). -/
def returnFromInterrupt (s : State) : Res State :=
  andThen (pop16 s) fun r => .next (scheduleEnable (r.2.setPc r.1))

/-- `TickImeDelay()` (60 R343). -/
def tickImeDelay (q : Irq) : Irq :=
  if q.imeDelay = 2 then { q with imeDelay := 1 }
  else if q.imeDelay = 1 then { q with imeDelay := 0, ime := true }
  else q

/-- The requests the host may set between steps when `HOST_IRQ` is true, drawn freely (60 R352, log 6). -/
def hostRequests (s : State) : State :=
  if s.cfg.hostIrq then
    (s.withIrq { s.irq with request := s.irq.request ||| (freeHostRequest s.draws ++ (0 : BitVec 3)) }).withDraws
      (s.draws + 1)
  else s

/-- `LatchRequests()` (60 R353). -/
def latchRequests (s : State) : State :=
  let bits := BitVec.ofBool s.timer.reqTimer ++ BitVec.ofBool s.ppu.reqStat ++ BitVec.ofBool s.ppu.reqVblank
  ((s.withIrq { s.irq with request := s.irq.request ||| BitVec.setWidth 5 bits }).withTimer
    { s.timer with reqTimer := false }).withPpu { s.ppu with reqVblank := false, reqStat := false }

end Sys2Proof.Machine
end

