-- ==== Sys2Proof/Syntax.lean ====
section
/-! DEFINITION. The instructions: one constructor per row of spec/opcode_table.json, with the operand
forms of the index tables (10 R27, R28, R29, R34) and of the operand bytes (30 R136). -/

namespace Sys2Proof

/-- A register the 3-bit operand index selects (10 R27); the index 6 is the byte at `HL` and has
constructors of its own. -/
inductive Reg where
  | b | c | d | e | h | l | a
  deriving DecidableEq, Repr

/-- The 16-bit pair index `rp` (10 R28). -/
inductive Pair where
  | bc | de | hl | sp
  deriving DecidableEq, Repr

/-- The alternate pair index `rp2` (10 R29) without AF, whose `PUSH` and `POP` are rows of their own. -/
inductive StackPair where
  | bc | de | hl
  deriving DecidableEq, Repr

/-- The condition index `cc` (10 R34, 45 R286). -/
inductive Cond where
  | nz | z | nc | c
  deriving DecidableEq, Repr

/-- The eight operations of the accumulator group, in the order of the operation field (30 R141). -/
inductive AluOp where
  | add | adc | sub | sbc | and | xor | or | cp
  deriving DecidableEq, Repr

/-- The eight byte transforms of the 0xCB page, in the order of the operation field (44 R248). -/
inductive RotOp where
  | rlc | rrc | rl | rr | sla | sra | swap | srl
  deriving DecidableEq, Repr

/-- Every instruction of the opcode table. An operand name follows the table: `rd`, `rs` registers (`d`, `s` there),
`p` pairs, `cc` conditions, `n` an immediate byte, `w` a 16-bit immediate, `a` a 16-bit address,
`o` an offset into page 0xFF, `e` a signed displacement, `b` a bit number, `t` a restart target. -/
inductive Instr where
  -- system (46) and the prefix (30 R135)
  | nop
  | stop
  | halt
  | di
  | ei
  | prefixCb (op2 : Byte)
  | undefD3
  | undefDB
  | undefDD
  | undefE3
  | undefE4
  | undefEB
  | undefEC
  | undefED
  | undefF4
  | undefFC
  | undefFD
  -- 8-bit loads (40)
  | ldRR (rd rs : Reg)
  | ldRHl (rd : Reg)
  | ldHlR (rs : Reg)
  | ldRD8 (rd : Reg) (n : Byte)
  | ldHlD8 (n : Byte)
  | ldABc
  | ldADe
  | ldBcA
  | ldDeA
  | ldAHlInc
  | ldAHlDec
  | ldHlIncA
  | ldHlDecA
  | ldhA8A (o : Byte)
  | ldhAA8 (o : Byte)
  | ldhCA
  | ldhAC
  | ldA16A (a : Addr)
  | ldAA16 (a : Addr)
  -- 16-bit loads and stack (41)
  | ldRpD16 (p : Pair) (w : Word)
  | ldA16Sp (a : Addr)
  | ldSpHl
  | pushRp2 (p : StackPair)
  | pushAf
  | popRp2 (p : StackPair)
  | popAf
  -- 8-bit arithmetic and logic (42)
  | addAR (rs : Reg)
  | addAHl
  | addAD8 (n : Byte)
  | adcAR (rs : Reg)
  | adcAHl
  | adcAD8 (n : Byte)
  | subR (rs : Reg)
  | subHl
  | subD8 (n : Byte)
  | sbcAR (rs : Reg)
  | sbcAHl
  | sbcAD8 (n : Byte)
  | andR (rs : Reg)
  | andHl
  | andD8 (n : Byte)
  | xorR (rs : Reg)
  | xorHl
  | xorD8 (n : Byte)
  | orR (rs : Reg)
  | orHl
  | orD8 (n : Byte)
  | cpR (rs : Reg)
  | cpHl
  | cpD8 (n : Byte)
  | incR (rd : Reg)
  | incHl
  | decR (rd : Reg)
  | decHl
  | daa
  | cpl
  | scf
  | ccf
  -- 16-bit arithmetic (43)
  | addHlRp (p : Pair)
  | incRp (p : Pair)
  | decRp (p : Pair)
  | addSpE8 (e : Byte)
  | ldHlSpE8 (e : Byte)
  -- rotates, shifts and bits (44)
  | rlca
  | rrca
  | rla
  | rra
  | rlcR (rs : Reg)
  | rlcHl
  | rrcR (rs : Reg)
  | rrcHl
  | rlR (rs : Reg)
  | rlHl
  | rrR (rs : Reg)
  | rrHl
  | slaR (rs : Reg)
  | slaHl
  | sraR (rs : Reg)
  | sraHl
  | swapR (rs : Reg)
  | swapHl
  | srlR (rs : Reg)
  | srlHl
  | bitR (b : BitVec 3) (rs : Reg)
  | bitHl (b : BitVec 3)
  | resR (b : BitVec 3) (rs : Reg)
  | resHl (b : BitVec 3)
  | setR (b : BitVec 3) (rs : Reg)
  | setHl (b : BitVec 3)
  -- jumps, calls, returns and restarts (45)
  | jpA16 (a : Addr)
  | jpCcA16 (cc : Cond) (a : Addr)
  | jpHl
  | jrE8 (e : Byte)
  | jrCcE8 (cc : Cond) (e : Byte)
  | callA16 (a : Addr)
  | callCcA16 (cc : Cond) (a : Addr)
  | ret
  | retCc (cc : Cond)
  | reti
  | rst (t : BitVec 3)
  deriving DecidableEq, Repr

end Sys2Proof
end

