-- ==== Sys2Proof/Machine/Operands.lean ====
section
/-! DEFINITION. The operand forms: registers, pairs, conditions (10 R22, R27, R28, R29, R34) and the accesses through
a pair or page 0xFF (30 R137). -/

namespace Sys2Proof.Machine

/-- `F` as a byte: Z N H C in bits 7 to 4, low nibble 0 (10 R21). -/
def flagsByte (f : Flags) : Byte :=
  BitVec.ofBool f.z ++ BitVec.ofBool f.n ++ BitVec.ofBool f.h ++ BitVec.ofBool f.c ++ (0 : BitVec 4)

/-- The flags a byte written to `F` gives; bits 3 to 0 are dropped (10 R22, 41 R197). -/
def flagsOfByte (v : Byte) : Flags := { z := bitOf v 7, n := bitOf v 6, h := bitOf v 5, c := bitOf v 4 }

/-- `r8[i]` for a register (10 R27). -/
def getReg (r : Reg) (g : Regs) : Byte :=
  match r with
  | .b => g.b
  | .c => g.c
  | .d => g.d
  | .e => g.e
  | .h => g.h
  | .l => g.l
  | .a => g.a

/-- `r8[i] <- v` for a register (10 R27). -/
def putReg (r : Reg) (v : Byte) (g : Regs) : Regs :=
  match r with
  | .b => { g with b := v }
  | .c => { g with c := v }
  | .d => { g with d := v }
  | .e => { g with e := v }
  | .h => { g with h := v }
  | .l => { g with l := v }
  | .a => { g with a := v }

/-- `rp[i]` (10 R28); a pair is a view of two registers (10 R22). -/
def getPair (p : Pair) (g : Regs) : Word :=
  match p with
  | .bc => mkWord g.b g.c
  | .de => mkWord g.d g.e
  | .hl => mkWord g.h g.l
  | .sp => g.sp

/-- `rp[i] <- w` (10 R22, R28). -/
def putPair (p : Pair) (w : Word) (g : Regs) : Regs :=
  match p with
  | .bc => { g with b := hi8 w, c := lo8 w }
  | .de => { g with d := hi8 w, e := lo8 w }
  | .hl => { g with h := hi8 w, l := lo8 w }
  | .sp => { g with sp := w }

/-- `rp2[i]` for BC, DE, HL (10 R29). -/
def getStackPair (p : StackPair) (g : Regs) : Word :=
  match p with
  | .bc => mkWord g.b g.c
  | .de => mkWord g.d g.e
  | .hl => mkWord g.h g.l

/-- `rp2[i] <- w` for BC, DE, HL (10 R22, R29). -/
def putStackPair (p : StackPair) (w : Word) (g : Regs) : Regs :=
  match p with
  | .bc => { g with b := hi8 w, c := lo8 w }
  | .de => { g with d := hi8 w, e := lo8 w }
  | .hl => { g with h := hi8 w, l := lo8 w }

/-- `AF = A:F` (10 R22). -/
def getAf (g : Regs) : Word := mkWord g.a (flagsByte g.f)

/-- `AF <- w`, write-masked (10 R22). -/
def putAf (w : Word) (g : Regs) : Regs := { g with a := hi8 w, f := flagsOfByte (lo8 w) }

/-- `Cond(c)` (10 R34, 45 R286). -/
def condHolds (cc : Cond) (f : Flags) : Bool :=
  match cc with
  | .nz => !f.z
  | .z => f.z
  | .nc => !f.c
  | .c => f.c

/-! ### State-level forms -/

/-- The register operand. -/
def State.reg (s : State) (r : Reg) : Byte := getReg r s.regs

/-- `r8[d] <- v`. -/
def State.setReg (s : State) (r : Reg) (v : Byte) : State := s.withRegs (putReg r v s.regs)

/-- `A <- v`. -/
def State.setA (s : State) (v : Byte) : State := s.withRegs { s.regs with a := v }

/-- `F <- f`. -/
def State.setFlags (s : State) (f : Flags) : State := s.withRegs { s.regs with f := f }

/-- `rp[p] <- w`. -/
def State.setPair (s : State) (p : Pair) (w : Word) : State := s.withRegs (putPair p w s.regs)

/-- `HL <- w`. -/
def State.setHl (s : State) (w : Word) : State := s.setPair .hl w

/-- The end of an instruction that lasts `n` cycles. -/
def finish (n : Nat) (s : State) : Res State := .next (s.withCycles n)

/-- Read the byte at an address and go on with it in the state after the read. -/
def withByte (a : Addr) (s : State) (k : Byte → State → Res State) : Res State :=
  andThen (memRead a s) fun r => k r.1 r.2

/-- Load a byte into the accumulator or another register and end (40). -/
def loadReg (r : Reg) (a : Addr) (n : Nat) (s : State) : Res State :=
  withByte a s fun v s => finish n (s.setReg r v)

/-- Store a byte and end (40). -/
def storeByte (a : Addr) (v : Byte) (n : Nat) (s : State) : Res State :=
  andThen (memWrite a v s) fun s => finish n s

/-- A read-modify-write of one byte: one read, then one write at the same address (20 R114); `f` gives the new byte
and the flags from the old byte and the flags before. DESIGN CHOICE (log 21): the flags are written after the byte; the
rules (42 R230, R232; 44 R255 to R269) give no order, and only the `F` of an F2 record raised by the write shows it. -/
def modifyByte (a : Addr) (f : Byte → Flags → Byte × Flags) (n : Nat) (s : State) : Res State :=
  withByte a s fun v s =>
    andThen (memWrite a (f v s.regs.f).1 s) fun t => finish n (t.setFlags (f v s.regs.f).2)

/-- A read-modify-write of a register. -/
def modifyReg (r : Reg) (f : Byte → Flags → Byte × Flags) (n : Nat) (s : State) : Res State :=
  finish n ((s.setReg r (f (s.reg r) s.regs.f).1).setFlags (f (s.reg r) s.regs.f).2)

end Sys2Proof.Machine
end

