-- ==== Sys2Proof/Machine/Flags.lean ====
section
/-! DEFINITION. The arithmetic and its flags (42 R200, R201, R233; 43; 44 R248). Each operation is computed on
unbounded integers and narrowed at the end, as the rules are (00 R8). -/

namespace Sys2Proof.Machine

/-- A result byte with the half-carry and the carry (42 R200). -/
structure Arith8 where
  r : Byte
  h : Bool
  c : Bool
  deriving DecidableEq, Repr

/-- The carry flag as a number. -/
def carryIn (f : Flags) : Nat := f.c.toNat

/-- `Add8(a, b, cin)` (42 R200). -/
def add8 (a b : Byte) (cin : Nat) : Arith8 :=
  let sum := a.toNat + b.toNat + cin
  { r := BitVec.ofNat 8 sum, h := decide (a.toNat % 16 + b.toNat % 16 + cin > 0x0F), c := decide (sum > 0xFF) }

/-- `Sub8(a, b, cin)` (42 R201). -/
def sub8 (a b : Byte) (cin : Nat) : Arith8 :=
  { r := BitVec.ofInt 8 ((a.toNat : Int) - b.toNat - cin), h := decide (a.toNat % 16 < b.toNat % 16 + cin),
    c := decide (a.toNat < b.toNat + cin) }

/-- The flags of an additive or subtractive operation (42): Z of the result, N as given, H and C as computed. -/
def arithFlags (x : Arith8) (n : Bool) : Flags := { z := x.r == 0, n := n, h := x.h, c := x.c }

/-- The flags of a logical operation (42): Z of the result, N and C 0, H as given. -/
def logicFlags (r : Byte) (h : Bool) : Flags := { z := r == 0, n := false, h := h, c := false }

/-- An operation of the accumulator group on `A` and `v`: the new `A` and the new flags (42 R205 to R228). `CP` leaves
`A`. -/
def alu (o : AluOp) (a v : Byte) (f : Flags) : Byte × Flags :=
  match o with
  | .add => ((add8 a v 0).r, arithFlags (add8 a v 0) false)
  | .adc => ((add8 a v (carryIn f)).r, arithFlags (add8 a v (carryIn f)) false)
  | .sub => ((sub8 a v 0).r, arithFlags (sub8 a v 0) true)
  | .sbc => ((sub8 a v (carryIn f)).r, arithFlags (sub8 a v (carryIn f)) true)
  | .and => (a &&& v, logicFlags (a &&& v) true)
  | .xor => (a ^^^ v, logicFlags (a ^^^ v) false)
  | .or => (a ||| v, logicFlags (a ||| v) false)
  | .cp => (a, arithFlags (sub8 a v 0) true)

/-- `INC` of a byte: C is not touched (42 R229, R230). -/
def incByte (v : Byte) (f : Flags) : Byte × Flags :=
  (v + 1, { z := v + 1 == 0, n := false, h := v.toNat % 16 == 0x0F, c := f.c })

/-- `DEC` of a byte: C is not touched (42 R231, R232). -/
def decByte (v : Byte) (f : Flags) : Byte × Flags :=
  (v - 1, { z := v - 1 == 0, n := true, h := v.toNat % 16 == 0x00, c := f.c })

/-- The adjustment of `DAA` (42 R233), both tests on `A` before it. -/
def daaAdjust (a : Byte) (f : Flags) : Byte :=
  let low := f.h || (!f.n && decide (a.toNat % 16 > 0x09))
  let high := f.c || (!f.n && decide (a.toNat > 0x99))
  (if low then 0x06 else 0x00) ||| (if high then 0x60 else 0x00)

/-- `DAA` (42 R233). -/
def daaByte (a : Byte) (f : Flags) : Byte × Flags :=
  let adj := daaAdjust a f
  let r := if f.n then a - adj else a + adj
  (r, { z := r == 0, n := f.n, h := false, c := decide (adj.toNat ≥ 0x60) })

/-- `ADD HL,rp` (43 R240): the sum and the flags; Z is not touched. -/
def addHl (a b : Word) (f : Flags) : Word × Flags :=
  let sum := a.toNat + b.toNat
  (BitVec.ofNat 16 sum,
    { z := f.z, n := false, h := decide (a.toNat % 0x1000 + b.toNat % 0x1000 > 0x0FFF), c := decide (sum > 0xFFFF) })

/-- `SP + e8` (43 R243, R244): the sum with the signed byte, the flags from the unsigned low-byte addition. -/
def addSpSigned (sp : Word) (u : Byte) : Word × Flags :=
  (BitVec.ofInt 16 ((sp.toNat : Int) + u.toInt),
    { z := false, n := false, h := decide (sp.toNat % 16 + u.toNat % 16 > 0x0F),
      c := decide (sp.toNat % 256 + u.toNat > 0xFF) })

/-- The byte a transform gives, from the byte and the old carry (44 R248); `SWAP` exchanges the nibbles (20 R117). -/
def rotResult (o : RotOp) (v : Byte) (cy : Bool) : Byte :=
  let cyByte : Byte := (BitVec.ofBool cy).setWidth 8
  let bit7 : Byte := (BitVec.ofBool (bitOf v 7)).setWidth 8
  let bit0 : Byte := (BitVec.ofBool (bitOf v 0)).setWidth 8
  match o with
  | .rlc => (v <<< 1) ||| bit7
  | .rrc => (v >>> 1) ||| (bit0 <<< 7)
  | .rl => (v <<< 1) ||| cyByte
  | .rr => (v >>> 1) ||| (cyByte <<< 7)
  | .sla => v <<< 1
  | .sra => (v >>> 1) ||| (v &&& 0x80)
  | .swap => ((v <<< 4) &&& 0xF0) ||| (v >>> 4)
  | .srl => v >>> 1

/-- The bit a transform shifts out (44 R248); `SWAP` shifts none out and gives 0. -/
def rotCarry (o : RotOp) (v : Byte) : Bool :=
  match o with
  | .rlc => bitOf v 7
  | .rrc => bitOf v 0
  | .rl => bitOf v 7
  | .rr => bitOf v 0
  | .sla => bitOf v 7
  | .sra => bitOf v 0
  | .swap => false
  | .srl => bitOf v 0

/-- A transform of the 0xCB page with its flags (44 R254 to R269). -/
def rotate (o : RotOp) (v : Byte) (f : Flags) : Byte × Flags :=
  let r := rotResult o v f.c
  (r, { z := r == 0, n := false, h := false, c := rotCarry o v })

/-- An accumulator rotate of the base page: Z is forced to 0 (44 R250 to R253). -/
def rotateA (o : RotOp) (v : Byte) (f : Flags) : Byte × Flags :=
  (rotResult o v f.c, { z := false, n := false, h := false, c := rotCarry o v })

/-- The flags of `BIT b` on a byte (44 R270, R271). -/
def bitFlags (b : BitVec 3) (v : Byte) (f : Flags) : Flags :=
  { z := !bitOf v b.toNat, n := false, h := true, c := f.c }

/-- A byte with bit `b` cleared (44 R272). -/
def resBit (b : BitVec 3) (v : Byte) : Byte := v &&& ~~~((1 : Byte) <<< b.toNat)

/-- A byte with bit `b` set (44 R274). -/
def setBit (b : BitVec 3) (v : Byte) : Byte := v ||| ((1 : Byte) <<< b.toNat)

end Sys2Proof.Machine
end

