-- ==== Sys2Proof/Machine/Alu16.lean ====
section
/-! DEFINITION. The 16-bit arithmetic instructions (43).

`PC` is already past the bytes of the instruction (00 R14, log 9). Each meaning ends with its cycle count (00 R17). -/

namespace Sys2Proof.Machine

/-- `ADD HL,rp` (43 R240). -/
def execAddHlRp (p : Pair) (s : State) : Res State :=
  finish 8 ((s.setHl (addHl s.hl (getPair p s.regs) s.regs.f).1).setFlags (addHl s.hl (getPair p s.regs) s.regs.f).2)

/-- `INC rp` (43 R241). -/
def execIncRp (p : Pair) (s : State) : Res State :=
  finish 8 (s.setPair p (getPair p s.regs + 1))

/-- `DEC rp` (43 R242). -/
def execDecRp (p : Pair) (s : State) : Res State :=
  finish 8 (s.setPair p (getPair p s.regs - 1))

/-- `ADD SP,e8` (43 R243). -/
def execAddSpE8 (e : Byte) (s : State) : Res State :=
  finish 16 ((s.setSp (addSpSigned s.regs.sp e).1).setFlags (addSpSigned s.regs.sp e).2)

/-- `LD HL,SP+e8` (43 R244). -/
def execLdHlSpE8 (e : Byte) (s : State) : Res State :=
  finish 12 ((s.setHl (addSpSigned s.regs.sp e).1).setFlags (addSpSigned s.regs.sp e).2)

end Sys2Proof.Machine
end

