-- ==== Sys2Proof/Machine/Alu8.lean ====
section
/-! DEFINITION. The 8-bit arithmetic and logic instructions (42).

`PC` is already past the bytes of the instruction (00 R14, log 9). Each meaning ends with its cycle count (00 R17). -/

namespace Sys2Proof.Machine

/-- The accumulator operation `o` with the operand `v`, lasting `n` cycles (42 R202). -/
def accumulate (o : AluOp) (v : Byte) (n : Nat) (s : State) : Res State :=
  finish n ((s.setA (alu o s.regs.a v s.regs.f).1).setFlags (alu o s.regs.a v s.regs.f).2)

/-- `ADD A,r` (42 R205). -/
def execAddAR (rs : Reg) (s : State) : Res State :=
  accumulate .add (s.reg rs) 4 s

/-- `ADD A,(HL)` (42 R206). -/
def execAddAHl (s : State) : Res State :=
  withByte s.hl s fun v t => accumulate .add v 8 t

/-- `ADD A,d8` (42 R207). -/
def execAddAD8 (n : Byte) (s : State) : Res State :=
  accumulate .add n 8 s

/-- `ADC A,r` (42 R208). -/
def execAdcAR (rs : Reg) (s : State) : Res State :=
  accumulate .adc (s.reg rs) 4 s

/-- `ADC A,(HL)` (42 R209). -/
def execAdcAHl (s : State) : Res State :=
  withByte s.hl s fun v t => accumulate .adc v 8 t

/-- `ADC A,d8` (42 R210). -/
def execAdcAD8 (n : Byte) (s : State) : Res State :=
  accumulate .adc n 8 s

/-- `SUB r` (42 R211). -/
def execSubR (rs : Reg) (s : State) : Res State :=
  accumulate .sub (s.reg rs) 4 s

/-- `SUB (HL)` (42 R212). -/
def execSubHl (s : State) : Res State :=
  withByte s.hl s fun v t => accumulate .sub v 8 t

/-- `SUB d8` (42 R213). -/
def execSubD8 (n : Byte) (s : State) : Res State :=
  accumulate .sub n 8 s

/-- `SBC A,r` (42 R214). -/
def execSbcAR (rs : Reg) (s : State) : Res State :=
  accumulate .sbc (s.reg rs) 4 s

/-- `SBC A,(HL)` (42 R215). -/
def execSbcAHl (s : State) : Res State :=
  withByte s.hl s fun v t => accumulate .sbc v 8 t

/-- `SBC A,d8` (42 R216). -/
def execSbcAD8 (n : Byte) (s : State) : Res State :=
  accumulate .sbc n 8 s

/-- `AND r` (42 R217). -/
def execAndR (rs : Reg) (s : State) : Res State :=
  accumulate .and (s.reg rs) 4 s

/-- `AND (HL)` (42 R218). -/
def execAndHl (s : State) : Res State :=
  withByte s.hl s fun v t => accumulate .and v 8 t

/-- `AND d8` (42 R219). -/
def execAndD8 (n : Byte) (s : State) : Res State :=
  accumulate .and n 8 s

/-- `XOR r` (42 R220). -/
def execXorR (rs : Reg) (s : State) : Res State :=
  accumulate .xor (s.reg rs) 4 s

/-- `XOR (HL)` (42 R221). -/
def execXorHl (s : State) : Res State :=
  withByte s.hl s fun v t => accumulate .xor v 8 t

/-- `XOR d8` (42 R222). -/
def execXorD8 (n : Byte) (s : State) : Res State :=
  accumulate .xor n 8 s

/-- `OR r` (42 R223). -/
def execOrR (rs : Reg) (s : State) : Res State :=
  accumulate .or (s.reg rs) 4 s

/-- `OR (HL)` (42 R224). -/
def execOrHl (s : State) : Res State :=
  withByte s.hl s fun v t => accumulate .or v 8 t

/-- `OR d8` (42 R225). -/
def execOrD8 (n : Byte) (s : State) : Res State :=
  accumulate .or n 8 s

/-- `CP r` (42 R226). -/
def execCpR (rs : Reg) (s : State) : Res State :=
  accumulate .cp (s.reg rs) 4 s

/-- `CP (HL)` (42 R227). -/
def execCpHl (s : State) : Res State :=
  withByte s.hl s fun v t => accumulate .cp v 8 t

/-- `CP d8` (42 R228). -/
def execCpD8 (n : Byte) (s : State) : Res State :=
  accumulate .cp n 8 s

/-- `INC r` (42 R229). -/
def execIncR (rd : Reg) (s : State) : Res State :=
  modifyReg rd incByte 4 s

/-- `INC (HL)` (42 R230). -/
def execIncHl (s : State) : Res State :=
  modifyByte s.hl incByte 12 s

/-- `DEC r` (42 R231). -/
def execDecR (rd : Reg) (s : State) : Res State :=
  modifyReg rd decByte 4 s

/-- `DEC (HL)` (42 R232). -/
def execDecHl (s : State) : Res State :=
  modifyByte s.hl decByte 12 s

/-- `DAA` (42 R233). -/
def execDaa (s : State) : Res State :=
  modifyReg .a daaByte 4 s

/-- `CPL` (42 R234). -/
def execCpl (s : State) : Res State :=
  finish 4 ((s.setA (~~~s.regs.a)).setFlags { s.regs.f with n := true, h := true })

/-- `SCF` (42 R235). -/
def execScf (s : State) : Res State :=
  finish 4 (s.setFlags { s.regs.f with n := false, h := false, c := true })

/-- `CCF` (42 R236). -/
def execCcf (s : State) : Res State :=
  finish 4 (s.setFlags { s.regs.f with n := false, h := false, c := !s.regs.f.c })

end Sys2Proof.Machine
end

