-- ==== Sys2Proof/Machine/Control.lean ====
section
/-! DEFINITION. The jumps, calls, returns and restarts (45).

`PC` is already past the bytes of the instruction (00 R14, log 9). Each meaning ends with its cycle count (00 R17). -/

namespace Sys2Proof.Machine

/-- `Push16(PC); PC <- a`, lasting `n` cycles (45 R295, R310). -/
def callTo (a : Addr) (n : Nat) (s : State) : Res State :=
  andThen (push16 s.regs.pc s) fun t => finish n (t.setPc a)

/-- `PC <- Pop16()`, lasting `n` cycles (45 R297). -/
def returnTo (n : Nat) (s : State) : Res State :=
  andThen (pop16 s) fun r => finish n (r.2.setPc r.1)

/-- The target of a relative jump (45 R293). -/
def relativeTarget (s : State) (e : Byte) : Addr := s.regs.pc + sext16 e

/-- `JP a16` (45 R290). -/
def execJpA16 (a : Addr) (s : State) : Res State :=
  finish 16 (s.setPc a)

/-- `JP cc,a16` (45 R291). -/
def execJpCcA16 (cc : Cond) (a : Addr) (s : State) : Res State :=
  if condHolds cc s.regs.f then finish 16 (s.setPc a) else finish 12 s

/-- `JP HL` (45 R292). -/
def execJpHl (s : State) : Res State :=
  finish 4 (s.setPc s.hl)

/-- `JR e8` (45 R293). -/
def execJrE8 (e : Byte) (s : State) : Res State :=
  finish 12 (s.setPc (relativeTarget s e))

/-- `JR cc,e8` (45 R294). -/
def execJrCcE8 (cc : Cond) (e : Byte) (s : State) : Res State :=
  if condHolds cc s.regs.f then finish 12 (s.setPc (relativeTarget s e)) else finish 8 s

/-- `CALL a16` (45 R295). -/
def execCallA16 (a : Addr) (s : State) : Res State :=
  callTo a 24 s

/-- `CALL cc,a16` (45 R296). -/
def execCallCcA16 (cc : Cond) (a : Addr) (s : State) : Res State :=
  if condHolds cc s.regs.f then callTo a 24 s else finish 12 s

/-- `RET` (45 R297). -/
def execRet (s : State) : Res State :=
  returnTo 16 s

/-- `RET cc` (45 R298). -/
def execRetCc (cc : Cond) (s : State) : Res State :=
  if condHolds cc s.regs.f then returnTo 20 s else finish 8 s

/-- `RETI` (45 R299). -/
def execReti (s : State) : Res State :=
  andThen (returnFromInterrupt s) fun t => finish 16 t

/-- `RST t` (45 R310). -/
def execRst (t : BitVec 3) (s : State) : Res State :=
  callTo (BitVec.ofNat 16 (8 * t.toNat)) 16 s

end Sys2Proof.Machine
end

