-- ==== Sys2Proof/Machine/Load16.lean ====
section
/-! DEFINITION. The 16-bit loads and the stack instructions (41).

`PC` is already past the bytes of the instruction (00 R14, log 9). Each meaning ends with its cycle count (00 R17). -/

namespace Sys2Proof.Machine

/-- `LD rp,d16` (41 R190). -/
def execLdRpD16 (p : Pair) (w : Word) (s : State) : Res State :=
  finish 12 (s.setPair p w)

/-- `LD (a16),SP` (41 R191). -/
def execLdA16Sp (a : Addr) (s : State) : Res State :=
  andThen (memWriteWord a s.regs.sp s) fun t => finish 20 t

/-- `LD SP,HL` (41 R192). -/
def execLdSpHl (s : State) : Res State :=
  finish 8 (s.setSp s.hl)

/-- `PUSH rp2` for BC, DE, HL (41 R194). -/
def execPushRp2 (p : StackPair) (s : State) : Res State :=
  andThen (push16 (getStackPair p s.regs) s) fun t => finish 16 t

/-- `PUSH AF` (41 R195). -/
def execPushAf (s : State) : Res State :=
  andThen (push16 (getAf s.regs) s) fun t => finish 16 t

/-- `POP rp2` for BC, DE, HL (41 R196). -/
def execPopRp2 (p : StackPair) (s : State) : Res State :=
  andThen (pop16 s) fun r => finish 12 (r.2.withRegs (putStackPair p r.1 r.2.regs))

/-- `POP AF` (41 R197). -/
def execPopAf (s : State) : Res State :=
  andThen (pop16 s) fun r => finish 12 (r.2.withRegs (putAf r.1 r.2.regs))

end Sys2Proof.Machine
end

