-- ==== Sys2Proof/Machine/Load8.lean ====
section
/-! DEFINITION. The 8-bit load instructions (40).

`PC` is already past the bytes of the instruction (00 R14, log 9). Each meaning ends with its cycle count (00 R17). -/

namespace Sys2Proof.Machine

/-- `LD r,r'` (40 R160). -/
def execLdRR (rd rs : Reg) (s : State) : Res State :=
  finish 4 (s.setReg rd (s.reg rs))

/-- `LD r,(HL)` (40 R161). -/
def execLdRHl (rd : Reg) (s : State) : Res State :=
  loadReg rd s.hl 8 s

/-- `LD (HL),r` (40 R162). -/
def execLdHlR (rs : Reg) (s : State) : Res State :=
  storeByte s.hl (s.reg rs) 8 s

/-- `LD r,d8` (40 R163). -/
def execLdRD8 (rd : Reg) (n : Byte) (s : State) : Res State :=
  finish 8 (s.setReg rd n)

/-- `LD (HL),d8` (40 R164). -/
def execLdHlD8 (n : Byte) (s : State) : Res State :=
  storeByte s.hl n 12 s

/-- `LD A,(BC)` (40 R165). -/
def execLdABc (s : State) : Res State :=
  loadReg .a (getPair .bc s.regs) 8 s

/-- `LD A,(DE)` (40 R166). -/
def execLdADe (s : State) : Res State :=
  loadReg .a (getPair .de s.regs) 8 s

/-- `LD (BC),A` (40 R167). -/
def execLdBcA (s : State) : Res State :=
  storeByte (getPair .bc s.regs) s.regs.a 8 s

/-- `LD (DE),A` (40 R168). -/
def execLdDeA (s : State) : Res State :=
  storeByte (getPair .de s.regs) s.regs.a 8 s

/-- `LD A,(HL+)` (40 R169). -/
def execLdAHlInc (s : State) : Res State :=
  withByte s.hl s fun v t => finish 8 ((t.setA v).setHl (t.hl + 1))

/-- `LD A,(HL-)` (40 R170). -/
def execLdAHlDec (s : State) : Res State :=
  withByte s.hl s fun v t => finish 8 ((t.setA v).setHl (t.hl - 1))

/-- `LD (HL+),A` (40 R171). -/
def execLdHlIncA (s : State) : Res State :=
  andThen (memWrite s.hl s.regs.a s) fun t => finish 8 (t.setHl (t.hl + 1))

/-- `LD (HL-),A` (40 R172). -/
def execLdHlDecA (s : State) : Res State :=
  andThen (memWrite s.hl s.regs.a s) fun t => finish 8 (t.setHl (t.hl - 1))

/-- `LDH (a8),A` (40 R173). -/
def execLdhA8A (o : Byte) (s : State) : Res State :=
  storeByte (page0xFF o) s.regs.a 12 s

/-- `LDH A,(a8)` (40 R174). -/
def execLdhAA8 (o : Byte) (s : State) : Res State :=
  loadReg .a (page0xFF o) 12 s

/-- `LDH (C),A` (40 R175). -/
def execLdhCA (s : State) : Res State :=
  storeByte (page0xFF s.regs.c) s.regs.a 8 s

/-- `LDH A,(C)` (40 R176). -/
def execLdhAC (s : State) : Res State :=
  loadReg .a (page0xFF s.regs.c) 8 s

/-- `LD (a16),A` (40 R177). -/
def execLdA16A (a : Addr) (s : State) : Res State :=
  storeByte a s.regs.a 16 s

/-- `LD A,(a16)` (40 R178). -/
def execLdAA16 (a : Addr) (s : State) : Res State :=
  loadReg .a a 16 s

end Sys2Proof.Machine
end

