-- ==== Sys2Proof/WellFormed.lean ====
section
/-! DEFINITION. Which terms of `Instr` are instructions of the machine.

Operands are typed so that no index is out of range (10 R26, 60 R363). One check is left: the prefix byte
0xCB is a row of the opcode table but "is not an instruction by itself" (30 R135); the instruction is the row
of the 0xCB page that its second byte selects. -/

namespace Sys2Proof

/-- The check on the prefix row: `prefixCb` is not an instruction of its own (30 R135, log 10). -/
def Instr.isPrefix (i : Instr) : Bool :=
  match i with
  | .prefixCb _ => true
  | _ => false

/-- A well-formed instruction: a row that is an instruction by itself. -/
def Instr.wellFormed (i : Instr) : Bool := !i.isPrefix

/-- `wellFormed` as a proposition. -/
abbrev WellFormed (i : Instr) : Prop := i.wellFormed = true

end Sys2Proof
end

