-- ==== Sys2Proof/Decode.lean ====
section
/-! DEFINITION. The decoder and the encoder (30). The decoder cuts the opcode byte into the slices of 30 R132
and is total on bytes: every opcode byte has exactly one row (30 R145). The encoder is written from the
bit patterns of 30 R142 and R143. -/

namespace Sys2Proof

/-- Why a list of bytes holds no instruction. -/
inductive DecodeError where
  /-- The list ends before the last byte of the instruction. -/
  | truncated
  deriving DecidableEq, Repr

/-! ### Index tables, from numbers -/

/-- `r8[i]`, and `none` for the index 6, the byte at `HL` (10 R27). -/
def regOf? (i : Nat) : Option Reg :=
  match i with
  | 0 => some .b
  | 1 => some .c
  | 2 => some .d
  | 3 => some .e
  | 4 => some .h
  | 5 => some .l
  | 6 => none
  | _ => some .a

/-- `rp[i]` (10 R28). -/
def pairOf (i : Nat) : Pair :=
  match i with
  | 0 => .bc
  | 1 => .de
  | 2 => .hl
  | _ => .sp

/-- `rp2[i]`, and `none` for the index 3, AF (10 R29). -/
def stackPairOf? (i : Nat) : Option StackPair :=
  match i with
  | 0 => some .bc
  | 1 => some .de
  | 2 => some .hl
  | _ => none

/-- `cc[i]` (10 R34, 45 R286). -/
def condOf (i : Nat) : Cond :=
  match i with
  | 0 => .nz
  | 1 => .z
  | 2 => .nc
  | _ => .c

/-- The accumulator operation of the field `o` (30 R141). -/
def aluOpOf (i : Nat) : AluOp :=
  match i with
  | 0 => .add
  | 1 => .adc
  | 2 => .sub
  | 3 => .sbc
  | 4 => .and
  | 5 => .xor
  | 6 => .or
  | _ => .cp

/-- The byte transform of the field `o` of the 0xCB page (44 R248). -/
def rotOpOf (i : Nat) : RotOp :=
  match i with
  | 0 => .rlc
  | 1 => .rrc
  | 2 => .rl
  | 3 => .rr
  | 4 => .sla
  | 5 => .sra
  | 6 => .swap
  | _ => .srl

/-! ### Rows of a group -/

/-- The register row of an accumulator operation (30 R142). -/
def aluRegInstr (o : AluOp) (rs : Reg) : Instr :=
  match o with
  | .add => .addAR rs
  | .adc => .adcAR rs
  | .sub => .subR rs
  | .sbc => .sbcAR rs
  | .and => .andR rs
  | .xor => .xorR rs
  | .or => .orR rs
  | .cp => .cpR rs

/-- The `(HL)` row of an accumulator operation (30 R142). -/
def aluHlInstr (o : AluOp) : Instr :=
  match o with
  | .add => .addAHl
  | .adc => .adcAHl
  | .sub => .subHl
  | .sbc => .sbcAHl
  | .and => .andHl
  | .xor => .xorHl
  | .or => .orHl
  | .cp => .cpHl

/-- The immediate row of an accumulator operation (30 R142). -/
def aluImmInstr (o : AluOp) (n : Byte) : Instr :=
  match o with
  | .add => .addAD8 n
  | .adc => .adcAD8 n
  | .sub => .subD8 n
  | .sbc => .sbcAD8 n
  | .and => .andD8 n
  | .xor => .xorD8 n
  | .or => .orD8 n
  | .cp => .cpD8 n

/-- The register row of a byte transform (30 R143). -/
def rotRegInstr (o : RotOp) (rs : Reg) : Instr :=
  match o with
  | .rlc => .rlcR rs
  | .rrc => .rrcR rs
  | .rl => .rlR rs
  | .rr => .rrR rs
  | .sla => .slaR rs
  | .sra => .sraR rs
  | .swap => .swapR rs
  | .srl => .srlR rs

/-- The `(HL)` row of a byte transform (30 R143). -/
def rotHlInstr (o : RotOp) : Instr :=
  match o with
  | .rlc => .rlcHl
  | .rrc => .rrcHl
  | .rl => .rlHl
  | .rr => .rrHl
  | .sla => .slaHl
  | .sra => .sraHl
  | .swap => .swapHl
  | .srl => .srlHl

/-! ### The two pages -/

/-- The row of the 0xCB page that the second byte selects (30 R143, 44 R249). -/
def decodeCb (op2 : Byte) : Instr :=
  let y := Machine.sliceOf op2 3 3
  let b := BitVec.ofNat 3 y
  match Machine.sliceOf op2 6 2, regOf? (Machine.sliceOf op2 0 3) with
  | 0, some rs => rotRegInstr (rotOpOf y) rs
  | 0, none => rotHlInstr (rotOpOf y)
  | 1, some rs => .bitR b rs
  | 1, none => .bitHl b
  | 2, some rs => .resR b rs
  | 2, none => .resHl b
  | _, some rs => .setR b rs
  | _, none => .setHl b

/-- The rows `00yyyzzz` (30 R142); `b1` and `b2` are the bytes after the opcode. -/
def decodeX0 (y z : Nat) (b1 b2 : Byte) : Instr :=
  let p := y / 2
  match z with
  | 0 =>
    match y with
    | 0 => .nop
    | 1 => .ldA16Sp (Machine.mkWord b2 b1)
    | 2 => .stop
    | 3 => .jrE8 b1
    | _ => .jrCcE8 (condOf (y - 4)) b1
  | 1 => if y % 2 = 0 then .ldRpD16 (pairOf p) (Machine.mkWord b2 b1) else .addHlRp (pairOf p)
  | 2 =>
    match y with
    | 0 => .ldBcA
    | 1 => .ldABc
    | 2 => .ldDeA
    | 3 => .ldADe
    | 4 => .ldHlIncA
    | 5 => .ldAHlInc
    | 6 => .ldHlDecA
    | _ => .ldAHlDec
  | 3 => if y % 2 = 0 then .incRp (pairOf p) else .decRp (pairOf p)
  | 4 =>
    match regOf? y with
    | some rd => .incR rd
    | none => .incHl
  | 5 =>
    match regOf? y with
    | some rd => .decR rd
    | none => .decHl
  | 6 =>
    match regOf? y with
    | some rd => .ldRD8 rd b1
    | none => .ldHlD8 b1
  | _ =>
    match y with
    | 0 => .rlca
    | 1 => .rrca
    | 2 => .rla
    | 3 => .rra
    | 4 => .daa
    | 5 => .cpl
    | 6 => .scf
    | _ => .ccf

/-- The rows `01yyyzzz` (30 R142). -/
def decodeX1 (y z : Nat) : Instr :=
  match regOf? y, regOf? z with
  | some rd, some rs => .ldRR rd rs
  | some rd, none => .ldRHl rd
  | none, some rs => .ldHlR rs
  | none, none => .halt

/-- The rows `10ooosss` (30 R142). -/
def decodeX2 (y z : Nat) : Instr :=
  match regOf? z with
  | some rs => aluRegInstr (aluOpOf y) rs
  | none => aluHlInstr (aluOpOf y)

/-- The rows `11yyyzzz` (30 R142), the prefix 0xCB (30 R135) and the undefined bytes (30 R144). -/
def decodeX3 (y z : Nat) (b1 b2 : Byte) : Instr :=
  let p := y / 2
  let a16 := Machine.mkWord b2 b1
  match z with
  | 0 =>
    match y with
    | 4 => .ldhA8A b1
    | 5 => .addSpE8 b1
    | 6 => .ldhAA8 b1
    | 7 => .ldHlSpE8 b1
    | _ => .retCc (condOf y)
  | 1 =>
    match y with
    | 1 => .ret
    | 3 => .reti
    | 5 => .jpHl
    | 7 => .ldSpHl
    | _ =>
      match stackPairOf? p with
      | some q => .popRp2 q
      | none => .popAf
  | 2 =>
    match y with
    | 4 => .ldhCA
    | 5 => .ldA16A a16
    | 6 => .ldhAC
    | 7 => .ldAA16 a16
    | _ => .jpCcA16 (condOf y) a16
  | 3 =>
    match y with
    | 0 => .jpA16 a16
    | 1 => decodeCb b1
    | 2 => .undefD3
    | 3 => .undefDB
    | 4 => .undefE3
    | 5 => .undefEB
    | 6 => .di
    | _ => .ei
  | 4 =>
    match y with
    | 4 => .undefE4
    | 5 => .undefEC
    | 6 => .undefF4
    | 7 => .undefFC
    | _ => .callCcA16 (condOf y) a16
  | 5 =>
    match y with
    | 1 => .callA16 a16
    | 3 => .undefDD
    | 5 => .undefED
    | 7 => .undefFD
    | _ =>
      match stackPairOf? p with
      | some q => .pushRp2 q
      | none => .pushAf
  | 6 => aluImmInstr (aluOpOf y) b1
  | _ => .rst (BitVec.ofNat 3 y)

/-- The instruction whose opcode byte is `op` and whose next two bytes are `b1` and `b2`; a byte beyond the
instruction's length is not looked at (30 R134, R142). -/
def decodeBytes (op b1 b2 : Byte) : Instr :=
  let y := Machine.sliceOf op 3 3
  let z := Machine.sliceOf op 0 3
  match Machine.sliceOf op 6 2 with
  | 0 => decodeX0 y z b1 b2
  | 1 => decodeX1 y z
  | 2 => decodeX2 y z
  | _ => decodeX3 y z b1 b2

/-- The length in bytes of an instruction, from its first byte alone (30 R131, R139). `STOP` is one byte long
to this machine: it faults before a second byte is read (46 R318, log 11). -/
def instrLength (op : Byte) : Nat :=
  let y := Machine.sliceOf op 3 3
  match Machine.sliceOf op 6 2, Machine.sliceOf op 0 3 with
  | 0, 0 => if y = 1 then 3 else if 3 ≤ y then 2 else 1
  | 0, 1 => if y % 2 = 0 then 3 else 1
  | 0, 6 => 2
  | 3, 0 => if 4 ≤ y then 2 else 1
  | 3, 2 => if y < 4 ∨ y % 2 = 1 then 3 else 1
  | 3, 3 => if y = 0 then 3 else if y = 1 then 2 else 1
  | 3, 4 => if y < 4 then 3 else 1
  | 3, 5 => if y = 1 then 3 else 1
  | 3, 6 => 2
  | _, _ => 1

/-- The first instruction of a list of bytes and the rest of the list. -/
def decode (bytes : List Byte) : Except DecodeError (Instr × List Byte) :=
  match bytes with
  | [] => .error .truncated
  | op :: rest =>
    match instrLength op, rest with
    | 1, rest => .ok (decodeBytes op 0 0, rest)
    | 2, b1 :: rest => .ok (decodeBytes op b1 0, rest)
    | 3, b1 :: b2 :: rest => .ok (decodeBytes op b1 b2, rest)
    | _, _ => .error .truncated

/-- What the decoder reads from an instruction whose bits are `w`, the first byte in bits 7 to 0; the bits from
`nbits` on are 0 (log 12). -/
def decodeTableWord (nbits w : Nat) : Option Instr :=
  let v := w % 2 ^ nbits
  match decode [BitVec.ofNat 8 v, BitVec.ofNat 8 (v / 256), BitVec.ofNat 8 (v / 65536)] with
  | .ok (i, _) => some i
  | .error _ => none

/-! ### The encoder -/

/-- The 3-bit operand index of a register (10 R27). -/
def Reg.code (r : Reg) : BitVec 3 :=
  match r with
  | .b => 0
  | .c => 1
  | .d => 2
  | .e => 3
  | .h => 4
  | .l => 5
  | .a => 7

/-- The index of a pair (10 R28). -/
def Pair.code (p : Pair) : BitVec 2 :=
  match p with
  | .bc => 0
  | .de => 1
  | .hl => 2
  | .sp => 3

/-- The index of a pushed or popped pair (10 R29). -/
def StackPair.code (p : StackPair) : BitVec 2 :=
  match p with
  | .bc => 0
  | .de => 1
  | .hl => 2

/-- The condition field (45 R286). -/
def Cond.code (cc : Cond) : BitVec 2 :=
  match cc with
  | .nz => 0
  | .z => 1
  | .nc => 2
  | .c => 3

/-- A byte from its slices `xx yyy zzz` (30 R132). -/
def xyz (x : BitVec 2) (y z : BitVec 3) : Byte := x ++ y ++ z

/-- A byte from its slices `xx pp q zzz` (30 R132). -/
def xpqz (x p : BitVec 2) (q : BitVec 1) (z : BitVec 3) : Byte := x ++ p ++ q ++ z

/-- A byte from its slices `xx k cc zzz`, the condition in bits 4 to 3 (30 R133). -/
def xccz (x : BitVec 2) (k : BitVec 1) (cc : Cond) (z : BitVec 3) : Byte := x ++ k ++ cc.code ++ z

/-- An opcode byte with a 16-bit operand, low byte first (30 R136). -/
def withWord (op : Byte) (w : Word) : List Byte := [op, Machine.lo8 w, Machine.hi8 w]

/-- The bytes of an instruction, from the patterns of 30 R142 and R143. -/
def encode (i : Instr) : List Byte :=
  match i with
  | .nop => [0x00]
  | .stop => [0x10]
  | .halt => [0x76]
  | .di => [0xF3]
  | .ei => [0xFB]
  | .prefixCb op2 => [0xCB, op2]
  | .undefD3 => [0xD3]
  | .undefDB => [0xDB]
  | .undefDD => [0xDD]
  | .undefE3 => [0xE3]
  | .undefE4 => [0xE4]
  | .undefEB => [0xEB]
  | .undefEC => [0xEC]
  | .undefED => [0xED]
  | .undefF4 => [0xF4]
  | .undefFC => [0xFC]
  | .undefFD => [0xFD]
  | .ldRR rd rs => [xyz 0b01 rd.code rs.code]
  | .ldRHl rd => [xyz 0b01 rd.code 0b110]
  | .ldHlR rs => [xyz 0b01 0b110 rs.code]
  | .ldRD8 rd n => [xyz 0b00 rd.code 0b110, n]
  | .ldHlD8 n => [0x36, n]
  | .ldABc => [0x0A]
  | .ldADe => [0x1A]
  | .ldBcA => [0x02]
  | .ldDeA => [0x12]
  | .ldAHlInc => [0x2A]
  | .ldAHlDec => [0x3A]
  | .ldHlIncA => [0x22]
  | .ldHlDecA => [0x32]
  | .ldhA8A o => [0xE0, o]
  | .ldhAA8 o => [0xF0, o]
  | .ldhCA => [0xE2]
  | .ldhAC => [0xF2]
  | .ldA16A a => withWord 0xEA a
  | .ldAA16 a => withWord 0xFA a
  | .ldRpD16 p w => withWord (xpqz 0b00 p.code 0 0b001) w
  | .ldA16Sp a => withWord 0x08 a
  | .ldSpHl => [0xF9]
  | .pushRp2 p => [xpqz 0b11 p.code 0 0b101]
  | .pushAf => [0xF5]
  | .popRp2 p => [xpqz 0b11 p.code 0 0b001]
  | .popAf => [0xF1]
  | .addAR rs => [xyz 0b10 0b000 rs.code]
  | .addAHl => [0x86]
  | .addAD8 n => [0xC6, n]
  | .adcAR rs => [xyz 0b10 0b001 rs.code]
  | .adcAHl => [0x8E]
  | .adcAD8 n => [0xCE, n]
  | .subR rs => [xyz 0b10 0b010 rs.code]
  | .subHl => [0x96]
  | .subD8 n => [0xD6, n]
  | .sbcAR rs => [xyz 0b10 0b011 rs.code]
  | .sbcAHl => [0x9E]
  | .sbcAD8 n => [0xDE, n]
  | .andR rs => [xyz 0b10 0b100 rs.code]
  | .andHl => [0xA6]
  | .andD8 n => [0xE6, n]
  | .xorR rs => [xyz 0b10 0b101 rs.code]
  | .xorHl => [0xAE]
  | .xorD8 n => [0xEE, n]
  | .orR rs => [xyz 0b10 0b110 rs.code]
  | .orHl => [0xB6]
  | .orD8 n => [0xF6, n]
  | .cpR rs => [xyz 0b10 0b111 rs.code]
  | .cpHl => [0xBE]
  | .cpD8 n => [0xFE, n]
  | .incR rd => [xyz 0b00 rd.code 0b100]
  | .incHl => [0x34]
  | .decR rd => [xyz 0b00 rd.code 0b101]
  | .decHl => [0x35]
  | .daa => [0x27]
  | .cpl => [0x2F]
  | .scf => [0x37]
  | .ccf => [0x3F]
  | .addHlRp p => [xpqz 0b00 p.code 1 0b001]
  | .incRp p => [xpqz 0b00 p.code 0 0b011]
  | .decRp p => [xpqz 0b00 p.code 1 0b011]
  | .addSpE8 e => [0xE8, e]
  | .ldHlSpE8 e => [0xF8, e]
  | .rlca => [0x07]
  | .rrca => [0x0F]
  | .rla => [0x17]
  | .rra => [0x1F]
  | .rlcR rs => [0xCB, xyz 0b00 0b000 rs.code]
  | .rlcHl => [0xCB, 0x06]
  | .rrcR rs => [0xCB, xyz 0b00 0b001 rs.code]
  | .rrcHl => [0xCB, 0x0E]
  | .rlR rs => [0xCB, xyz 0b00 0b010 rs.code]
  | .rlHl => [0xCB, 0x16]
  | .rrR rs => [0xCB, xyz 0b00 0b011 rs.code]
  | .rrHl => [0xCB, 0x1E]
  | .slaR rs => [0xCB, xyz 0b00 0b100 rs.code]
  | .slaHl => [0xCB, 0x26]
  | .sraR rs => [0xCB, xyz 0b00 0b101 rs.code]
  | .sraHl => [0xCB, 0x2E]
  | .swapR rs => [0xCB, xyz 0b00 0b110 rs.code]
  | .swapHl => [0xCB, 0x36]
  | .srlR rs => [0xCB, xyz 0b00 0b111 rs.code]
  | .srlHl => [0xCB, 0x3E]
  | .bitR b rs => [0xCB, xyz 0b01 b rs.code]
  | .bitHl b => [0xCB, xyz 0b01 b 0b110]
  | .resR b rs => [0xCB, xyz 0b10 b rs.code]
  | .resHl b => [0xCB, xyz 0b10 b 0b110]
  | .setR b rs => [0xCB, xyz 0b11 b rs.code]
  | .setHl b => [0xCB, xyz 0b11 b 0b110]
  | .jpA16 a => withWord 0xC3 a
  | .jpCcA16 cc a => withWord (xccz 0b11 0 cc 0b010) a
  | .jpHl => [0xE9]
  | .jrE8 e => [0x18, e]
  | .jrCcE8 cc e => [xccz 0b00 1 cc 0b000, e]
  | .callA16 a => withWord 0xCD a
  | .callCcA16 cc a => withWord (xccz 0b11 0 cc 0b100) a
  | .ret => [0xC9]
  | .retCc cc => [xccz 0b11 0 cc 0b000]
  | .reti => [0xD9]
  | .rst t => [xyz 0b11 t 0b111]

end Sys2Proof
end

