-- ==== Sys2Proof/Machine/Rotate.lean ====
section
/-! DEFINITION. The rotate, shift, swap and bit instructions (44).

`PC` is already past the bytes of the instruction (00 R14, log 9). Each meaning ends with its cycle count (00 R17). -/

namespace Sys2Proof.Machine

/-- `RLCA` (44 R250). -/
def execRlca (s : State) : Res State :=
  modifyReg .a (rotateA .rlc) 4 s

/-- `RRCA` (44 R251). -/
def execRrca (s : State) : Res State :=
  modifyReg .a (rotateA .rrc) 4 s

/-- `RLA` (44 R252). -/
def execRla (s : State) : Res State :=
  modifyReg .a (rotateA .rl) 4 s

/-- `RRA` (44 R253). -/
def execRra (s : State) : Res State :=
  modifyReg .a (rotateA .rr) 4 s

/-- `RLC r` (44 R254). -/
def execRlcR (rs : Reg) (s : State) : Res State :=
  modifyReg rs (rotate .rlc) 8 s

/-- `RLC (HL)` (44 R255). -/
def execRlcHl (s : State) : Res State :=
  modifyByte s.hl (rotate .rlc) 16 s

/-- `RRC r` (44 R256). -/
def execRrcR (rs : Reg) (s : State) : Res State :=
  modifyReg rs (rotate .rrc) 8 s

/-- `RRC (HL)` (44 R257). -/
def execRrcHl (s : State) : Res State :=
  modifyByte s.hl (rotate .rrc) 16 s

/-- `RL r` (44 R258). -/
def execRlR (rs : Reg) (s : State) : Res State :=
  modifyReg rs (rotate .rl) 8 s

/-- `RL (HL)` (44 R259). -/
def execRlHl (s : State) : Res State :=
  modifyByte s.hl (rotate .rl) 16 s

/-- `RR r` (44 R260). -/
def execRrR (rs : Reg) (s : State) : Res State :=
  modifyReg rs (rotate .rr) 8 s

/-- `RR (HL)` (44 R261). -/
def execRrHl (s : State) : Res State :=
  modifyByte s.hl (rotate .rr) 16 s

/-- `SLA r` (44 R262). -/
def execSlaR (rs : Reg) (s : State) : Res State :=
  modifyReg rs (rotate .sla) 8 s

/-- `SLA (HL)` (44 R263). -/
def execSlaHl (s : State) : Res State :=
  modifyByte s.hl (rotate .sla) 16 s

/-- `SRA r` (44 R264). -/
def execSraR (rs : Reg) (s : State) : Res State :=
  modifyReg rs (rotate .sra) 8 s

/-- `SRA (HL)` (44 R265). -/
def execSraHl (s : State) : Res State :=
  modifyByte s.hl (rotate .sra) 16 s

/-- `SWAP r` (44 R266): the nibbles of a byte exchanged (20 R117). -/
def execSwapR (rs : Reg) (s : State) : Res State :=
  modifyReg rs (rotate .swap) 8 s

/-- `SWAP (HL)` (44 R267): a read and then a write, and no synchronisation (20 R117). -/
def execSwapHl (s : State) : Res State :=
  modifyByte s.hl (rotate .swap) 16 s

/-- `SRL r` (44 R268). -/
def execSrlR (rs : Reg) (s : State) : Res State :=
  modifyReg rs (rotate .srl) 8 s

/-- `SRL (HL)` (44 R269). -/
def execSrlHl (s : State) : Res State :=
  modifyByte s.hl (rotate .srl) 16 s

/-- `BIT b,r` (44 R270). -/
def execBitR (b : BitVec 3) (rs : Reg) (s : State) : Res State :=
  finish 8 (s.setFlags (bitFlags b (s.reg rs) s.regs.f))

/-- `BIT b,(HL)` (44 R271). -/
def execBitHl (b : BitVec 3) (s : State) : Res State :=
  withByte s.hl s fun v t => finish 12 (t.setFlags (bitFlags b v t.regs.f))

/-- `RES b,r` (44 R272). -/
def execResR (b : BitVec 3) (rs : Reg) (s : State) : Res State :=
  finish 8 (s.setReg rs (resBit b (s.reg rs)))

/-- `RES b,(HL)` (44 R273). -/
def execResHl (b : BitVec 3) (s : State) : Res State :=
  modifyByte s.hl (fun v f => (resBit b v, f)) 16 s

/-- `SET b,r` (44 R274). -/
def execSetR (b : BitVec 3) (rs : Reg) (s : State) : Res State :=
  finish 8 (s.setReg rs (setBit b (s.reg rs)))

/-- `SET b,(HL)` (44 R275). -/
def execSetHl (b : BitVec 3) (s : State) : Res State :=
  modifyByte s.hl (fun v f => (setBit b v, f)) 16 s

end Sys2Proof.Machine
end

