-- ==== Sys2Proof/Machine/Prefix.lean ====
section
/-! DEFINITION. The prefix 0xCB (30 R134, R135): the row of the 0xCB page that the second byte selects runs. -/

namespace Sys2Proof.Machine

/-- The rows of group 0 of the 0xCB page: the transform `o` on a register, or on the byte at `HL` (44 R249). -/
def execCbRotate (o : RotOp) (target : Option Reg) (s : State) : Res State :=
  match o, target with
  | .rlc, some rs => execRlcR rs s
  | .rlc, none => execRlcHl s
  | .rrc, some rs => execRrcR rs s
  | .rrc, none => execRrcHl s
  | .rl, some rs => execRlR rs s
  | .rl, none => execRlHl s
  | .rr, some rs => execRrR rs s
  | .rr, none => execRrHl s
  | .sla, some rs => execSlaR rs s
  | .sla, none => execSlaHl s
  | .sra, some rs => execSraR rs s
  | .sra, none => execSraHl s
  | .swap, some rs => execSwapR rs s
  | .swap, none => execSwapHl s
  | .srl, some rs => execSrlR rs s
  | .srl, none => execSrlHl s

/-- The prefix byte 0xCB with the second byte `op2`: the group in bits 7 to 6, the operation or the bit number in bits 5
to 3, the operand in bits 2 to 0 (44 R249). -/
def execPrefixCb (op2 : Byte) (s : State) : Res State :=
  let y := sliceOf op2 3 3
  let b := BitVec.ofNat 3 y
  match sliceOf op2 6 2, regOf? (sliceOf op2 0 3) with
  | 0, target => execCbRotate (rotOpOf y) target s
  | 1, some rs => execBitR b rs s
  | 1, none => execBitHl b s
  | 2, some rs => execResR b rs s
  | 2, none => execResHl b s
  | _, some rs => execSetR b rs s
  | _, none => execSetHl b s

end Sys2Proof.Machine
end

