-- ==== Sys2Proof/Machine/System.lean ====
section
/-! DEFINITION. The system instructions and the undefined opcode bytes (46).

`PC` is already past the bytes of the instruction (00 R14, log 9). Each meaning ends with its cycle count (00 R17). -/

namespace Sys2Proof.Machine

/-- `NOP` (46 R315). -/
def execNop (s : State) : Res State :=
  finish 4 s

/-- `HALT` (46 R316). -/
def execHalt (s : State) : Res State :=
  finish 4 (s.withIrq { s.irq with halted := true })

/-- `DI` (46 R319): with `EI`, mutual exclusion against interrupt handlers (20 R117). -/
def execDi (s : State) : Res State :=
  finish 4 (s.withIrq { s.irq with ime := false, imeDelay := 0 })

/-- `EI` (46 R320; 20 R117). -/
def execEi (s : State) : Res State :=
  finish 4 (scheduleEnable s)

/-- `STOP` (46 R318): a fault, as the spec decides. -/
def execStop (s : State) : Res State :=
  raiseUnimplementedOpcode 0x10 s

/-- The undefined byte 0xD3 (46 R321). -/
def execUndefD3 (s : State) : Res State :=
  raiseUnimplementedOpcode 0xD3 s

/-- The undefined byte 0xDB (46 R321). -/
def execUndefDB (s : State) : Res State :=
  raiseUnimplementedOpcode 0xDB s

/-- The undefined byte 0xDD (46 R321). -/
def execUndefDD (s : State) : Res State :=
  raiseUnimplementedOpcode 0xDD s

/-- The undefined byte 0xE3 (46 R321). -/
def execUndefE3 (s : State) : Res State :=
  raiseUnimplementedOpcode 0xE3 s

/-- The undefined byte 0xE4 (46 R321). -/
def execUndefE4 (s : State) : Res State :=
  raiseUnimplementedOpcode 0xE4 s

/-- The undefined byte 0xEB (46 R321). -/
def execUndefEB (s : State) : Res State :=
  raiseUnimplementedOpcode 0xEB s

/-- The undefined byte 0xEC (46 R321). -/
def execUndefEC (s : State) : Res State :=
  raiseUnimplementedOpcode 0xEC s

/-- The undefined byte 0xED (46 R321). -/
def execUndefED (s : State) : Res State :=
  raiseUnimplementedOpcode 0xED s

/-- The undefined byte 0xF4 (46 R321). -/
def execUndefF4 (s : State) : Res State :=
  raiseUnimplementedOpcode 0xF4 s

/-- The undefined byte 0xFC (46 R321). -/
def execUndefFC (s : State) : Res State :=
  raiseUnimplementedOpcode 0xFC s

/-- The undefined byte 0xFD (46 R321). -/
def execUndefFD (s : State) : Res State :=
  raiseUnimplementedOpcode 0xFD s

end Sys2Proof.Machine
end

