-- ==== Sys2Proof/Machine/Dispatch.lean ====
section
/-! DEFINITION. What each instruction does, once its bytes are fetched: one arm per constructor. -/

namespace Sys2Proof.Machine

/-- The effect of an instruction on the state whose `PC` is past the instruction's bytes (log 9). -/
def exec (i : Instr) (s : State) : Host.Outcome State Fault Refusal :=
  match i with
  | .nop => Sys2Proof.Machine.execNop s
  | .stop => Sys2Proof.Machine.execStop s
  | .halt => Sys2Proof.Machine.execHalt s
  | .di => Sys2Proof.Machine.execDi s
  | .ei => Sys2Proof.Machine.execEi s
  | .prefixCb op2 => Sys2Proof.Machine.execPrefixCb op2 s
  | .undefD3 => Sys2Proof.Machine.execUndefD3 s
  | .undefDB => Sys2Proof.Machine.execUndefDB s
  | .undefDD => Sys2Proof.Machine.execUndefDD s
  | .undefE3 => Sys2Proof.Machine.execUndefE3 s
  | .undefE4 => Sys2Proof.Machine.execUndefE4 s
  | .undefEB => Sys2Proof.Machine.execUndefEB s
  | .undefEC => Sys2Proof.Machine.execUndefEC s
  | .undefED => Sys2Proof.Machine.execUndefED s
  | .undefF4 => Sys2Proof.Machine.execUndefF4 s
  | .undefFC => Sys2Proof.Machine.execUndefFC s
  | .undefFD => Sys2Proof.Machine.execUndefFD s
  | .ldRR rd rs => Sys2Proof.Machine.execLdRR rd rs s
  | .ldRHl rd => Sys2Proof.Machine.execLdRHl rd s
  | .ldHlR rs => Sys2Proof.Machine.execLdHlR rs s
  | .ldRD8 rd n => Sys2Proof.Machine.execLdRD8 rd n s
  | .ldHlD8 n => Sys2Proof.Machine.execLdHlD8 n s
  | .ldABc => Sys2Proof.Machine.execLdABc s
  | .ldADe => Sys2Proof.Machine.execLdADe s
  | .ldBcA => Sys2Proof.Machine.execLdBcA s
  | .ldDeA => Sys2Proof.Machine.execLdDeA s
  | .ldAHlInc => Sys2Proof.Machine.execLdAHlInc s
  | .ldAHlDec => Sys2Proof.Machine.execLdAHlDec s
  | .ldHlIncA => Sys2Proof.Machine.execLdHlIncA s
  | .ldHlDecA => Sys2Proof.Machine.execLdHlDecA s
  | .ldhA8A o => Sys2Proof.Machine.execLdhA8A o s
  | .ldhAA8 o => Sys2Proof.Machine.execLdhAA8 o s
  | .ldhCA => Sys2Proof.Machine.execLdhCA s
  | .ldhAC => Sys2Proof.Machine.execLdhAC s
  | .ldA16A a => Sys2Proof.Machine.execLdA16A a s
  | .ldAA16 a => Sys2Proof.Machine.execLdAA16 a s
  | .ldRpD16 p w => Sys2Proof.Machine.execLdRpD16 p w s
  | .ldA16Sp a => Sys2Proof.Machine.execLdA16Sp a s
  | .ldSpHl => Sys2Proof.Machine.execLdSpHl s
  | .pushRp2 p => Sys2Proof.Machine.execPushRp2 p s
  | .pushAf => Sys2Proof.Machine.execPushAf s
  | .popRp2 p => Sys2Proof.Machine.execPopRp2 p s
  | .popAf => Sys2Proof.Machine.execPopAf s
  | .addAR rs => Sys2Proof.Machine.execAddAR rs s
  | .addAHl => Sys2Proof.Machine.execAddAHl s
  | .addAD8 n => Sys2Proof.Machine.execAddAD8 n s
  | .adcAR rs => Sys2Proof.Machine.execAdcAR rs s
  | .adcAHl => Sys2Proof.Machine.execAdcAHl s
  | .adcAD8 n => Sys2Proof.Machine.execAdcAD8 n s
  | .subR rs => Sys2Proof.Machine.execSubR rs s
  | .subHl => Sys2Proof.Machine.execSubHl s
  | .subD8 n => Sys2Proof.Machine.execSubD8 n s
  | .sbcAR rs => Sys2Proof.Machine.execSbcAR rs s
  | .sbcAHl => Sys2Proof.Machine.execSbcAHl s
  | .sbcAD8 n => Sys2Proof.Machine.execSbcAD8 n s
  | .andR rs => Sys2Proof.Machine.execAndR rs s
  | .andHl => Sys2Proof.Machine.execAndHl s
  | .andD8 n => Sys2Proof.Machine.execAndD8 n s
  | .xorR rs => Sys2Proof.Machine.execXorR rs s
  | .xorHl => Sys2Proof.Machine.execXorHl s
  | .xorD8 n => Sys2Proof.Machine.execXorD8 n s
  | .orR rs => Sys2Proof.Machine.execOrR rs s
  | .orHl => Sys2Proof.Machine.execOrHl s
  | .orD8 n => Sys2Proof.Machine.execOrD8 n s
  | .cpR rs => Sys2Proof.Machine.execCpR rs s
  | .cpHl => Sys2Proof.Machine.execCpHl s
  | .cpD8 n => Sys2Proof.Machine.execCpD8 n s
  | .incR rd => Sys2Proof.Machine.execIncR rd s
  | .incHl => Sys2Proof.Machine.execIncHl s
  | .decR rd => Sys2Proof.Machine.execDecR rd s
  | .decHl => Sys2Proof.Machine.execDecHl s
  | .daa => Sys2Proof.Machine.execDaa s
  | .cpl => Sys2Proof.Machine.execCpl s
  | .scf => Sys2Proof.Machine.execScf s
  | .ccf => Sys2Proof.Machine.execCcf s
  | .addHlRp p => Sys2Proof.Machine.execAddHlRp p s
  | .incRp p => Sys2Proof.Machine.execIncRp p s
  | .decRp p => Sys2Proof.Machine.execDecRp p s
  | .addSpE8 e => Sys2Proof.Machine.execAddSpE8 e s
  | .ldHlSpE8 e => Sys2Proof.Machine.execLdHlSpE8 e s
  | .rlca => Sys2Proof.Machine.execRlca s
  | .rrca => Sys2Proof.Machine.execRrca s
  | .rla => Sys2Proof.Machine.execRla s
  | .rra => Sys2Proof.Machine.execRra s
  | .rlcR rs => Sys2Proof.Machine.execRlcR rs s
  | .rlcHl => Sys2Proof.Machine.execRlcHl s
  | .rrcR rs => Sys2Proof.Machine.execRrcR rs s
  | .rrcHl => Sys2Proof.Machine.execRrcHl s
  | .rlR rs => Sys2Proof.Machine.execRlR rs s
  | .rlHl => Sys2Proof.Machine.execRlHl s
  | .rrR rs => Sys2Proof.Machine.execRrR rs s
  | .rrHl => Sys2Proof.Machine.execRrHl s
  | .slaR rs => Sys2Proof.Machine.execSlaR rs s
  | .slaHl => Sys2Proof.Machine.execSlaHl s
  | .sraR rs => Sys2Proof.Machine.execSraR rs s
  | .sraHl => Sys2Proof.Machine.execSraHl s
  | .swapR rs => Sys2Proof.Machine.execSwapR rs s
  | .swapHl => Sys2Proof.Machine.execSwapHl s
  | .srlR rs => Sys2Proof.Machine.execSrlR rs s
  | .srlHl => Sys2Proof.Machine.execSrlHl s
  | .bitR b rs => Sys2Proof.Machine.execBitR b rs s
  | .bitHl b => Sys2Proof.Machine.execBitHl b s
  | .resR b rs => Sys2Proof.Machine.execResR b rs s
  | .resHl b => Sys2Proof.Machine.execResHl b s
  | .setR b rs => Sys2Proof.Machine.execSetR b rs s
  | .setHl b => Sys2Proof.Machine.execSetHl b s
  | .jpA16 a => Sys2Proof.Machine.execJpA16 a s
  | .jpCcA16 cc a => Sys2Proof.Machine.execJpCcA16 cc a s
  | .jpHl => Sys2Proof.Machine.execJpHl s
  | .jrE8 e => Sys2Proof.Machine.execJrE8 e s
  | .jrCcE8 cc e => Sys2Proof.Machine.execJrCcE8 cc e s
  | .callA16 a => Sys2Proof.Machine.execCallA16 a s
  | .callCcA16 cc a => Sys2Proof.Machine.execCallCcA16 cc a s
  | .ret => Sys2Proof.Machine.execRet s
  | .retCc cc => Sys2Proof.Machine.execRetCc cc s
  | .reti => Sys2Proof.Machine.execReti s
  | .rst t => Sys2Proof.Machine.execRst t s

end Sys2Proof.Machine
end

