-- ==== Sys2Proof/Machine/Fetch.lean ====
section
/-! DEFINITION. Fetching an instruction (00 R14; 30 R134), and placing one where the next step fetches it. -/

namespace Sys2Proof.Machine

/-- Fetch the bytes of the instruction at `PC`, one at a time through the router, and decode them; `PC` ends past
them. A byte beyond the instruction's length is not fetched (30 R131). -/
def fetchInstr (s : State) : Res (Instr × State) :=
  andThen (fetch8 s) fun op =>
    if instrLength op.1 = 1 then .next (decodeBytes op.1 0 0, op.2)
    else
      andThen (fetch8 op.2) fun b1 =>
        if instrLength op.1 = 2 then .next (decodeBytes op.1 b1.1 0, b1.2)
        else andThen (fetch8 b1.2) fun b2 => .next (decodeBytes op.1 b1.1 b2.1, b2.2)

/-- Whether a byte stored in memory for this address is what a fetch from it reads. -/
def isPlain (s : State) (a : Addr) : Bool :=
  match region a with
  | .rom => !isOpen s.cfg .cart
  | .vram => !blocked s
  | .wram => true
  | .echo => true
  | .oam => !blocked s
  | .hram => true
  | _ => false

/-- The storage address of a plain address: a mirror address is stored at its working-RAM address (20 R89). -/
def storageAddr (a : Addr) : Nat := if region a = .echo then a.toNat - 0x2000 else a.toNat

/-- Put three bytes at an address and the two after it, as a launch does (70 R481). -/
def placeBytes (a : Addr) (b0 b1 b2 : Byte) (s : State) : State :=
  s.withMem (((s.mem.set (storageAddr a) b0).set (storageAddr (a + 1)) b1).set (storageAddr (a + 2)) b2)

/-- Where the three bytes of the next instruction can stand: at `PC`, or at 0xC000 when a byte there would not be
fetched from memory. -/
def fetchSite (s : State) : Addr :=
  let pc := s.regs.pc
  if isPlain s pc && isPlain s (pc + 1) && isPlain s (pc + 2) then pc else 0xC000

/-- What stands between the state and its next fetch is taken away: a halt, and an interrupt that the next step's check
would dispatch. -/
def readyToFetch (s : State) : State :=
  let q := { s.irq with halted := false }
  if (q.ime || q.imeDelay == 1) && (pending q != 0 || s.cfg.hostIrq) then
    s.withIrq { q with ime := false, imeDelay := 0 }
  else s.withIrq q

/-- The state with the instruction whose bits are `w` stored where the next step fetches it (log 13). -/
def placeInstr (s : State) (nbits w : Nat) : State :=
  let v := w % 2 ^ nbits
  let a := fetchSite s
  placeBytes a (BitVec.ofNat 8 v) (BitVec.ofNat 8 (v / 256)) (BitVec.ofNat 8 (v / 65536))
    ((readyToFetch s).setPc a)

end Sys2Proof.Machine
end

