-- ==== Sys2Proof/Machine/Compositor.lean ====
section
/-! DEFINITION. The scanline compositor (60 R420 to R432). It reads VRAM and OAM storage directly, not through the
router (20 R121). The spec's loops over the 160 columns treat each column by itself, so a layer is a function from a
column to its colour number and shade (log 17). -/

namespace Sys2Proof.Machine

/-- The working values of one column: `shade[x]` and `bgcol[x]` (60 R420). -/
structure Column where
  shade : Shade
  bgcol : Shade
  deriving DecidableEq, Repr

/-- The shade a palette register gives a colour number (60 R424). -/
def paletteShade (palette : Byte) (colour : Shade) : Shade := (palette >>> (2 * colour.toNat)).extractLsb' 0 2

/-- `TileRowPixel(base, row, bit)`: the colour number of one pixel of a tile (60 R423). -/
def tileRowPixel (m : Memory) (base row bit : Nat) : Shade :=
  let lo := m.get (base + 2 * row)
  let hi := m.get (base + 2 * row + 1)
  BitVec.ofBool (bitOf hi bit) ++ BitVec.ofBool (bitOf lo bit)

/-- The address of a background or window tile: unsigned from 0x8000 when `LCDC[4]` is 1, signed around 0x9000 when
it is 0 (60 R422). -/
def tileBase (lcdc idx : Byte) : Nat :=
  if bitOf lcdc 4 then 0x8000 + idx.toNat * 16 else ((0x9000 : Int) + idx.toInt * 16).toNat

/-- `TilePixel(map, px, py)` (60 R422). -/
def tilePixel (m : Memory) (lcdc : Byte) (map px py : Nat) : Shade :=
  let idx := m.get (map + py / 8 * 32 + px / 8)
  tileRowPixel m (tileBase lcdc idx) (py % 8) (7 - px % 8)

/-- A tile map's base by its select bit (60 R421, R425). -/
def mapBase (select : Bool) : Nat := if select then 0x9C00 else 0x9800

/-- `DrawBackground` at one column, or colour number 0 and shade 0 with the background disabled (60 R421). -/
def backgroundColumn (s : State) (ly x : Nat) : Column :=
  let p := s.ppu
  if bitOf p.lcdc 0 then
    let col := tilePixel s.mem p.lcdc (mapBase (bitOf p.lcdc 3)) ((x + p.scx.toNat) % 256) ((ly + p.scy.toNat) % 256)
    { shade := paletteShade p.bgp col, bgcol := col }
  else { shade := 0, bgcol := 0 }

/-- `WIN_X0(WX)`, the first screen column of the window (60 R425). -/
def windowX0 (w : WinX0) (wx : Byte) : Int :=
  match w with
  | .minus7 => (wx.toNat : Int) - 7
  | .plus7 => (wx.toNat : Int) + 7

/-- `DrawWindow` at one column: over the background where the window is enabled and covers it (60 R420, R425). -/
def windowColumn (s : State) (ly x : Nat) (below : Column) : Column :=
  let p := s.ppu
  let x0 := windowX0 s.cfg.winX0 p.wx
  if bitOf p.lcdc 5 = true ∧ p.wy.toNat ≤ ly ∧ x0 ≤ (x : Int) then
    let col := tilePixel s.mem p.lcdc (mapBase (bitOf p.lcdc 6)) ((x : Int) - x0).toNat (ly - p.wy.toNat)
    { shade := paletteShade p.bgp col, bgcol := col }
  else below

/-- A sprite entry of OAM (10 R61). -/
structure Sprite where
  index : Nat
  y : Nat
  x : Nat
  tile : Byte
  flags : Byte
  deriving DecidableEq, Repr

/-- Entry `i` of OAM: the bytes Y, X, tile index, flags (10 R61). -/
def oamEntry (m : Memory) (i : Nat) : Sprite :=
  { index := i, y := (m.get (0xFE00 + 4 * i)).toNat, x := (m.get (0xFE00 + 4 * i + 1)).toNat,
    tile := m.get (0xFE00 + 4 * i + 2), flags := m.get (0xFE00 + 4 * i + 3) }

/-- The sprite height by `LCDC[2]` (60 R426). -/
def spriteHeight (lcdc : Byte) : Nat := if bitOf lcdc 2 then 16 else 8

/-- Whether an entry covers the line and has a visible column (60 R426). -/
def spriteOnLine (h ly : Nat) (sp : Sprite) : Bool :=
  decide (sp.y ≤ ly + 16) && decide (ly + 16 < sp.y + h) && decide (1 ≤ sp.x) && decide (sp.x ≤ 167)

/-- `SelectSprites(ly)`: the first ten matches in OAM order (60 R426). -/
def selectSprites (s : State) (ly : Nat) : List Sprite :=
  (((List.range 40).map (oamEntry s.mem)).filter (spriteOnLine (spriteHeight s.ppu.lcdc) ly)).take 10

/-- Whether one sprite is drawn before another: smaller X first, for equal X the larger OAM index first (60 R427). -/
def drawnBefore (u v : Sprite) : Bool := decide (u.x < v.x) || (u.x == v.x && decide (v.index < u.index))

/-- Put a sprite at its place in a list that is in drawing order. -/
def insertForDraw (sp : Sprite) (l : List Sprite) : List Sprite :=
  match l with
  | [] => [sp]
  | q :: rest => if drawnBefore sp q then sp :: q :: rest else q :: insertForDraw sp rest

/-- `SortForDraw` (60 R427). -/
def sortForDraw (l : List Sprite) : List Sprite :=
  match l with
  | [] => []
  | sp :: rest => insertForDraw sp (sortForDraw rest)

/-- The colour number of a sprite at screen column `x` of line `ly`, when the sprite covers that column
(60 R428, R429). -/
def spriteColour (s : State) (ly x : Nat) (sp : Sprite) : Shade :=
  let h := spriteHeight s.ppu.lcdc
  let row0 := ly + 16 - sp.y
  let row := if bitOf sp.flags 6 then h - 1 - row0 else row0
  let tile := if h = 16 then (sp.tile &&& 0xFE).toNat ||| row / 8 else sp.tile.toNat
  let k := x + 8 - sp.x
  let bit := if bitOf sp.flags 5 then k else 7 - k
  tileRowPixel s.mem (0x8000 + tile * 16) (row % 8) bit

/-- Drawing one sprite at one column: skipped where it does not cover the column, where its colour number is 0, or
where it stands behind a background pixel that is not 0 (60 R428). -/
def spriteColumn (s : State) (ly x : Nat) (below : Column) (sp : Sprite) : Column :=
  if sp.x ≤ x + 8 ∧ x + 8 < sp.x + 8 then
    let col := spriteColour s ly x sp
    if col = 0 ∨ (bitOf sp.flags 7 = true ∧ below.bgcol ≠ 0) then below
    else { below with shade := paletteShade (if bitOf sp.flags 4 then s.ppu.obp1 else s.ppu.obp0) col }
  else below

/-- The sprites to draw on a line, in drawing order; none with `LCDC[1] = 0` (60 R420). -/
def spritesToDraw (s : State) (ly : Nat) : List Sprite :=
  if bitOf s.ppu.lcdc 1 then sortForDraw (selectSprites s ly) else []

/-- The shade of column `x` of line `ly`: background, window, then the given sprites (60 R420, R430). -/
def columnShade (s : State) (ly : Nat) (sprites : List Sprite) (x : Nat) : Shade :=
  (sprites.foldl (spriteColumn s ly x) (windowColumn s ly x (backgroundColumn s ly x))).shade

/-- `SHADE_RGB` (60 R432). -/
def shadeRgb (t : ShadeRgb) (c : Shade) : Rgb :=
  match c.toNat with
  | 0 => t.shade0
  | 1 => t.shade1
  | 2 => t.shade2
  | _ => t.shade3

/-- The 160 pixels of line `ly` (60 R420, R432). -/
def composeLine (s : State) (ly : Nat) : List Rgb :=
  let sprites := spritesToDraw s ly
  (List.range 160).map fun x => shadeRgb s.cfg.shadeRgb (columnShade s ly sprites x)

/-- `RenderLine(ly)` (60 R420): writes line `ly` of `FB` and nothing else. -/
def renderLine (s : State) (ly : Nat) : State := s.withFb (s.fb.setLine ly (composeLine s ly))

end Sys2Proof.Machine
end

