-- ==== Sys2Proof/Machine/Timer.lean ====
section
/-! DEFINITION. The timer's advance (60 R381 to R383). -/

namespace Sys2Proof.Machine

/-- `Period(s)` in cycles (60 R382). -/
def timerPeriod (tac : BitVec 3) : Nat :=
  match tac.toNat % 4 with
  | 0 => 1024
  | 1 => 16
  | 2 => 64
  | _ => 128

/-- One increment of `TIMA`: on wrap past 0xFF, the reload and the request (60 R381, R383). -/
def timaTick (t : Timer) : Timer :=
  if t.tima = 0xFF then { t with tima := t.tma, reqTimer := true } else { t with tima := t.tima + 1 }

/-- `k` increments of `TIMA`. -/
def timaTicks (k : Nat) (t : Timer) : Timer :=
  match k with
  | 0 => t
  | k + 1 => timaTicks k (timaTick t)

/-- The divider part of `TimerRun` (60 R381): the loop "while div_acc >= 256" turns `div_acc / 256` times. -/
def runDivider (n : Nat) (t : Timer) : Timer :=
  let acc := t.divAcc + n
  { t with div := t.div + BitVec.ofNat 8 (acc / 256), divAcc := acc % 256 }

/-- The counter part of `TimerRun` (60 R381): the loop "while tima_acc >= period" turns `tima_acc / period` times, one
increment a turn. -/
def runCounter (n : Nat) (t : Timer) : Timer :=
  if t.tac.getLsbD 2 then
    let acc := t.timaAcc + n
    let period := timerPeriod t.tac
    timaTicks (acc / period) { t with timaAcc := acc % period }
  else t

/-- `TimerRun(n)` (60 R381). -/
def timerRun (n : Nat) (t : Timer) : Timer := runCounter n (runDivider n t)

end Sys2Proof.Machine
end

