-- ==== Sys2Proof/Machine/Ppu.lean ====
section
/-! DEFINITION. The PPU state machine (60 R400 to R408). -/

namespace Sys2Proof.Machine

/-- A mode entry: the mode, and an LCD-STAT request if the arm bit is set (60 R407). -/
def enterMode (m : PpuMode) (armBit : Nat) (p : Ppu) : Ppu :=
  { p with mode := m, reqStat := p.reqStat || p.statArm.getLsbD armBit }

/-- The registers' part of `PpuTick()` (60 R401). -/
def advanceDot (p0 : Ppu) : Ppu :=
  let p := { p0 with dot := p0.dot + 1 }
  if p.ly < 144 then
    if p.dot = 80 then { p with mode := .pixelTransfer }
    else if p.dot = 252 then enterMode .hblank 0 p
    else if p.dot = 456 then
      let q := { p with dot := 0, ly := p.ly + 1 }
      if q.ly = 144 then compareLine (enterMode .vblank 1 { q with reqVblank := true })
      else compareLine (enterMode .oamScan 2 q)
    else p
  else if p.dot = 456 then
    let q := { p with dot := 0, ly := p.ly + 1 }
    if q.ly = 154 then compareLine (enterMode .oamScan 2 { q with ly := 0 }) else compareLine q
  else p

/-- `PpuTick()` (60 R401): the entry into Pixel-Transfer of a visible line renders it. -/
def ppuTick (s : State) : State :=
  let s1 := s.withPpu (advanceDot s.ppu)
  if s.ppu.ly < 144 ∧ s.ppu.dot + 1 = 80 then renderLine s1 s.ppu.ly else s1

/-- `n` times `PpuTick()`. -/
def ppuTicks (n : Nat) (s : State) : State :=
  match n with
  | 0 => s
  | n + 1 => ppuTicks n (ppuTick s)

/-- `PpuRun(n)` (60 R402): nothing moves with the LCD off. -/
def ppuRun (n : Nat) (s : State) : State := if bitOf s.ppu.lcdc 7 then ppuTicks n s else s

/-- `BusRun(c)` (60 R341): the PPU, the timer, the latch. -/
def busRun (c : Nat) (s : State) : State :=
  let s1 := ppuRun c s
  latchRequests (s1.withTimer (timerRun c s1.timer))

end Sys2Proof.Machine
end

