-- ==== Sys2Proof/Machine/StepParts.lean ====
section
/-! DEFINITION. The three parts of a step (60 R340): its start, what the CPU does, and the devices' advance. -/

namespace Sys2Proof.Machine

/-- The start of a step: what the host requested since the last one (60 R352), and the advance of the pending-enable
counter (60 R343). -/
def startStep (s : State) : State :=
  let s1 := hostRequests s
  s1.withIrq (tickImeDelay s1.irq)

/-- `Execute()` (30 R134): fetch one instruction and run it. -/
def execute (s : State) : Res State := andThen (fetchInstr s) fun r => exec r.1 r.2

/-- The CPU's part of a step (60 R340): an interrupt dispatch of 16 cycles (60 R348), or a halted period of 4 (60
R350), or one instruction. -/
def cpuStep (s : State) : Res State :=
  andThen (interruptCheck s) fun r =>
    if r.1 then .next (r.2.withCycles 16)
    else if r.2.irq.halted then .next (r.2.withCycles 4)
    else execute r.2

/-- The end of a step: the count the CPU's part left in `cycles` drives the devices (60 R341). -/
def finishStep (s : State) : State := busRun s.cycles s

end Sys2Proof.Machine
end

