-- ==== Sys2Proof/Machine/Step.lean ====
section
/-! DEFINITION. The step (60 R340), made of the parts in Machine/StepParts.lean. -/

namespace Sys2Proof.Machine

/-- `Step()` (60 R340). -/
def step (s : State) : Host.Outcome State Fault Refusal :=
  andThen (cpuStep (startStep s)) fun t => .next (finishStep t)

/-- The state with an instruction stored where the next step fetches it (log 13). -/
def State.withFetchWord (s : State) (nbits w : Nat) : State := placeInstr s nbits w

end Sys2Proof.Machine
end

