-- ==== Sys2Proof/Safety.lean ====
section
/-! DEFINITION. What claims are stated in: which accesses fault, what an instruction leaves alone, and the invariant
of a run. -/

namespace Sys2Proof.Machine

/-! ### Accesses that do not fault -/

/-- A read of the address does not fault (20 R105). -/
abbrev Readable (s : State) (a : Addr) : Prop := tolerates s.cfg a = true

/-- A write of the byte to the address does not fault: the address answers, and so does every source address of the
copy that a write to 0xFF46 starts (20 R105, R106). -/
abbrev Storable (s : State) (a : Addr) (v : Byte) : Prop :=
  tolerates s.cfg a = true ∧ (a = 0xFF46#16 → ∀ i < 160, tolerates s.cfg (mkWord v 0 + BitVec.ofNat 16 i) = true)

/-- A write of the word, low byte first, does not fault (20 R111). -/
abbrev StorableWord (s : State) (a : Addr) (w : Word) : Prop := Storable s a (lo8 w) ∧ Storable s (a + 1) (hi8 w)

/-! ### What an access touches -/

/-- A read of the address gives no free value and leaves nothing behind: it is neither a port of an open device nor
`TAC`, `IF` or `STAT` (20 R97, 10 R46). -/
def steady (cfg : Config) (a : Addr) : Bool :=
  match region a with
  | .rom => !isOpen cfg .cart
  | .cartRam => !isOpen cfg .cart
  | .io =>
    match ioReg a with
    | .joyp => !isOpen cfg .joypad
    | .serial => !isOpen cfg .serial
    | .apu => !isOpen cfg .apu
    | .tac => false
    | .iflag => false
    | .stat => false
    | _ => true
  | _ => true

/-- Whether a write to `a` may change the byte stored for the storage address `k`: its own (20 R89 for the mirror), and
for 0xFF46 the 160 bytes of OAM (20 R106). -/
def overwrites (a : Addr) (k : Nat) : Bool :=
  k == storageAddr a || (a == 0xFF46#16 && decide (0xFE00 ≤ k) && decide (k < 0xFEA0))

/-- Whether a write to `a` may change what a read of `b` gives: the same storage byte; another port of the same open
device; and the side effects of 20 R96: `LCDC` resets `LY` and the mode in `STAT` and lifts or brings blocking, `LYC`
changes the line-compare flag of `STAT`, and 0xFF46 fills OAM and reads its source. -/
def touches (cfg : Config) (a b : Addr) : Bool :=
  storageAddr a == storageAddr b ||
  match region a with
  | .rom => isOpen cfg .cart && (region b == .rom || region b == .cartRam)
  | .cartRam => isOpen cfg .cart && (region b == .rom || region b == .cartRam)
  | .io =>
    match ioReg a with
    | .serial => isOpen cfg .serial && (region b == .io && ioReg b == .serial)
    | .apu => isOpen cfg .apu && (region b == .io && ioReg b == .apu)
    | .lcdc => region b == .vram || region b == .oam || b == 0xFF41#16 || b == 0xFF44#16
    | .lyc => b == 0xFF41#16
    | .dma => region b == .oam || !steady cfg b
    | _ => false
  | _ => false

/-- Plain RAM: working RAM, its mirror and high RAM (20 R88, R89, R95). -/
def isRam (a : Addr) : Bool := region a == .wram || region a == .echo || region a == .hram

/-! ### Ports -/

/-- What a read of the port of the joypad, the serial unit or the sound unit gives: from a byte store the byte held, and
nothing changes; from a device left open a free byte of its history, which the read enters (20 R101 to R103, log 7). -/
def PortReads (dev : Device) (model : PortModel) (a : Addr) (s : State) : Prop :=
  match model with
  | .store => memRead a s = .next (s.mem.get a.toNat, s)
  | .any =>
    memRead a s = .next (freePortByte dev (portHistory dev s) a, { s with portLog := (dev, .read a) :: s.portLog })

/-- What a write to such a port does: a byte store holds the byte; a device left open takes it into its history. -/
def PortWrites (dev : Device) (model : PortModel) (a : Addr) (v : Byte) (s : State) : Prop :=
  match model with
  | .store => memWrite a v s = .next { s with mem := s.mem.set a.toNat v }
  | .any => memWrite a v s = .next { s with portLog := (dev, .write a v) :: s.portLog }

/-! ### Frames -/

/-- Nothing but the register file and the cycle count of the step differs, and so every byte of memory reads as
before. -/
def RegsOnly (s t : State) : Prop :=
  t = { s with regs := t.regs, cycles := t.cycles } ∧ ∀ b, peek b t = peek b s

/-- An instruction that reads the listed addresses and writes none: beyond the register file and the cycle count only
the model's record of free draws and open devices may differ, and that only if one of the reads is not steady; every
byte of memory reads as before, but for the free values. -/
def ReadsOnly (reads : List Addr) (s t : State) : Prop :=
  t = { s with regs := t.regs, cycles := t.cycles, draws := t.draws, portLog := t.portLog } ∧
  ((∀ a ∈ reads, steady s.cfg a = true) → t.draws = s.draws ∧ t.portLog = s.portLog) ∧
  ∀ b, (steady s.cfg b = true ∨ ∀ a ∈ reads, steady s.cfg a = true) → peek b t = peek b s

/-- What an instruction that reads and writes the listed addresses leaves alone, the register file and the cycle count
apart: the parameters, the pixel buffer, the interrupt enables and the halt; the hidden parts of the timer and the PPU,
but for the side effects of 20 R96; every byte stored that no write overwrites; and what a read gives of every byte that
no write touches, but for the free values. -/
def MemFrame (reads writes : List Addr) (s t : State) : Prop :=
  t.cfg = s.cfg ∧ t.fb = s.fb ∧
  t.irq.ime = s.irq.ime ∧ t.irq.imeDelay = s.irq.imeDelay ∧ t.irq.halted = s.irq.halted ∧
  (0xFF0F#16 ∉ writes → t.irq.request = s.irq.request) ∧
  t.timer.timaAcc = s.timer.timaAcc ∧ t.timer.reqTimer = s.timer.reqTimer ∧
  (0xFF04#16 ∉ writes → t.timer.divAcc = s.timer.divAcc) ∧
  (0xFF07#16 ∉ writes → t.timer.tac = s.timer.tac) ∧
  t.ppu.reqVblank = s.ppu.reqVblank ∧
  (0xFF45#16 ∉ writes → t.ppu.reqStat = s.ppu.reqStat) ∧
  (0xFF41#16 ∉ writes → t.ppu.statArm = s.ppu.statArm) ∧
  (0xFF40#16 ∉ writes → t.ppu.mode = s.ppu.mode ∧ t.ppu.dot = s.ppu.dot ∧ t.ppu.ly = s.ppu.ly) ∧
  (∀ k, (∀ a ∈ writes, overwrites a k = false) → t.mem.get k = s.mem.get k) ∧
  ∀ b, (∀ a ∈ writes, touches s.cfg a b = false) → (steady s.cfg b = true ∨ ∀ a ∈ reads, steady s.cfg a = true) →
    peek b t = peek b s

/-- The registers of the 3-bit index that are not listed, `SP` and `PC` are as before; the flags are not spoken of. -/
def SameBut (written : List Reg) (g h : Regs) : Prop :=
  (∀ r, r ∉ written → getReg r h = getReg r g) ∧ h.sp = g.sp ∧ h.pc = g.pc

/-- Where the two bytes of a word lie in plain RAM, they are read there, the low byte first (41 R193, 20 R112). -/
def HoldsWord (a : Addr) (w : Word) (t : State) : Prop :=
  isRam a = true → isRam (a + 1) = true → peek a t = lo8 w ∧ peek (a + 1) t = hi8 w

/-! ### The shapes of the instructions -/

/-- An instruction that changes registers only: it completes in `cycles` in every state and relates the register file
before and after by `post`. -/
def ChangesRegisters (i : Instr) (cycles : Nat) (post : Regs → Regs → Prop) : Prop :=
  ∀ s, ∃ t, exec i s = .next t ∧ RegsOnly s t ∧ t.cycles = cycles ∧ post s.regs t.regs

/-- An instruction that reads one byte, at `addr`: where the read does not fault it completes in `cycles`, writes no
memory, and relates the register file before, the byte and the register file after by `post`. -/
def LoadsByte (i : Instr) (addr : State → Addr) (cycles : Nat) (post : Regs → Byte → Regs → Prop) : Prop :=
  ∀ s, Readable s (addr s) →
    ∃ t, exec i s = .next t ∧ ReadsOnly [addr s] s t ∧ t.cycles = cycles ∧ post s.regs (peek (addr s) s) t.regs

/-- An instruction that stores the byte `value` at `addr`: where the write does not fault it completes in `cycles`, with
the state of that router write and the register file `after`. -/
def StoresByte (i : Instr) (addr : State → Addr) (value : State → Byte) (cycles : Nat) (after : Regs → Regs) : Prop :=
  ∀ s, Storable s (addr s) (value s) →
    ∃ u t, memWrite (addr s) (value s) s = .next u ∧ exec i s = .next t ∧
      t = { u with regs := after s.regs, cycles := cycles } ∧ MemFrame [] [addr s] s t

/-- An instruction that pushes `word`: where the two byte writes do not fault it completes in `cycles`, with the state
of that word write below the old `SP` and the register file `after`. -/
def PushesWord (i : Instr) (word : State → Word) (cycles : Nat) (after : Regs → Regs) : Prop :=
  ∀ s, StorableWord s (s.regs.sp - 2) (word s) →
    ∃ u t, memWriteWord (s.regs.sp - 2) (word s) (s.setSp (s.regs.sp - 2)) = .next u ∧ exec i s = .next t ∧
      t = { u with regs := after s.regs, cycles := cycles } ∧
      MemFrame [] [s.regs.sp - 2, s.regs.sp - 2 + 1] s t ∧ HoldsWord (s.regs.sp - 2) (word s) t

/-- An instruction that pops a word: where the two byte reads do not fault it completes in `cycles`, writes no memory,
changes the interrupt state as `irq` says, and relates the register file before, the low byte, the high byte and the
register file after by `post`. -/
def PopsWord (i : Instr) (cycles : Nat) (irq : Irq → Irq) (post : Regs → Byte → Byte → Regs → Prop) : Prop :=
  ∀ s, Readable s s.regs.sp → Readable s (s.regs.sp + 1) →
    ∃ t, exec i s = .next t ∧ t.cycles = cycles ∧
      ReadsOnly [s.regs.sp, s.regs.sp + 1] (s.withIrq (irq s.irq)) t ∧
      post s.regs (peek s.regs.sp s) (peek (s.regs.sp + 1) (afterRead s.regs.sp s)) t.regs

/-- The three forms of an operation on `A` and a byte (42 R202): a register in 4 cycles, the byte at `HL` in 8, an
immediate byte in 8; `post` relates the register file before, the operand and the register file after. -/
def AccumulatorForms (reg : Reg → Instr) (mem : Instr) (imm : Byte → Instr) (post : Regs → Byte → Regs → Prop) :
    Prop :=
  (∀ r, ChangesRegisters (reg r) 4 fun g h => post g (getReg r g) h) ∧
  LoadsByte mem State.hl 8 post ∧
  ∀ n, ChangesRegisters (imm n) 8 fun g h => post g n h

/-- A read-modify-write of a register: `result` of its byte is written back and the flags become `flags`. -/
def ModifiesRegister (i : Instr) (r : Reg) (cycles : Nat) (result : Byte → Flags → Byte)
    (flags : Byte → Flags → Flags) : Prop :=
  ChangesRegisters i cycles fun g h =>
    getReg r h = result (getReg r g) g.f ∧ h.f = flags (getReg r g) g.f ∧ SameBut [r] g h

/-- A read-modify-write of the byte at `HL` (20 R114): one read, then one write of `result` of that byte at the same
address, then the flags `flags`; `cycles` long; nothing else in the register file changes. -/
def ModifiesByteAtHl (i : Instr) (cycles : Nat) (result : Byte → Flags → Byte) (flags : Byte → Flags → Flags) : Prop :=
  ∀ s, Readable s s.hl → Storable s s.hl (result (peek s.hl s) s.regs.f) →
    ∃ u t, memWrite s.hl (result (peek s.hl s) s.regs.f) (afterRead s.hl s) = .next u ∧ exec i s = .next t ∧
      t = { u with regs := { s.regs with f := flags (peek s.hl s) s.regs.f }, cycles := cycles } ∧
      MemFrame [s.hl] [s.hl] s t

/-! ### Values, as the rules compute them on integers -/

/-- The value of a pair: `hi * 256 + lo` (10 R22, 00 R9). -/
def pairValue (p : Pair) (g : Regs) : Nat :=
  match p with
  | .bc => g.b.toNat * 256 + g.c.toNat
  | .de => g.d.toNat * 256 + g.e.toNat
  | .hl => g.h.toNat * 256 + g.l.toNat
  | .sp => g.sp.toNat

/-- Nothing but the named pair differs; the flags are not spoken of. -/
def SameButPair (p : Pair) (g h : Regs) : Prop :=
  match p with
  | .bc => SameBut [.b, .c] g h
  | .de => SameBut [.d, .e] g h
  | .hl => SameBut [.h, .l] g h
  | .sp => (∀ r, getReg r h = getReg r g) ∧ h.pc = g.pc

/-- The byte of a transform by integer arithmetic (44 R248). -/
def rotatedValue (o : RotOp) (v : Byte) (f : Flags) : Byte :=
  let n := v.toNat
  BitVec.ofNat 8 <|
    match o with
    | .rlc => n * 2 % 256 + n / 128
    | .rrc => n / 2 + n % 2 * 128
    | .rl => n * 2 % 256 + f.c.toNat
    | .rr => n / 2 + f.c.toNat * 128
    | .sla => n * 2 % 256
    | .sra => n / 2 + n / 128 * 128
    | .swap => n % 16 * 16 + n / 16
    | .srl => n / 2

/-- The bit a transform shifts out: the top one to the left, the bottom one to the right, none for `SWAP` (44 R248). -/
def shiftedOut (o : RotOp) (v : Byte) : Bool :=
  match o with
  | .rlc => decide (v.toNat ≥ 128)
  | .rl => decide (v.toNat ≥ 128)
  | .sla => decide (v.toNat ≥ 128)
  | .swap => false
  | .rrc => decide (v.toNat % 2 = 1)
  | .rr => decide (v.toNat % 2 = 1)
  | .sra => decide (v.toNat % 2 = 1)
  | .srl => decide (v.toNat % 2 = 1)

/-- The flags of a transform of the 0xCB page (44 R254 to R269). -/
def rotatedFlags (o : RotOp) (v : Byte) (f : Flags) : Flags :=
  { z := decide ((rotatedValue o v f).toNat = 0), n := false, h := false, c := shiftedOut o v }

/-- A packed BCD byte of a number below 100. -/
def bcd (n : Nat) : Byte := BitVec.ofNat 8 (n / 10 * 16 + n % 10)

/-- The colour number of pixel `px`, 0 the leftmost, of a tile row whose two bytes stand at `row`: the second byte holds
the high bits (60 R423). -/
def rowColour (m : Memory) (row px : Nat) : Nat :=
  2 * ((m.get (row + 1)).getLsbD (7 - px)).toNat + ((m.get row).getLsbD (7 - px)).toNat

/-- The colour number of the pixel in column `px` and row `py` of the plane of tiles whose map is at `map`: with
`LCDC[4] = 0` the indices 0 to 127 are the tiles from 0x9000 up and 128 to 255 those from 0x8800 up (60 R422). -/
def planeColour (s : State) (map px py : Nat) : Nat :=
  let idx := (s.mem.get (map + 32 * (py / 8) + px / 8)).toNat
  let tile := if s.ppu.lcdc.getLsbD 4 = true ∨ 128 ≤ idx then 0x8000 + 16 * idx else 0x9000 + 16 * idx
  rowColour s.mem (tile + 2 * (py % 8)) (px % 8)

/-! ### Which flags an instruction may write -/

/-- The flags an instruction may change; every other one is unchanged (10 R35). The prefix row is not an instruction
of its own and stands for any. -/
def mayWrite (i : Instr) : Flags :=
  let all : Flags := { z := true, n := true, h := true, c := true }
  let allButC : Flags := { z := true, n := true, h := true, c := false }
  let none : Flags := { z := false, n := false, h := false, c := false }
  match i with
  | .prefixCb _ => all
  | .addAR _ => all
  | .addAHl => all
  | .addAD8 _ => all
  | .adcAR _ => all
  | .adcAHl => all
  | .adcAD8 _ => all
  | .subR _ => all
  | .subHl => all
  | .subD8 _ => all
  | .sbcAR _ => all
  | .sbcAHl => all
  | .sbcAD8 _ => all
  | .andR _ => all
  | .andHl => all
  | .andD8 _ => all
  | .xorR _ => all
  | .xorHl => all
  | .xorD8 _ => all
  | .orR _ => all
  | .orHl => all
  | .orD8 _ => all
  | .cpR _ => all
  | .cpHl => all
  | .cpD8 _ => all
  | .incR _ => allButC
  | .incHl => allButC
  | .decR _ => allButC
  | .decHl => allButC
  | .daa => { z := true, n := false, h := true, c := true }
  | .cpl => { z := false, n := true, h := true, c := false }
  | .scf => { z := false, n := true, h := true, c := true }
  | .ccf => { z := false, n := true, h := true, c := true }
  | .addHlRp _ => { z := false, n := true, h := true, c := true }
  | .addSpE8 _ => all
  | .ldHlSpE8 _ => all
  | .rlca => all
  | .rrca => all
  | .rla => all
  | .rra => all
  | .rlcR _ => all
  | .rlcHl => all
  | .rrcR _ => all
  | .rrcHl => all
  | .rlR _ => all
  | .rlHl => all
  | .rrR _ => all
  | .rrHl => all
  | .slaR _ => all
  | .slaHl => all
  | .sraR _ => all
  | .sraHl => all
  | .swapR _ => all
  | .swapHl => all
  | .srlR _ => all
  | .srlHl => all
  | .bitR _ _ => allButC
  | .bitHl _ => allButC
  | .popAf => all
  | .nop | .stop | .halt | .di | .ei | .undefD3 | .undefDB | .undefDD | .undefE3 | .undefE4 | .undefEB | .undefEC
  | .undefED | .undefF4 | .undefFC | .undefFD | .ldRR _ _ | .ldRHl _ | .ldHlR _ | .ldRD8 _ _ | .ldHlD8 _ | .ldABc
  | .ldADe | .ldBcA | .ldDeA | .ldAHlInc | .ldAHlDec | .ldHlIncA | .ldHlDecA | .ldhA8A _ | .ldhAA8 _ | .ldhCA
  | .ldhAC | .ldA16A _ | .ldAA16 _ | .ldRpD16 _ _ | .ldA16Sp _ | .ldSpHl | .pushRp2 _ | .pushAf | .popRp2 _
  | .incRp _ | .decRp _ | .resR _ _ | .resHl _ | .setR _ _ | .setHl _ | .jpA16 _ | .jpCcA16 _ _ | .jpHl | .jrE8 _
  | .jrCcE8 _ _ | .callA16 _ | .callCcA16 _ _ | .ret | .retCc _ | .reti | .rst _ => none

/-! ### The instructions that fault -/

/-- The opcode byte with which an instruction raises F1: `STOP` and the eleven undefined bytes (46 R318, R321). -/
def faultingByte (i : Instr) : Option Byte :=
  match i with
  | .stop => some 0x10
  | .undefD3 => some 0xD3
  | .undefDB => some 0xDB
  | .undefDD => some 0xDD
  | .undefE3 => some 0xE3
  | .undefE4 => some 0xE4
  | .undefEB => some 0xEB
  | .undefEC => some 0xEC
  | .undefED => some 0xED
  | .undefF4 => some 0xF4
  | .undefFC => some 0xFC
  | .undefFD => some 0xFD
  | .nop | .halt | .di | .ei | .prefixCb _ | .ldRR _ _ | .ldRHl _ | .ldHlR _ | .ldRD8 _ _ | .ldHlD8 _ | .ldABc
  | .ldADe | .ldBcA | .ldDeA | .ldAHlInc | .ldAHlDec | .ldHlIncA | .ldHlDecA | .ldhA8A _ | .ldhAA8 _ | .ldhCA
  | .ldhAC | .ldA16A _ | .ldAA16 _ | .ldRpD16 _ _ | .ldA16Sp _ | .ldSpHl | .pushRp2 _ | .pushAf | .popRp2 _
  | .popAf | .addAR _ | .addAHl | .addAD8 _ | .adcAR _ | .adcAHl | .adcAD8 _ | .subR _ | .subHl | .subD8 _
  | .sbcAR _ | .sbcAHl | .sbcAD8 _ | .andR _ | .andHl | .andD8 _ | .xorR _ | .xorHl | .xorD8 _ | .orR _ | .orHl
  | .orD8 _ | .cpR _ | .cpHl | .cpD8 _ | .incR _ | .incHl | .decR _ | .decHl | .daa | .cpl | .scf | .ccf
  | .addHlRp _ | .incRp _ | .decRp _ | .addSpE8 _ | .ldHlSpE8 _ | .rlca | .rrca | .rla | .rra | .rlcR _ | .rlcHl
  | .rrcR _ | .rrcHl | .rlR _ | .rlHl | .rrR _ | .rrHl | .slaR _ | .slaHl | .sraR _ | .sraHl | .swapR _ | .swapHl
  | .srlR _ | .srlHl | .bitR _ _ | .bitHl _ | .resR _ _ | .resHl _ | .setR _ _ | .setHl _ | .jpA16 _ | .jpCcA16 _ _
  | .jpHl | .jrE8 _ | .jrCcE8 _ _ | .callA16 _ | .callCcA16 _ _ | .ret | .retCc _ | .reti | .rst _ => none

/-! ### The invariant of a run -/

/-- The mode as a function of the position, with the LCD on (60 R411). -/
def modeAt (ly dot : Nat) : PpuMode :=
  if ly < 144 then if dot < 80 then .oamScan else if dot < 252 then .pixelTransfer else .hblank else .vblank

/-- The PPU's position is legal and the mode is the mode of the position (60 R411). -/
abbrev Ppu.inPlace (p : Ppu) : Prop :=
  if bitOf p.lcdc 7 then p.ly < 154 ∧ p.dot < 456 ∧ p.mode = modeAt p.ly p.dot
  else p.ly = 0 ∧ p.dot = 0 ∧ p.mode = .hblank

/-- How many cycles of the frame are past (60 R410). -/
def Ppu.position (p : Ppu) : Nat := p.ly * 456 + p.dot

/-- What holds between steps: memory and the pixel buffer in their canonical forms, `div_acc` below 256 (10 R42), the
PPU in place (60 R411), and the three one-shot flags 0 (10 R45, R57). -/
abbrev State.Inv (s : State) : Prop :=
  s.mem.wf ∧ s.fb.wf ∧ s.timer.divAcc < 256 ∧ s.ppu.inPlace ∧
  s.timer.reqTimer = false ∧ s.ppu.reqVblank = false ∧ s.ppu.reqStat = false

end Sys2Proof.Machine
end

