-- ==== Sys2Proof/Certificates/Slice0/Obligations.lean ====
section
/-! DEFINITION. The statements about the model, for the provers. Each docstring names the rules of spec/ it rests on. -/

open Sys2Proof Sys2Proof.Machine

/-! ### Encoding (30) -/

/-- Decoding the bytes of a well-formed instruction, whatever stands behind them, gives that instruction with every
operand, and the bytes behind (30 R130, R131, R136, R142, R143). -/
def Obligations.DecodeAfterEncode : Prop :=
  ∀ (i : Instr) (rest : List Byte), WellFormed i → decode (encode i ++ rest) = .ok (i, rest)

/-- Every byte sequence that decodes is the encoding of what it decodes to: no two encodings stand for one
instruction, and what the decoder gives is well-formed (30 R135, R145). -/
def Obligations.EncodeAfterDecode : Prop :=
  ∀ (bytes rest : List Byte) (i : Instr), decode bytes = .ok (i, rest) → WellFormed i ∧ bytes = encode i ++ rest

/-- A few words written out from the patterns of 30 R142 and R143 (a sanity check). -/
def Obligations.SampleWordsDecode : Prop :=
  decode [0b00111110, 0x05] = .ok (.ldRD8 .a 0x05, []) ∧
  decode [0b11101110, 0x05] = .ok (.xorD8 0x05, []) ∧
  decode [0b01111000] = .ok (.ldRR .a .b, []) ∧
  decode [0b00100001, 0x00, 0xC0] = .ok (.ldRpD16 .hl 0xC000, []) ∧
  decode [0b11010101] = .ok (.pushRp2 .de, []) ∧
  decode [0b10011100] = .ok (.sbcAR .h, []) ∧
  decode [0b00101001] = .ok (.addHlRp .hl, []) ∧
  decode [0b11001011, 0b01111110] = .ok (.bitHl 7, []) ∧
  decode [0b11001011, 0b00110111] = .ok (.swapR .a, []) ∧
  decode [0b00111000, 0xFB] = .ok (.jrCcE8 .c 0xFB, []) ∧
  decode [0b11001101, 0x34, 0x12] = .ok (.callA16 0x1234, []) ∧
  decode [0b11101111] = .ok (.rst 5, []) ∧
  decode [0b01110110] = .ok (.halt, [])

/-- Decoding is total: any three bytes begin with one instruction, whose length is a function of the first byte alone;
exactly twelve first bytes are instructions that fault, and each of these is its own opcode byte (30 R131, R144, R145;
46 R321). -/
def Obligations.EveryOpcodeByteDecodes : Prop :=
  ∀ op b1 b2 : Byte, ∀ rest : List Byte, ∃ i,
    decode (op :: b1 :: b2 :: rest) = .ok (i, (op :: b1 :: b2 :: rest).drop (instrLength op)) ∧
    (op ∈ [0x10, 0xD3, 0xDB, 0xDD, 0xE3, 0xE4, 0xEB, 0xEC, 0xED, 0xF4, 0xFC, (0xFD : Byte)] →
      faultingByte i = some op) ∧
    (op ∉ [0x10, 0xD3, 0xDB, 0xDD, 0xE3, 0xE4, 0xEB, 0xEC, 0xED, 0xF4, 0xFC, (0xFD : Byte)] → faultingByte i = none)

/-! ### The step (60 sections 1 and 2) -/

/-- With no interrupt to dispatch and no halt left, a step whose bytes at `PC` decode to `i` is `i`, run with `PC`
past the bytes, followed by the devices' advance; and where a fetched byte is a free value, the same of what the fetch
gives (60 R340, R341, R345; 30 R134; 00 R14). That `PC` is past all the bytes before the effect is the model's reading
of the order (log 9). -/
def Obligations.StepRunsDecodedInstruction : Prop :=
  ∀ s : State,
    let s1 := startStep s
    let s2 := s1.withIrq { s1.irq with halted := false }
    (s1.irq.ime = false ∨ pending s1.irq = 0) → (s1.irq.halted = false ∨ pending s1.irq ≠ 0) →
    (∀ (i : Instr) (rest : List Byte),
      decode [peek s2.regs.pc s2, peek (s2.regs.pc + 1) s2, peek (s2.regs.pc + 2) s2] = .ok (i, rest) →
      WellFormed i →
      (∀ k < (encode i).length, Readable s2 (s2.regs.pc + BitVec.ofNat 16 k) ∧
        steady s2.cfg (s2.regs.pc + BitVec.ofNat 16 k) = true) →
      step s = andThen (exec i (s2.setPc (s2.regs.pc + BitVec.ofNat 16 (encode i).length)))
        fun t => .next (finishStep t)) ∧
    ∀ (i : Instr) (s3 : State), fetchInstr s2 = .next (i, s3) →
      step s = andThen (exec i s3) fun t => .next (finishStep t)

/-- A step that is still halted after the interrupt check fetches nothing, changes no CPU register and no byte of
memory, and lasts 4 cycles, by which the devices advance (60 R350). -/
def Obligations.HaltedStepIdles : Prop :=
  ∀ s : State, (startStep s).irq.halted = true → pending (startStep s).irq = 0 →
    ∃ t, step s = .next t ∧ t = finishStep ((startStep s).withCycles 4) ∧ t.regs = s.regs ∧ t.cycles = 4 ∧
      t.mem = s.mem ∧ t.irq.halted = true

/-- Taking an interrupt (60 R347, R348). With `IME` set, the lowest source `n` that is enabled and requested is
dispatched: its request bit is cleared, `IME` and `ime_delay` become 0, a halt ends, `PC` is pushed as the word write
below `SP`, `PC` becomes `0x0040 + 8 * n`, 16 cycles pass, and nothing else changes before the devices' advance. -/
def Obligations.InterruptDispatch : Prop :=
  ∀ (s : State) (n : Nat),
    let s1 := startStep s
    let q := { s1.irq with
      request := s1.irq.request &&& ~~~(1#5 <<< n), ime := false, imeDelay := 0, halted := false }
    let sp := s1.regs.sp - 2
    n < 5 → s1.irq.ime = true → s1.irq.enable.getLsbD n = true → s1.irq.request.getLsbD n = true →
    (∀ m < n, (s1.irq.enable.getLsbD m && s1.irq.request.getLsbD m) = false) →
    StorableWord s1 sp s1.regs.pc →
    ∃ u t, memWriteWord sp s1.regs.pc ((s1.withIrq q).setSp sp) = .next u ∧ step s = .next (finishStep t) ∧
      t = { u with regs := { s1.regs with sp := sp, pc := BitVec.ofNat 16 (0x0040 + 8 * n) }, cycles := 16 } ∧
      MemFrame [] [sp, sp + 1] (s1.withIrq q) t ∧ HoldsWord sp s1.regs.pc t

/-- The start of the interrupt check: a halt is cleared when `IE & IF & 0x1F` is not zero, whatever `IME` is; with
`IME` 0 or nothing enabled and requested, nothing is dispatched and nothing else changes; a dispatch needs both; and a
step whose check dispatches nothing and leaves no halt executes an instruction in the same step (60 R345, R346). -/
def Obligations.HaltReleaseAndGate : Prop :=
  (∀ s : State,
    let p : BitVec 5 := s.irq.enable.setWidth 5 &&& s.irq.request
    ((s.irq.ime = false ∨ p = 0) →
      interruptCheck s = .next (false, s.withIrq { s.irq with halted := s.irq.halted && decide (p = 0) })) ∧
    (∀ t, interruptCheck s = .next (true, t) → s.irq.ime = true ∧ p ≠ 0) ∧
    ∀ r t, interruptCheck s = .next (r, t) → t.irq.halted = (s.irq.halted && decide (p = 0))) ∧
  ∀ s t : State, interruptCheck (startStep s) = .next (false, t) → t.irq.halted = false →
    step s = andThen (execute t) fun u => .next (finishStep u)

/-- The start of a step. The pending-enable counter is advanced first thing: 2 becomes 1, 1 becomes 0 and sets `IME`,
0 stays (60 R343); so while `IME` is 0, a step that does not begin with the counter at 1 dispatches nothing and leaves
`IME` 0: the instruction after `EI` or `RETI` always executes first (46 R320). Beside that the host may have set the
request bits 3 and 4 where `HOST_IRQ` is true, and has done nothing else (60 R352); that these requests are drawn here
is the model's reading of "between any two steps" (log 6). -/
def Obligations.EnableTakesEffectAfterOneInstruction : Prop :=
  ∀ s : State,
    (s.irq.imeDelay = 2 → (startStep s).irq.imeDelay = 1 ∧ (startStep s).irq.ime = s.irq.ime) ∧
    (s.irq.imeDelay = 1 → (startStep s).irq.imeDelay = 0 ∧ (startStep s).irq.ime = true) ∧
    (s.irq.imeDelay = 0 → (startStep s).irq.imeDelay = 0 ∧ (startStep s).irq.ime = s.irq.ime) ∧
    (s.irq.ime = false → s.irq.imeDelay ≠ 1 →
      (∃ t, interruptCheck (startStep s) = .next (false, t)) ∧ ∀ u, step s = .next u → u.irq.ime = false) ∧
    (∃ (ime : Bool) (delay : ImeDelay) (request : BitVec 5) (draws : Nat),
      startStep s =
        { s with irq := { s.irq with ime := ime, imeDelay := delay, request := request }, draws := draws } ∧
      (∀ n < 3, request.getLsbD n = s.irq.request.getLsbD n) ∧
      (∀ n < 5, s.irq.request.getLsbD n = true → request.getLsbD n = true) ∧
      (s.cfg.hostIrq = false → request = s.irq.request ∧ draws = s.draws))

/-- The end of a step (60 R341): the PPU, if the LCD is on, and the timer advance by exactly the step's cycle count,
and then the latch runs (60 R353): each one-shot flag that is set sets its bit of `IF`, no bit is cleared, the three
flags become 0, and nothing else changes. Nothing but the timer, the PPU, the pixel buffer and the request bits 0 to 2
changes at the end of a step, and with the LCD off the PPU and the pixel buffer do not move (60 R402); that the pixel
buffer keeps its lines then is the model's reading of 60 R404 and R433 against 93 V3 (log 22). -/
def Obligations.LatchSetsRequests : Prop :=
  (∀ s : State,
    ∃ r : BitVec 5,
      latchRequests s =
        { s with
          irq := { s.irq with request := r }, timer := { s.timer with reqTimer := false },
          ppu := { s.ppu with reqVblank := false, reqStat := false } } ∧
      r.getLsbD 0 = (s.irq.request.getLsbD 0 || s.ppu.reqVblank) ∧
      r.getLsbD 1 = (s.irq.request.getLsbD 1 || s.ppu.reqStat) ∧
      r.getLsbD 2 = (s.irq.request.getLsbD 2 || s.timer.reqTimer) ∧
      r.getLsbD 3 = s.irq.request.getLsbD 3 ∧ r.getLsbD 4 = s.irq.request.getLsbD 4) ∧
  ∀ s : State,
    let p := ppuTicks s.cycles s
    let t := finishStep s
    (s.ppu.lcdc.getLsbD 7 = true →
      t = latchRequests { s with ppu := p.ppu, fb := p.fb, timer := timerRun s.cycles s.timer }) ∧
    (s.ppu.lcdc.getLsbD 7 = false →
      t = latchRequests { s with timer := timerRun s.cycles s.timer } ∧ t.fb = s.fb ∧
      t.ppu = { s.ppu with reqVblank := false, reqStat := false }) ∧
    ∃ r : BitVec 5,
      t = { s with irq := { s.irq with request := r }, timer := t.timer, ppu := t.ppu, fb := t.fb } ∧
      r.getLsbD 3 = s.irq.request.getLsbD 3 ∧ r.getLsbD 4 = s.irq.request.getLsbD 4

/-! ### The whole machine -/

/-- Every step keeps the invariant: memory and the pixel buffer stay in their canonical forms, `div_acc` stays below
256, the PPU stays in place with the mode its position says, and the one-shot flags are 0 between steps (10 R42, R57;
60 R353, R411). -/
def Obligations.StepKeepsInvariant : Prop :=
  ∀ s t : State, s.Inv → step s = .next t → t.Inv

/-- The invariant holds after reset (70 R451), and after every launch whose memory and pixel buffer are in their
canonical forms. -/
def Obligations.ResetMeetsInvariant : Prop :=
  State.reset.Inv ∧ ∀ cfg mem fb dma, Memory.wf mem → PixelBuffer.wf fb → (State.launch cfg mem fb dma).Inv

/-- What reset leaves, of the pieces the spec gives a value for (70 R451), whatever the parameters and the memory; and
the byte stores of the joypad, serial and sound ports read 0xFF where nothing has been written (20 R101 to R103). -/
def Obligations.ResetValues : Prop :=
  ∀ cfg mem fb dma,
    let s := State.launch cfg mem fb dma
    getAf s.regs = 0x01B0 ∧ getPair .bc s.regs = 0x0013 ∧ getPair .de s.regs = 0x00D8 ∧ getPair .hl s.regs = 0x014D ∧
    s.regs.sp = 0xFFFE ∧ s.regs.pc = 0x0100 ∧
    s.irq.ime = cfg.resetIme ∧ s.irq.imeDelay = 0 ∧ s.irq.halted = false ∧ s.irq.enable = 0x00 ∧ s.irq.request = 0 ∧
    s.timer.div = 0 ∧ s.timer.divAcc = 0 ∧ s.timer.tima = 0x00 ∧ s.timer.timaAcc = 0 ∧ s.timer.tma = 0x00 ∧
    s.timer.tac = 0 ∧
    s.timer.reqTimer = false ∧ s.ppu.reqVblank = false ∧ s.ppu.reqStat = false ∧
    s.ppu.lcdc = 0x91 ∧ s.ppu.statArm = 0 ∧ s.ppu.scy = 0x00 ∧ s.ppu.scx = 0x00 ∧ s.ppu.ly = 0 ∧ s.ppu.dot = 0 ∧
    s.ppu.mode = .oamScan ∧ s.ppu.lyc = 0x00 ∧ s.ppu.bgp = 0xFC ∧ s.ppu.obp0 = 0xFF ∧ s.ppu.obp1 = 0xFF ∧
    s.ppu.wy = 0x00 ∧ s.ppu.wx = 0x00 ∧
    ∀ a : Addr,
      (cfg.joypad = .store ∧ a = 0xFF00) ∨ (cfg.serial = .store ∧ (a = 0xFF01 ∨ a = 0xFF02)) ∨
        (cfg.apu = .store ∧ 0xFF10 ≤ a.toNat ∧ a.toNat ≤ 0xFF3F) →
      Memory.get mem a.toNat = unlisted a.toNat → memRead a s = .next (0xFF, s)

/-- A step lasts a multiple of 4 cycles, 4 to 24 (60 R340, 00 R6). -/
def Obligations.StepLastsFourToTwentyFourCycles : Prop :=
  ∀ s t : State, step s = .next t → t.cycles % 4 = 0 ∧ 4 ≤ t.cycles ∧ t.cycles ≤ 24

/-- No step changes a parameter of the machine (00 R7). -/
def Obligations.StepKeepsParameters : Prop :=
  ∀ s t : State, step s = .next t → t.cfg = s.cfg

/-- Only `DI`, `EI` and `RETI` change `IME` or the pending enable, and only `HALT` sets the halt (46 R323; 10 R36 to
R38). -/
def Obligations.InterruptStateWriters : Prop :=
  ∀ (i : Instr) (s t : State), exec i s = .next t →
    (i ≠ .di → i ≠ .ei → i ≠ .reti → t.irq.ime = s.irq.ime ∧ t.irq.imeDelay = s.irq.imeDelay) ∧
    (i ≠ .halt → t.irq.halted = s.irq.halted) ∧ (i ≠ .di → t.irq.ime = s.irq.ime)

/-- Every flag an instruction is not listed to write is unchanged (10 R35). -/
def Obligations.FlagWriters : Prop :=
  ∀ (i : Instr) (s t : State), exec i s = .next t →
    ((mayWrite i).z = false → t.regs.f.z = s.regs.f.z) ∧ ((mayWrite i).n = false → t.regs.f.n = s.regs.f.n) ∧
    ((mayWrite i).h = false → t.regs.f.h = s.regs.f.h) ∧ ((mayWrite i).c = false → t.regs.f.c = s.regs.f.c)

/-- Where every address answers, every instruction completes in every state but `STOP` and the eleven undefined bytes;
and no step is ever refused (46 R324, 60 R364). -/
def Obligations.EveryOtherInstructionCompletes : Prop :=
  (∀ (i : Instr) (s : State), (∀ a, Readable s a) → faultingByte i = none → ∃ t, exec i s = .next t) ∧
  ∀ (s : State) (q : Refusal), step s ≠ .refused q

/-- `STOP` and the eleven undefined bytes stop the machine with F1 in every state, with the opcode byte and the
register file in the record; no other instruction raises F1 (46 R318, R321; 60 R360, R361). -/
def Obligations.UnimplementedOpcodesFault : Prop :=
  (∀ s,
    exec .stop s = .fault (.unimplementedOpcode 0x10 s.regs) ∧
    exec .undefD3 s = .fault (.unimplementedOpcode 0xD3 s.regs) ∧
    exec .undefDB s = .fault (.unimplementedOpcode 0xDB s.regs) ∧
    exec .undefDD s = .fault (.unimplementedOpcode 0xDD s.regs) ∧
    exec .undefE3 s = .fault (.unimplementedOpcode 0xE3 s.regs) ∧
    exec .undefE4 s = .fault (.unimplementedOpcode 0xE4 s.regs) ∧
    exec .undefEB s = .fault (.unimplementedOpcode 0xEB s.regs) ∧
    exec .undefEC s = .fault (.unimplementedOpcode 0xEC s.regs) ∧
    exec .undefED s = .fault (.unimplementedOpcode 0xED s.regs) ∧
    exec .undefF4 s = .fault (.unimplementedOpcode 0xF4 s.regs) ∧
    exec .undefFC s = .fault (.unimplementedOpcode 0xFC s.regs) ∧
    exec .undefFD s = .fault (.unimplementedOpcode 0xFD s.regs)) ∧
  ∀ (i : Instr) (s : State) (op : Byte) (g : Regs), exec i s = .fault (.unimplementedOpcode op g) →
    faultingByte i = some op

/-! ### Memory and the router (20) -/

/-- A byte written is read back (20 R85): in working RAM, its mirror and high RAM; in video RAM and OAM while not
blocked; in `IE`; in the registers that hold all eight bits; and in the byte stores of the joypad, serial and sound
ports, which read the last byte written (20 R101 to R103). -/
def Obligations.WriteThenRead : Prop :=
  ∀ (s : State) (a : Addr) (v : Byte),
    isRam a = true ∨ region a = .ie ∨ ((region a = .vram ∨ region a = .oam) ∧ blocked s = false) ∨
      a ∈ [0xFF05, 0xFF06, 0xFF40, 0xFF42, 0xFF43, 0xFF45, 0xFF47, 0xFF48, 0xFF49, 0xFF4A, (0xFF4B : Addr)] ∨
      (s.cfg.joypad = .store ∧ a = 0xFF00) ∨ (s.cfg.serial = .store ∧ (a = 0xFF01 ∨ a = 0xFF02)) ∨
      (s.cfg.apu = .store ∧ 0xFF10 ≤ a.toNat ∧ a.toNat ≤ 0xFF3F) →
    ∃ u, memWrite a v s = .next u ∧ memRead a u = .next (v, u)

/-- The mirror (20 R89): an access at 0xE000 to 0xFDFF is the same access at the address 0x2000 below, in working RAM;
a write to the top 512 bytes of working RAM is seen at no other address, a clause that the spec marks as its own
inference ("[derived: the mirror range is 7680 bytes long]"). -/
def Obligations.MirrorSharesWorkingRam : Prop :=
  (∀ (s : State) (a : Addr) (v : Byte), 0xE000 ≤ a.toNat → a.toNat ≤ 0xFDFF →
    memRead a s = memRead (a - 0x2000) s ∧ memWrite a v s = memWrite (a - 0x2000) v s ∧
    region (a - 0x2000) = .wram) ∧
  ∀ (s u : State) (a b : Addr) (v : Byte), 0xDE00 ≤ a.toNat → a.toNat ≤ 0xDFFF → b ≠ a →
    memWrite a v s = .next u → peek b u = peek b s

/-- The unmapped range 0xFEA0 to 0xFEFF reads as 0xFF and ignores writes (20 R91). -/
def Obligations.UnmappedRangeIsInert : Prop :=
  ∀ (s : State) (a : Addr) (v : Byte), 0xFEA0 ≤ a.toNat → a.toNat ≤ 0xFEFF →
    memRead a s = .next (0xFF, s) ∧ memWrite a v s = .next s

/-- Blocking (20 R92): with `VRAM_OAM_BLOCKING`, the LCD on and the mode Pixel-Transfer, video RAM and OAM read 0xFF
and ignore writes; in any other case they read as stored and store. -/
def Obligations.PixelTransferBlocksVideoMemory : Prop :=
  ∀ (s : State) (a : Addr) (v : Byte), region a = .vram ∨ region a = .oam →
    (s.cfg.vramOamBlocking = true ∧ s.ppu.lcdc.getLsbD 7 = true ∧ s.ppu.mode = .pixelTransfer →
      memRead a s = .next (0xFF, s) ∧ memWrite a v s = .next s) ∧
    (¬ (s.cfg.vramOamBlocking = true ∧ s.ppu.lcdc.getLsbD 7 = true ∧ s.ppu.mode = .pixelTransfer) →
      memRead a s = .next (s.mem.get a.toNat, s) ∧ memWrite a v s = .next { s with mem := s.mem.set a.toNat v })

/-- The cartridge ranges (20 R86): every read and write is forwarded. The flat ROM ignores writes, reads its image
below 0x8000 and 0xFF in the RAM range; any other device answers a read by its whole history and takes every access
into it, which is the model's reading of a device left open (log 7). -/
def Obligations.CartridgeRangesForward : Prop :=
  ∀ (s : State) (a : Addr) (v : Byte), region a = .rom ∨ region a = .cartRam →
    (s.cfg.cart = .flatRom →
      memWrite a v s = .next s ∧
      memRead a s = .next (if a.toNat < 0x8000 then s.mem.get a.toNat else 0xFF, s)) ∧
    (s.cfg.cart = .any →
      memWrite a v s = .next { s with portLog := (.cart, .write a v) :: s.portLog } ∧
      memRead a s = .next (freePortByte .cart (portHistory .cart s) a,
        { s with portLog := (.cart, .read a) :: s.portLog }))

/-- What a read of each address of the I/O page gives (20 R93), whatever `TOLERATED_IO` holds for the owned ones: the
register, with the bits without state as drawn; a read leaves nothing changed but the draw used up or the history of a
device left open (20 R97). The ports are byte stores at the spec value (20 R101 to R103); that a device left open
answers by its history is the model's reading (log 7). -/
def Obligations.IoRegisterReads : Prop :=
  ∀ s : State,
    let register := fun (a : Addr) (v : Byte) => memRead a s = .next (v, s)
    PortReads .joypad s.cfg.joypad 0xFF00 s ∧
    PortReads .serial s.cfg.serial 0xFF01 s ∧ PortReads .serial s.cfg.serial 0xFF02 s ∧
    (∀ a : Addr, 0xFF10 ≤ a.toNat → a.toNat ≤ 0xFF3F → PortReads .apu s.cfg.apu a s) ∧
    register 0xFF04 s.timer.div ∧ register 0xFF05 s.timer.tima ∧ register 0xFF06 s.timer.tma ∧
    register 0xFF40 s.ppu.lcdc ∧ register 0xFF42 s.ppu.scy ∧ register 0xFF43 s.ppu.scx ∧
    register 0xFF44 (BitVec.ofNat 8 s.ppu.ly) ∧ register 0xFF45 s.ppu.lyc ∧ register 0xFF46 s.dma ∧
    register 0xFF47 s.ppu.bgp ∧ register 0xFF48 s.ppu.obp0 ∧ register 0xFF49 s.ppu.obp1 ∧
    register 0xFF4A s.ppu.wy ∧ register 0xFF4B s.ppu.wx ∧
    (∀ a ∈ [0xFF07, 0xFF0F, (0xFF41 : Addr)], memRead a s = .next (peek a s, { s with draws := s.draws + 1 })) ∧
    (peek 0xFF07 s).extractLsb' 0 3 = s.timer.tac ∧ (peek 0xFF0F s).extractLsb' 0 5 = s.irq.request ∧
    (peek 0xFF41 s).extractLsb' 3 4 = s.ppu.statArm ∧
    (peek 0xFF41 s).getLsbD 2 = decide (s.ppu.ly = s.ppu.lyc.toNat) ∧
    (peek 0xFF41 s).extractLsb' 0 2 = (match s.ppu.mode with
      | .hblank => 0
      | .vblank => 1
      | .oamScan => 2
      | .pixelTransfer => 3) ∧
    ∀ a : Addr, a = 0xFF03 ∨ (0xFF08 ≤ a.toNat ∧ a.toNat ≤ 0xFF0E) ∨ (0xFF4C ≤ a.toNat ∧ a.toNat ≤ 0xFF7F) →
      memRead a s =
        if a ∈ s.cfg.toleratedIo then .next (0xFF, s) else .fault (.unimplementedIo a .read s.regs)

/-- What a write to each address of the I/O page does (20 R94; 60 R385, R403 to R405, R408, R409). The ports are byte
stores at the spec value (20 R101 to R103); that a device left open takes the write into its history is the model's
reading (log 7). That the pixel buffer is untouched when the LCD is switched off is the model's reading of 60 R404 and
R433 against 93 V3 (log 22). -/
def Obligations.IoRegisterWrites : Prop :=
  ∀ (s : State) (v : Byte),
    PortWrites .joypad s.cfg.joypad 0xFF00 v s ∧
    PortWrites .serial s.cfg.serial 0xFF01 v s ∧ PortWrites .serial s.cfg.serial 0xFF02 v s ∧
    memWrite 0xFF04 v s = .next { s with timer := { s.timer with
      div := 0, divAcc := if s.cfg.divWriteClearsAcc then 0 else s.timer.divAcc } } ∧
    memWrite 0xFF05 v s = .next { s with timer := { s.timer with tima := v } } ∧
    memWrite 0xFF06 v s = .next { s with timer := { s.timer with tma := v } } ∧
    memWrite 0xFF07 v s = .next { s with timer := { s.timer with tac := v.setWidth 3 } } ∧
    memWrite 0xFF0F v s = .next { s with irq := { s.irq with request := v.setWidth 5 } } ∧
    (∀ a : Addr, 0xFF10 ≤ a.toNat → a.toNat ≤ 0xFF3F → PortWrites .apu s.cfg.apu a v s) ∧
    (s.ppu.lcdc.getLsbD 7 = true → v.getLsbD 7 = false →
      memWrite 0xFF40 v s = .next { s with ppu := { s.ppu with lcdc := v, ly := 0, dot := 0, mode := .hblank } }) ∧
    (s.ppu.lcdc.getLsbD 7 = false → v.getLsbD 7 = true →
      memWrite 0xFF40 v s = .next { s with ppu := { s.ppu with lcdc := v, mode := .oamScan } }) ∧
    (s.ppu.lcdc.getLsbD 7 = v.getLsbD 7 →
      memWrite 0xFF40 v s = .next { s with ppu := { s.ppu with lcdc := v } }) ∧
    memWrite 0xFF41 v s = .next { s with ppu := { s.ppu with statArm := v.extractLsb' 3 4 } } ∧
    memWrite 0xFF42 v s = .next { s with ppu := { s.ppu with scy := v } } ∧
    memWrite 0xFF43 v s = .next { s with ppu := { s.ppu with scx := v } } ∧
    memWrite 0xFF44 v s = .next s ∧
    memWrite 0xFF45 v s = .next { s with ppu := { s.ppu with
      lyc := v, reqStat := s.ppu.reqStat || (decide (s.ppu.ly = v.toNat) && s.ppu.statArm.getLsbD 3) } } ∧
    memWrite 0xFF46 v s = oamDma v { s with dma := v } ∧
    memWrite 0xFF47 v s = .next { s with ppu := { s.ppu with bgp := v } } ∧
    memWrite 0xFF48 v s = .next { s with ppu := { s.ppu with obp0 := v } } ∧
    memWrite 0xFF49 v s = .next { s with ppu := { s.ppu with obp1 := v } } ∧
    memWrite 0xFF4A v s = .next { s with ppu := { s.ppu with wy := v } } ∧
    memWrite 0xFF4B v s = .next { s with ppu := { s.ppu with wx := v } } ∧
    ∀ a : Addr, a = 0xFF03 ∨ (0xFF08 ≤ a.toNat ∧ a.toNat ≤ 0xFF0E) ∨ (0xFF4C ≤ a.toNat ∧ a.toNat ≤ 0xFF7F) →
      memWrite a v s =
        if a ∈ s.cfg.toleratedIo then .next s else .fault (.unimplementedIo a (.write v) s.regs)

/-- The unowned I/O addresses (20 R105, 60 R362): in `TOLERATED_IO` they read 0xFF and ignore writes; outside it an
access stops the machine with the address, the direction and the register file. At the spec value none faults. -/
def Obligations.UnownedIoAddresses : Prop :=
  (∀ (s : State) (a : Addr) (v : Byte),
    a = 0xFF03 ∨ (0xFF08 ≤ a.toNat ∧ a.toNat ≤ 0xFF0E) ∨ (0xFF4C ≤ a.toNat ∧ a.toNat ≤ 0xFF7F) →
    (a ∈ s.cfg.toleratedIo → memRead a s = .next (0xFF, s) ∧ memWrite a v s = .next s) ∧
    (a ∉ s.cfg.toleratedIo →
      memRead a s = .fault (.unimplementedIo a .read s.regs) ∧
      memWrite a v s = .fault (.unimplementedIo a (.write v) s.regs))) ∧
  ∀ s : State, s.cfg.toleratedIo = everyUnownedIo → ∀ a, Readable s a

/-- OAM DMA (20 R106, R107, R109): a write of `v` to 0xFF46 stores `v` and copies the 160 bytes that router reads from
`v << 8` give into OAM, in one step; while blocked, OAM keeps its bytes. The bytes of free values are not spoken of.
-/
def Obligations.OamDmaCopies : Prop :=
  ∀ (s : State) (v : Byte), Storable s 0xFF46 v →
    ∃ u, memWrite 0xFF46 v s = .next u ∧ u.dma = v ∧ u.regs = s.regs ∧ MemFrame [] [0xFF46] s u ∧
      ∀ i < 160,
        (blocked s = true → u.mem.get (0xFE00 + i) = s.mem.get (0xFE00 + i)) ∧
        (blocked s = false → steady s.cfg (BitVec.ofNat 16 (v.toNat * 256 + i)) = true →
          u.mem.get (0xFE00 + i) = peek (BitVec.ofNat 16 (v.toNat * 256 + i)) (s.withDma v))

/-- A push followed by a pop with nothing between gives the word back and restores `SP`, when the two stack bytes are
plain RAM (41 R193, R198; 00 R15; 20 R110 to R112). -/
def Obligations.PushThenPop : Prop :=
  ∀ (s : State) (w : Word), isRam (s.regs.sp - 2) = true → isRam (s.regs.sp - 2 + 1) = true →
    ∃ u, push16 w s = .next u ∧ u.regs = { s.regs with sp := s.regs.sp - 2 } ∧
      peek (s.regs.sp - 2) u = lo8 w ∧ peek (s.regs.sp - 2 + 1) u = hi8 w ∧
      pop16 u = .next (w, u.setSp s.regs.sp)

/-! ### Timer and PPU (60 sections 5 to 7) -/

/-- What a run of `n` cycles does to the timer, the two loops in closed form (60 R381, R382). The divider advances by
the 256s in its accumulator. Enabled, the counter makes `k` increments, `k` the periods in its accumulator; while it
does not pass 0xFF it is `TIMA + k`, and then it goes round from `TMA` to 0xFF and the request is raised (60 R381 to
R384). That the loops turn as often as the quotients say is the model's reading (log 16). -/
def Obligations.TimerRunClosedForm : Prop :=
  ∀ (n : Nat) (t : Timer),
    let period := match t.tac.extractLsb' 0 2 with
      | 0 => 1024
      | 1 => 16
      | 2 => 64
      | _ => 128
    let k := (t.timaAcc + n) / period
    let r := timerRun n t
    r.div.toNat = (t.div.toNat + (t.divAcc + n) / 256) % 256 ∧ r.divAcc = (t.divAcc + n) % 256 ∧
    r.tma = t.tma ∧ r.tac = t.tac ∧
    (t.tac.getLsbD 2 = false → r.tima = t.tima ∧ r.timaAcc = t.timaAcc ∧ r.reqTimer = t.reqTimer) ∧
    (t.tac.getLsbD 2 = true → r.timaAcc = (t.timaAcc + n) % period ∧
      (t.tima.toNat + k < 256 → r.tima.toNat = t.tima.toNat + k ∧ r.reqTimer = t.reqTimer) ∧
      (256 ≤ t.tima.toNat + k →
        r.tima.toNat = t.tma.toNat + (t.tima.toNat + k - 256) % (256 - t.tma.toNat) ∧ r.reqTimer = true))

/-- The timer depends only on the sum of the cycles, not on how they are split into steps (60 R384). -/
def Obligations.TimerDependsOnSum : Prop :=
  ∀ (m n : Nat) (t : Timer), timerRun (m + n) t = timerRun n (timerRun m t)

/-- The frame law (60 R410, R411). With the LCD on and the PPU in place, `k` cycles advance the position in the frame
by `k` modulo 70224 and leave the PPU in place. From the start of a frame, the VBlank request comes at cycle 65664 and
not before, and each of the 144 lines is rendered at cycle `456 * y + 80` from the registers and memories, and not
before. -/
def Obligations.FrameLaw : Prop :=
  (∀ (k : Nat) (s : State), bitOf s.ppu.lcdc 7 = true → s.ppu.inPlace →
    (ppuTicks k s).ppu.position = (s.ppu.position + k) % 70224 ∧ (ppuTicks k s).ppu.inPlace) ∧
  ∀ s : State, bitOf s.ppu.lcdc 7 = true → s.ppu.inPlace → s.ppu.position = 0 →
    (∀ k ≤ 70224, s.ppu.reqVblank = false → (ppuTicks k s).ppu.reqVblank = decide (65664 ≤ k)) ∧
    ∀ k ≤ 70224, ∀ y < 144,
      (ppuTicks k s).fb.line y = if 456 * y + 80 ≤ k then composeLine s y else s.fb.line y

/-- The LCD-STAT events of one cycle (60 R401, R407, R408): `req_stat` is set exactly by the entry into HBlank, VBlank
or OAM-Scan, or the match of a new `LY` with `LYC`, with the event's arm bit set; `req_vblank` by the entry into
VBlank; and no register but `LY`, `dot` and `mode` changes. -/
def Obligations.StatEvents : Prop :=
  ∀ p : Ppu, bitOf p.lcdc 7 = true → p.inPlace →
    let line' := if p.ly = 153 then 0 else p.ly + 1
    (advanceDot p).reqStat =
      (p.reqStat ||
        (decide (p.ly < 144 ∧ p.dot = 251) && p.statArm.getLsbD 0) ||
        (decide (p.ly = 143 ∧ p.dot = 455) && p.statArm.getLsbD 1) ||
        (decide (p.dot = 455 ∧ (p.ly < 143 ∨ p.ly = 153)) && p.statArm.getLsbD 2) ||
        (decide (p.dot = 455 ∧ line' = p.lyc.toNat) && p.statArm.getLsbD 3)) ∧
    (advanceDot p).reqVblank = (p.reqVblank || decide (p.ly = 143 ∧ p.dot = 455)) ∧
    advanceDot p =
      { p with
        ly := (advanceDot p).ly, dot := (advanceDot p).dot, mode := (advanceDot p).mode,
        reqStat := (advanceDot p).reqStat, reqVblank := (advanceDot p).reqVblank }

/-- Sprite selection (60 R426): the entries selected for a line are the first ten in OAM order whose rows include the
line and whose X is 1 to 167; an entry is its four bytes, Y, X, tile index and flags (10 R61). -/
def Obligations.SpriteSelection : Prop :=
  ∀ (s : State) (ly : Nat),
    let h := if s.ppu.lcdc.getLsbD 2 then 16 else 8
    let matching := fun i : Nat =>
      let y := (s.mem.get (0xFE00 + 4 * i)).toNat
      let x := (s.mem.get (0xFE00 + 4 * i + 1)).toNat
      y ≤ ly + 16 ∧ ly + 16 < y + h ∧ 1 ≤ x ∧ x ≤ 167
    let l := selectSprites s ly
    (∀ i, oamEntry s.mem i =
      { index := i, y := (s.mem.get (0xFE00 + 4 * i)).toNat, x := (s.mem.get (0xFE00 + 4 * i + 1)).toNat,
        tile := s.mem.get (0xFE00 + 4 * i + 2), flags := s.mem.get (0xFE00 + 4 * i + 3) }) ∧
    l.length ≤ 10 ∧ (l.map Sprite.index).Pairwise (· < ·) ∧
    (∀ sp ∈ l, sp.index < 40 ∧ sp = oamEntry s.mem sp.index ∧ matching sp.index) ∧
    ∀ i < 40, matching i → oamEntry s.mem i ∈ l ∨ (l.length = 10 ∧ ∀ sp ∈ l, sp.index < i)

/-- Drawing order (60 R427): the same sprites, sorted by ascending X, for equal X by descending OAM index; so a later,
winning one has the larger X, or the same X and the lower index. -/
def Obligations.SpriteDrawOrder : Prop :=
  ∀ l : List Sprite, (l.map Sprite.index).Nodup →
    (sortForDraw l).Perm l ∧
    (sortForDraw l).Pairwise fun u v => u.x < v.x ∨ (u.x = v.x ∧ v.index < u.index)

/-- The three layers, pixel by pixel, and their priority. Background and window: the colour number of the pixel of
their plane of tiles, through `BGP`; colour number 0 and shade 0 with the background disabled; the window only where
it is enabled and covers the column (60 R420 to R425). Sprite: the colour number of its pixel, with the flips and, 16
rows high, the pair of tiles (60 R428, R429). Priority (60 R430): the shade of a column is that of the last-drawn
sprite that covers it with a colour other than 0 and is not hidden behind a background or window colour other than 0;
failing that, the window's or the background's. -/
def Obligations.LayerPriority : Prop :=
  (∀ (palette : Byte) (c : Shade), (paletteShade palette c).toNat = palette.toNat / 4 ^ c.toNat % 4) ∧
  ∀ (s : State) (ly x : Nat),
    let p := s.ppu
    let drawn := fun (c : Column) (map px py : Nat) =>
      c.bgcol.toNat = planeColour s map px py ∧ c.shade = paletteShade p.bgp c.bgcol
    let left : Int := match s.cfg.winX0 with
      | .minus7 => (p.wx.toNat : Int) - 7
      | .plus7 => (p.wx.toNat : Int) + 7
    let covered := p.lcdc.getLsbD 5 = true ∧ p.wy.toNat ≤ ly ∧ left ≤ x
    let h := if p.lcdc.getLsbD 2 then 16 else 8
    let under := windowColumn s ly x (backgroundColumn s ly x)
    let shows := fun sp : Sprite =>
      sp.x ≤ x + 8 ∧ x < sp.x ∧ spriteColour s ly x sp ≠ 0 ∧ (sp.flags.getLsbD 7 = true → under.bgcol = 0)
    (p.lcdc.getLsbD 0 = false → backgroundColumn s ly x = { shade := 0, bgcol := 0 }) ∧
    (p.lcdc.getLsbD 0 = true →
      drawn (backgroundColumn s ly x) (if p.lcdc.getLsbD 3 then 0x9C00 else 0x9800)
        ((x + p.scx.toNat) % 256) ((ly + p.scy.toNat) % 256)) ∧
    (∀ below : Column,
      (¬ covered → windowColumn s ly x below = below) ∧
      (covered →
        drawn (windowColumn s ly x below) (if p.lcdc.getLsbD 6 then 0x9C00 else 0x9800)
          ((x : Int) - left).toNat (ly - p.wy.toNat))) ∧
    (∀ sp : Sprite, sp.y ≤ ly + 16 → ly + 16 < sp.y + h → sp.x ≤ x + 8 → x < sp.x →
      let row := if sp.flags.getLsbD 6 then h - 1 - (ly + 16 - sp.y) else ly + 16 - sp.y
      let tile := if p.lcdc.getLsbD 2 then sp.tile.toNat / 2 * 2 + row / 8 else sp.tile.toNat
      let k := x + 8 - sp.x
      (spriteColour s ly x sp).toNat =
        rowColour s.mem (0x8000 + 16 * tile + 2 * (row % 8)) (if sp.flags.getLsbD 5 then 7 - k else k)) ∧
    (∀ (l1 : List Sprite) (sp : Sprite) (l2 : List Sprite), shows sp → (∀ q ∈ l2, ¬ shows q) →
      columnShade s ly (l1 ++ sp :: l2) x =
        paletteShade (if sp.flags.getLsbD 4 then p.obp1 else p.obp0) (spriteColour s ly x sp)) ∧
    ∀ l : List Sprite, (∀ q ∈ l, ¬ shows q) → columnShade s ly l x = under.shade

/-- Rendering a line writes that line of the pixel buffer and nothing else, and reads nothing of memory but video RAM
and OAM (60 R420, R422; 20 R121). Each of its 160 pixels is the colour `SHADE_RGB` gives the shade of its column, with
the line's sprites drawn in their order where `LCDC[1]` is set (60 R432). That no two shades have one colour is the
model's reading of what `SHADE_RGB` may be (log 18; 93 V12, X2). -/
def Obligations.RenderLineReadsVideoMemoryOnly : Prop :=
  (∀ (s : State) (y : Nat), ∃ fb, renderLine s y = { s with fb := fb } ∧ fb.line y = composeLine s y ∧
    (composeLine s y).length = 160 ∧ ∀ z, z ≠ y → fb.line z = s.fb.line z) ∧
  (∀ (s : State) (y x : Nat), x < 160 →
    let sprites := if s.ppu.lcdc.getLsbD 1 then sortForDraw (selectSprites s y) else []
    let t := s.cfg.shadeRgb
    (composeLine s y)[x]? = [t.shade0, t.shade1, t.shade2, t.shade3][(columnShade s y sprites x).toNat]?) ∧
  (∀ (t : ShadeRgb) (c d : Shade), shadeRgb t c = shadeRgb t d → c = d) ∧
  ∀ (s : State) (m : Memory) (y : Nat), y < 144 →
    (∀ k, (0x8000 ≤ k ∧ k < 0xA000) ∨ (0xFE00 ≤ k ∧ k < 0xFEA0) → m.get k = s.mem.get k) →
    composeLine (s.withMem m) y = composeLine s y

/-- The worked example of 60 R434: one tile row of the background, unscrolled and scrolled by 3. -/
def Obligations.CompositorExample : Prop :=
  let s := (State.launch specConfig [(0x8010, 0x3C), (0x8011, 0x7E), (0x9800, 0x01)] [] 0).withPpu
    { resetPpu with bgp := 0xE4 }
  (composeLine s 0).take 8 =
    [0xFFFFFF, 0x555555, 0x000000, 0x000000, 0x000000, 0x000000, 0x555555, 0xFFFFFF] ∧
  (composeLine (s.withPpu { s.ppu with scx := 0x03 }) 0).take 5 = [0x000000, 0x000000, 0x000000, 0x555555, 0xFFFFFF]

/-! ### 8-bit loads (40) -/

/-- `LD r,r'` and `LD r,d8` (40 R160, R163) complete in every state. -/
def Obligations.RegisterLoads : Prop :=
  (∀ rd rs, ChangesRegisters (.ldRR rd rs) 4 fun g h => getReg rd h = getReg rs g ∧ h.f = g.f ∧ SameBut [rd] g h) ∧
  ∀ rd n, ChangesRegisters (.ldRD8 rd n) 8 fun g h => getReg rd h = n ∧ h.f = g.f ∧ SameBut [rd] g h

/-- The loads of a byte from memory; page 0xFF is 0xFF00 + n (30 R136; 40 R161, R165, R166, R169, R170, R174, R176,
R178). -/
def Obligations.LoadsFromMemory : Prop :=
  (∀ n, (page0xFF n).toNat = 0xFF00 + n.toNat) ∧
  (∀ rd, LoadsByte (.ldRHl rd) State.hl 8 fun g v h => getReg rd h = v ∧ h.f = g.f ∧ SameBut [rd] g h) ∧
  LoadsByte .ldABc (fun s => getPair .bc s.regs) 8 (fun g v h => h = { g with a := v }) ∧
  LoadsByte .ldADe (fun s => getPair .de s.regs) 8 (fun g v h => h = { g with a := v }) ∧
  LoadsByte .ldAHlInc State.hl 8 (fun g v h => h.a = v ∧ h.f = g.f ∧ SameBut [.a, .h, .l] g h ∧
    pairValue .hl h = (pairValue .hl g + 1) % 65536) ∧
  LoadsByte .ldAHlDec State.hl 8 (fun g v h => h.a = v ∧ h.f = g.f ∧ SameBut [.a, .h, .l] g h ∧
    pairValue .hl h = (pairValue .hl g + 65535) % 65536) ∧
  (∀ o, LoadsByte (.ldhAA8 o) (fun _ => page0xFF o) 12 fun g v h => h = { g with a := v }) ∧
  LoadsByte .ldhAC (fun s => page0xFF s.regs.c) 8 (fun g v h => h = { g with a := v }) ∧
  ∀ a, LoadsByte (.ldAA16 a) (fun _ => a) 16 fun g v h => h = { g with a := v }

/-- The stores of a byte to memory; page 0xFF is 0xFF00 + n (30 R136; 40 R162, R164, R167, R168, R171, R172, R173,
R175, R177). -/
def Obligations.StoresToMemory : Prop :=
  (∀ n, (page0xFF n).toNat = 0xFF00 + n.toNat) ∧
  (∀ rs, StoresByte (.ldHlR rs) State.hl (fun s => getReg rs s.regs) 8 id) ∧
  (∀ n, StoresByte (.ldHlD8 n) State.hl (fun _ => n) 12 id) ∧
  StoresByte .ldBcA (fun s => getPair .bc s.regs) (fun s => s.regs.a) 8 id ∧
  StoresByte .ldDeA (fun s => getPair .de s.regs) (fun s => s.regs.a) 8 id ∧
  StoresByte .ldHlIncA State.hl (fun s => s.regs.a) 8
    (fun g => { g with h := hi8 (mkWord g.h g.l + 1), l := lo8 (mkWord g.h g.l + 1) }) ∧
  StoresByte .ldHlDecA State.hl (fun s => s.regs.a) 8
    (fun g => { g with h := hi8 (mkWord g.h g.l - 1), l := lo8 (mkWord g.h g.l - 1) }) ∧
  (∀ o, StoresByte (.ldhA8A o) (fun _ => page0xFF o) (fun s => s.regs.a) 12 id) ∧
  StoresByte .ldhCA (fun s => page0xFF s.regs.c) (fun s => s.regs.a) 8 id ∧
  ∀ a, StoresByte (.ldA16A a) (fun _ => a) (fun s => s.regs.a) 16 id

/-! ### 16-bit loads and the stack (41) -/

/-- `LD rp,d16`, `LD SP,HL` and `LD (a16),SP` (41 R190 to R192). -/
def Obligations.SixteenBitLoads : Prop :=
  (∀ p w, ChangesRegisters (.ldRpD16 p w) 12 fun g h => pairValue p h = w.toNat ∧ h.f = g.f ∧ SameButPair p g h) ∧
  ChangesRegisters .ldSpHl 8 (fun g h => h = { g with sp := mkWord g.h g.l } ∧ h.sp.toNat = pairValue .hl g) ∧
  ∀ a s, StorableWord s a s.regs.sp →
    ∃ u t, memWriteWord a s.regs.sp s = .next u ∧ exec (.ldA16Sp a) s = .next t ∧
      t = { u with regs := s.regs, cycles := 20 } ∧ MemFrame [] [a, a + 1] s t ∧ HoldsWord a s.regs.sp t

/-- `PUSH` (41 R194, R195): the pair is stored below the old `SP`, the low byte at the new `SP`. -/
def Obligations.Pushes : Prop :=
  (∀ p, PushesWord (.pushRp2 p) (fun s => getStackPair p s.regs) 16 fun g => { g with sp := g.sp - 2 }) ∧
  (∀ g : Regs, getStackPair .bc g = mkWord g.b g.c ∧ getStackPair .de g = mkWord g.d g.e ∧
    getStackPair .hl g = mkWord g.h g.l) ∧
  PushesWord .pushAf
    (fun s => mkWord s.regs.a
      (BitVec.ofBool s.regs.f.z ++ BitVec.ofBool s.regs.f.n ++ BitVec.ofBool s.regs.f.h ++ BitVec.ofBool s.regs.f.c ++ 0#4))
    16 fun g => { g with sp := g.sp - 2 }

/-- `POP` (41 R196, R197): the pair takes the two bytes at `SP`; for AF the flags are bits 7 to 4 of the low byte and
its low nibble is discarded. -/
def Obligations.Pops : Prop :=
  PopsWord (.popRp2 .bc) 12 id (fun g lo hi h => h = { g with b := hi, c := lo, sp := g.sp + 2 }) ∧
  PopsWord (.popRp2 .de) 12 id (fun g lo hi h => h = { g with d := hi, e := lo, sp := g.sp + 2 }) ∧
  PopsWord (.popRp2 .hl) 12 id (fun g lo hi h => h = { g with h := hi, l := lo, sp := g.sp + 2 }) ∧
  PopsWord .popAf 12 id fun g lo hi h => h =
    { g with
      a := hi, sp := g.sp + 2
      f := { z := lo.getLsbD 7, n := lo.getLsbD 6, h := lo.getLsbD 5, c := lo.getLsbD 4 } }

/-! ### 8-bit arithmetic and logic (42) -/

/-- `ADD A` and `ADC A` in their three forms (42 R200, R202, R205 to R210): `A + v` and `A + v + C` modulo 256; Z for
a result of 0, N 0, H the carry out of bit 3, C the carry out of bit 7. -/
def Obligations.AddAndAdc : Prop :=
  let post := fun (cin : Regs → Nat) (g : Regs) (v : Byte) (h : Regs) =>
    let sum := g.a.toNat + v.toNat + cin g
    h = { g with
      a := BitVec.ofNat 8 (sum % 256)
      f := { z := decide (sum % 256 = 0), n := false
             h := decide (16 ≤ g.a.toNat % 16 + v.toNat % 16 + cin g), c := decide (256 ≤ sum) } }
  AccumulatorForms .addAR .addAHl .addAD8 (post fun _ => 0) ∧
  AccumulatorForms .adcAR .adcAHl .adcAD8 (post fun g => g.f.c.toNat)

/-- `SUB`, `SBC A` and `CP` in their three forms (42 R201, R202, R211 to R216, R226 to R228): `A - v` and `A - v - C`
modulo 256, which `CP` discards; Z for a result of 0, N 1, H and C the borrows. -/
def Obligations.SubSbcAndCp : Prop :=
  let flags := fun (cin : Nat) (g : Regs) (v : Byte) =>
    ({ z := decide ((g.a.toNat + 512 - v.toNat - cin) % 256 = 0), n := true
       h := decide (g.a.toNat % 16 < v.toNat % 16 + cin), c := decide (g.a.toNat < v.toNat + cin) } : Flags)
  let post := fun (cin : Regs → Nat) (g : Regs) (v : Byte) (h : Regs) =>
    h = { g with a := BitVec.ofNat 8 (g.a.toNat + 512 - v.toNat - cin g), f := flags (cin g) g v }
  AccumulatorForms .subR .subHl .subD8 (post fun _ => 0) ∧
  AccumulatorForms .sbcAR .sbcAHl .sbcAD8 (post fun g => g.f.c.toNat) ∧
  AccumulatorForms .cpR .cpHl .cpD8 fun g v h => h = { g with f := flags 0 g v }

/-- `AND`, `XOR` and `OR` in their three forms (42 R202, R217 to R225), bit by bit; Z for a result of 0, N and C 0, H
1 for `AND` only. -/
def Obligations.AndXorOr : Prop :=
  let post := fun (op : Bool → Bool → Bool) (hc : Bool) (g : Regs) (v : Byte) (h : Regs) =>
    (∀ i < 8, h.a.getLsbD i = op (g.a.getLsbD i) (v.getLsbD i)) ∧
    h = { g with a := h.a, f := { z := decide (h.a.toNat = 0), n := false, h := hc, c := false } }
  AccumulatorForms .andR .andHl .andD8 (post and true) ∧
  AccumulatorForms .xorR .xorHl .xorD8 (post xor false) ∧
  AccumulatorForms .orR .orHl .orD8 (post or false)

/-- `INC` and `DEC` of a byte (42 R229 to R232): C is never touched. -/
def Obligations.IncrementAndDecrementBytes : Prop :=
  let incFlags := fun (v : Byte) (f : Flags) =>
    ({ z := decide (v = 0xFF), n := false, h := decide (v.toNat % 16 = 15), c := f.c } : Flags)
  let decFlags := fun (v : Byte) (f : Flags) =>
    ({ z := decide (v = 0x01), n := true, h := decide (v.toNat % 16 = 0), c := f.c } : Flags)
  (∀ rd, ModifiesRegister (.incR rd) rd 4 (fun v _ => BitVec.ofNat 8 (v.toNat + 1)) incFlags) ∧
  (∀ rd, ModifiesRegister (.decR rd) rd 4 (fun v _ => BitVec.ofNat 8 (v.toNat + 255)) decFlags) ∧
  ModifiesByteAtHl .incHl 12 (fun v _ => BitVec.ofNat 8 (v.toNat + 1)) incFlags ∧
  ModifiesByteAtHl .decHl 12 (fun v _ => BitVec.ofNat 8 (v.toNat + 255)) decFlags

/-- `DAA`, `CPL`, `SCF` and `CCF` (42 R233 to R236). -/
def Obligations.AccumulatorAdjusters : Prop :=
  ChangesRegisters .daa 4 (fun g h =>
    let low := g.f.h || (!g.f.n && decide (9 < g.a.toNat % 16))
    let high := g.f.c || (!g.f.n && decide (0x99 < g.a.toNat))
    let adj := (if low then 6 else 0) + (if high then 0x60 else 0)
    let r := if g.f.n then (g.a.toNat + 256 - adj) % 256 else (g.a.toNat + adj) % 256
    h = { g with a := BitVec.ofNat 8 r, f := { z := decide (r = 0), n := g.f.n, h := false, c := high } }) ∧
  ChangesRegisters .cpl 4 (fun g h =>
    h = { g with a := BitVec.ofNat 8 (255 - g.a.toNat), f := { g.f with n := true, h := true } }) ∧
  ChangesRegisters .scf 4 (fun g h => h = { g with f := { g.f with n := false, h := false, c := true } }) ∧
  ChangesRegisters .ccf 4 (fun g h => h = { g with f := { g.f with n := false, h := false, c := !g.f.c } })

/-- What `DAA` is for (42 R233, "per standard decimal-adjust rules"): after `ADD` or `ADC` of two packed BCD bytes it
gives the packed BCD sum with the decimal carry, and after `SUB` or `SBC` the difference with the decimal borrow. -/
def Obligations.DecimalAdjustGivesBcd : Prop :=
  ∀ (x y : Nat) (f : Flags), x < 100 → y < 100 →
    (∀ o ∈ [AluOp.add, AluOp.adc],
      let cin := if o = .adc then f.c.toNat else 0
      let r := alu o (bcd x) (bcd y) f
      (daaByte r.1 r.2).1 = bcd ((x + y + cin) % 100) ∧ (daaByte r.1 r.2).2.c = decide (100 ≤ x + y + cin)) ∧
    ∀ o ∈ [AluOp.sub, AluOp.sbc],
      let cin := if o = .sbc then f.c.toNat else 0
      let r := alu o (bcd x) (bcd y) f
      (daaByte r.1 r.2).1 = bcd ((x + 200 - y - cin) % 100) ∧ (daaByte r.1 r.2).2.c = decide (x < y + cin)

/-! ### 16-bit arithmetic (43) -/

/-- `ADD HL,rp`, `INC rp`, `DEC rp`, `ADD SP,e8` and `LD HL,SP+e8` (43 R240 to R244). -/
def Obligations.SixteenBitArithmetic : Prop :=
  let lowFlags := fun (g : Regs) (e : Byte) =>
    ({ z := false, n := false, h := decide (16 ≤ g.sp.toNat % 16 + e.toNat % 16)
       c := decide (256 ≤ g.sp.toNat % 256 + e.toNat) } : Flags)
  (∀ p, ChangesRegisters (.addHlRp p) 8 fun g h =>
    let a := pairValue .hl g
    let b := pairValue p g
    pairValue .hl h = (a + b) % 65536 ∧ SameBut [.h, .l] g h ∧
    h.f = { z := g.f.z, n := false, h := decide (4096 ≤ a % 4096 + b % 4096), c := decide (65536 ≤ a + b) }) ∧
  (∀ p, ChangesRegisters (.incRp p) 8 fun g h =>
    pairValue p h = (pairValue p g + 1) % 65536 ∧ h.f = g.f ∧ SameButPair p g h) ∧
  (∀ p, ChangesRegisters (.decRp p) 8 fun g h =>
    pairValue p h = (pairValue p g + 65535) % 65536 ∧ h.f = g.f ∧ SameButPair p g h) ∧
  (∀ e, ChangesRegisters (.addSpE8 e) 16 fun g h =>
    (h.sp.toNat : Int) = ((g.sp.toNat : Int) + e.toInt) % 65536 ∧ h = { g with sp := h.sp, f := lowFlags g e }) ∧
  ∀ e, ChangesRegisters (.ldHlSpE8 e) 12 fun g h =>
    (pairValue .hl h : Int) = ((g.sp.toNat : Int) + e.toInt) % 65536 ∧ h.f = lowFlags g e ∧ SameBut [.h, .l] g h

/-! ### Rotates, shifts and bits (44) -/

/-- `RLCA`, `RRCA`, `RLA`, `RRA` (44 R250 to R253): the transform of `A`, with Z forced to 0. -/
def Obligations.AccumulatorRotates : Prop :=
  let flags := fun (o : RotOp) (v : Byte) (_ : Flags) =>
    ({ z := false, n := false, h := false, c := shiftedOut o v } : Flags)
  ModifiesRegister .rlca .a 4 (rotatedValue .rlc) (flags .rlc) ∧
  ModifiesRegister .rrca .a 4 (rotatedValue .rrc) (flags .rrc) ∧
  ModifiesRegister .rla .a 4 (rotatedValue .rl) (flags .rl) ∧
  ModifiesRegister .rra .a 4 (rotatedValue .rr) (flags .rr)

/-- The eight transforms of the 0xCB page on a register (44 R248, R254 to R269). -/
def Obligations.RegisterRotates : Prop :=
  ∀ rs,
    ModifiesRegister (.rlcR rs) rs 8 (rotatedValue .rlc) (rotatedFlags .rlc) ∧
    ModifiesRegister (.rrcR rs) rs 8 (rotatedValue .rrc) (rotatedFlags .rrc) ∧
    ModifiesRegister (.rlR rs) rs 8 (rotatedValue .rl) (rotatedFlags .rl) ∧
    ModifiesRegister (.rrR rs) rs 8 (rotatedValue .rr) (rotatedFlags .rr) ∧
    ModifiesRegister (.slaR rs) rs 8 (rotatedValue .sla) (rotatedFlags .sla) ∧
    ModifiesRegister (.sraR rs) rs 8 (rotatedValue .sra) (rotatedFlags .sra) ∧
    ModifiesRegister (.swapR rs) rs 8 (rotatedValue .swap) (rotatedFlags .swap) ∧
    ModifiesRegister (.srlR rs) rs 8 (rotatedValue .srl) (rotatedFlags .srl)

/-- The eight transforms of the 0xCB page on the byte at `HL` (44 R248, R249, R255 to R269). -/
def Obligations.MemoryRotates : Prop :=
  ModifiesByteAtHl .rlcHl 16 (rotatedValue .rlc) (rotatedFlags .rlc) ∧
  ModifiesByteAtHl .rrcHl 16 (rotatedValue .rrc) (rotatedFlags .rrc) ∧
  ModifiesByteAtHl .rlHl 16 (rotatedValue .rl) (rotatedFlags .rl) ∧
  ModifiesByteAtHl .rrHl 16 (rotatedValue .rr) (rotatedFlags .rr) ∧
  ModifiesByteAtHl .slaHl 16 (rotatedValue .sla) (rotatedFlags .sla) ∧
  ModifiesByteAtHl .sraHl 16 (rotatedValue .sra) (rotatedFlags .sra) ∧
  ModifiesByteAtHl .swapHl 16 (rotatedValue .swap) (rotatedFlags .swap) ∧
  ModifiesByteAtHl .srlHl 16 (rotatedValue .srl) (rotatedFlags .srl)

/-- `BIT`, `RES` and `SET` on a register and on the byte at `HL` (44 R270 to R275). -/
def Obligations.BitInstructions : Prop :=
  let cleared := fun (b : BitVec 3) (v : Byte) (_ : Flags) =>
    (BitVec.ofNat 8 (v.toNat - if v.getLsbD b.toNat then 2 ^ b.toNat else 0) : Byte)
  let raised := fun (b : BitVec 3) (v : Byte) (_ : Flags) =>
    (BitVec.ofNat 8 (v.toNat + if v.getLsbD b.toNat then 0 else 2 ^ b.toNat) : Byte)
  let tested := fun (b : BitVec 3) (v : Byte) (f : Flags) =>
    ({ z := !v.getLsbD b.toNat, n := false, h := true, c := f.c } : Flags)
  ∀ b,
    (∀ rs, ChangesRegisters (.bitR b rs) 8 fun g h => h = { g with f := tested b (getReg rs g) g.f }) ∧
    LoadsByte (.bitHl b) State.hl 12 (fun g v h => h = { g with f := tested b v g.f }) ∧
    (∀ rs, ModifiesRegister (.resR b rs) rs 8 (cleared b) fun _ f => f) ∧
    ModifiesByteAtHl (.resHl b) 16 (cleared b) (fun _ f => f) ∧
    (∀ rs, ModifiesRegister (.setR b rs) rs 8 (raised b) fun _ f => f) ∧
    ModifiesByteAtHl (.setHl b) 16 (raised b) fun _ f => f

/-! ### Jumps, calls and returns (45) -/

/-- The jumps (45 R286, R290 to R294): the target, the condition of each index, and the cycles taken and not taken. -/
def Obligations.Jumps : Prop :=
  let holds := fun (c : Nat) (f : Flags) =>
    match c with
    | 0 => f.z = false
    | 1 => f.z = true
    | 2 => f.c = false
    | _ => f.c = true
  let relative := fun (e : Byte) (g h : Regs) =>
    (h.pc.toNat : Int) = ((g.pc.toNat : Int) + e.toInt) % 65536 ∧ h = { g with pc := h.pc }
  (∀ a, ChangesRegisters (.jpA16 a) 16 fun g h => h = { g with pc := a }) ∧
  ChangesRegisters .jpHl 4 (fun g h => h = { g with pc := h.pc } ∧ h.pc.toNat = pairValue .hl g) ∧
  (∀ e, ChangesRegisters (.jrE8 e) 12 (relative e)) ∧
  ∀ s : State, ∀ c < 4,
    (∀ a, ∃ t, exec (.jpCcA16 (condOf c) a) s = .next t ∧ RegsOnly s t ∧
      (holds c s.regs.f → t.cycles = 16 ∧ t.regs = { s.regs with pc := a }) ∧
      (¬ holds c s.regs.f → t.cycles = 12 ∧ t.regs = s.regs)) ∧
    ∀ e, ∃ t, exec (.jrCcE8 (condOf c) e) s = .next t ∧ RegsOnly s t ∧
      (holds c s.regs.f → t.cycles = 12 ∧ relative e s.regs t.regs) ∧
      (¬ holds c s.regs.f → t.cycles = 8 ∧ t.regs = s.regs)

/-- The calls (45 R295, R296, R310): `PC`, which is past the instruction, is pushed and the target entered; a call
whose condition fails does nothing and touches no memory. -/
def Obligations.Calls : Prop :=
  (∀ a, PushesWord (.callA16 a) (fun s => s.regs.pc) 24 fun g => { g with sp := g.sp - 2, pc := a }) ∧
  (∀ t, PushesWord (.rst t) (fun s => s.regs.pc) 16
    fun g => { g with sp := g.sp - 2, pc := BitVec.ofNat 16 (8 * t.toNat) }) ∧
  ∀ cc a s,
    (condHolds cc s.regs.f = true → exec (.callCcA16 cc a) s = exec (.callA16 a) s) ∧
    (condHolds cc s.regs.f = true → StorableWord s (s.regs.sp - 2) s.regs.pc →
      ∃ t, exec (.callCcA16 cc a) s = .next t ∧ t.cycles = 24 ∧
        t.regs = { s.regs with sp := s.regs.sp - 2, pc := a } ∧
        MemFrame [] [s.regs.sp - 2, s.regs.sp - 2 + 1] s t) ∧
    (condHolds cc s.regs.f = false →
      ∃ t, exec (.callCcA16 cc a) s = .next t ∧ RegsOnly s t ∧ t.cycles = 12 ∧ t.regs = s.regs)

/-- The returns (45 R297 to R299): `PC` is the word at `SP`; `RETI` schedules the enable; a return whose condition
fails does nothing and touches no memory. -/
def Obligations.Returns : Prop :=
  let post := fun (g : Regs) (lo hi : Byte) (h : Regs) => h = { g with sp := g.sp + 2, pc := mkWord hi lo }
  PopsWord .ret 16 id post ∧
  PopsWord .reti 16 (fun q => { q with imeDelay := 2 }) post ∧
  ∀ cc s,
    (condHolds cc s.regs.f = true → Readable s s.regs.sp → Readable s (s.regs.sp + 1) →
      ∃ t, exec (.retCc cc) s = .next t ∧ t.cycles = 20 ∧ ReadsOnly [s.regs.sp, s.regs.sp + 1] s t ∧
        post s.regs (peek s.regs.sp s) (peek (s.regs.sp + 1) (afterRead s.regs.sp s)) t.regs) ∧
    (condHolds cc s.regs.f = false →
      ∃ t, exec (.retCc cc) s = .next t ∧ RegsOnly s t ∧ t.cycles = 8 ∧ t.regs = s.regs)

/-! ### System instructions and the prefix (46; 30 R135) -/

/-- `NOP`, `HALT`, `DI` and `EI` (46 R315, R316, R319, R320): 4 cycles each, and no effect but on the run and
interrupt state; so every byte of memory reads as before. -/
def Obligations.SystemInstructions : Prop :=
  ∀ s : State,
    exec .nop s = .next { s with cycles := 4 } ∧
    exec .halt s = .next { s with irq := { s.irq with halted := true }, cycles := 4 } ∧
    exec .di s = .next { s with irq := { s.irq with ime := false, imeDelay := 0 }, cycles := 4 } ∧
    exec .ei s = .next { s with irq := { s.irq with imeDelay := 2 }, cycles := 4 } ∧
    ∀ i ∈ [Instr.nop, .halt, .di, .ei], ∀ t, exec i s = .next t → t.regs = s.regs ∧ ∀ b, peek b t = peek b s

/-- The prefix 0xCB with a second byte is the instruction of the 0xCB page (30 R135; 44 R249): it completes, in 8
cycles for a register operand and in 16, or 12 for `BIT`, for the byte at `HL`, and does what that instruction does. A
constructor for the table's prefix row is the model's choice (log 10). -/
def Obligations.PrefixRunsSecondPage : Prop :=
  ∀ (op2 : Byte) (s : State),
    exec (.prefixCb op2) s = exec (decodeBytes 0xCB op2 0) s ∧
    (op2.toNat % 8 ≠ 6 → ∃ t, exec (.prefixCb op2) s = .next t ∧ RegsOnly s t ∧ t.cycles = 8) ∧
    (op2.toNat % 8 = 6 → op2.toNat / 64 = 1 → Readable s s.hl →
      ∃ t, exec (.prefixCb op2) s = .next t ∧ ReadsOnly [s.hl] s t ∧ t.cycles = 12) ∧
    (op2.toNat % 8 = 6 → op2.toNat / 64 ≠ 1 → Readable s s.hl → (∀ v, Storable s s.hl v) →
      ∃ t, exec (.prefixCb op2) s = .next t ∧ MemFrame [s.hl] [s.hl] s t ∧ t.cycles = 16 ∧
        t.regs = { s.regs with f := t.regs.f })
end

