-- ==== Sys2Proof/Laws/Memory.lean ====
section
/-! SUPPORT. Memory and the pixel buffer: what a read gives after a write, and that a write keeps the canonical form. -/

namespace Sys2Proof.Machine

section Cells
variable {α : Type}

theorem cellsGet_insert (d : α) (l : List (Nat × α)) (k j : Nat) (v : α) :
    cellsGet d (cellsInsert l k v) j = if k = j then v else cellsGet d l j := by
  induction l with
  | nil => simp [cellsInsert, cellsGet]
  | cons c rest ih =>
    obtain ⟨k', w⟩ := c
    simp only [cellsInsert]
    split
    · simp [cellsGet]
    · split
      · subst_vars; simp only [cellsGet]; split <;> rfl
      · rename_i hk
        simp only [cellsGet, ih]
        split
        · subst_vars; rw [if_neg (fun h => hk h.symm)]
        · rfl

theorem cellsGet_filter (d : α) (l : List (Nat × α)) (k j : Nat) :
    cellsGet d (l.filter fun c => c.1 != k) j = if k = j then d else cellsGet d l j := by
  induction l with
  | nil => simp [cellsGet]
  | cons c rest ih =>
    obtain ⟨k', w⟩ := c
    simp only [List.filter_cons]
    by_cases h : k' = k
    · subst h; simp [ih, cellsGet]; split <;> simp_all
    · simp [h, cellsGet, ih]; split <;> split <;> simp_all

theorem mem_insert {l : List (Nat × α)} {k : Nat} {v : α} {c : Nat × α} (h : c ∈ cellsInsert l k v) :
    c = (k, v) ∨ c ∈ l := by
  induction l with
  | nil => simpa [cellsInsert] using h
  | cons c' rest ih =>
    obtain ⟨k', w⟩ := c'
    simp only [cellsInsert] at h
    split at h
    · simpa using h
    · split at h
      · simp at h ⊢; tauto
      · simp at h ⊢
        rcases h with h | h
        · exact .inr (.inl h)
        · rcases ih h with h | h
          · exact .inl h
          · exact .inr (.inr h)

/-- Inserting keeps the keys strictly rising. -/
theorem insert_sorted {l : List (Nat × α)} (h : (l.map Prod.fst).Pairwise (· < ·)) (k : Nat) (v : α) :
    ((cellsInsert l k v).map Prod.fst).Pairwise (· < ·) := by
  induction l with
  | nil => simp [cellsInsert]
  | cons c rest ih =>
    obtain ⟨k', w⟩ := c
    simp only [List.map_cons, List.pairwise_cons] at h
    simp only [cellsInsert]
    split
    · rename_i hk
      simp only [List.map_cons, List.pairwise_cons]
      refine ⟨?_, h⟩
      intro a ha
      rcases List.mem_cons.1 ha with rfl | ha
      · exact hk
      · exact hk.trans (h.1 a ha)
    · split
      · subst_vars; simpa using h
      · simp only [List.map_cons, List.pairwise_cons]
        refine ⟨?_, ih h.2⟩
        intro a ha
        obtain ⟨c, hc, rfl⟩ := List.mem_map.1 ha
        rcases mem_insert hc with rfl | hc
        · simp only; omega
        · exact h.1 _ (List.mem_map_of_mem hc)

/-- Removing keeps the keys strictly rising. -/
theorem filter_sorted {l : List (Nat × α)} (h : (l.map Prod.fst).Pairwise (· < ·)) (f : Nat × α → Bool) :
    ((l.filter f).map Prod.fst).Pairwise (· < ·) :=
  h.sublist (List.filter_sublist.map _)

end Cells

/-! ### Memory -/

/-- A read after a write gives the byte written at that address and what it gave before anywhere else. -/
theorem Memory.get_set (m : Memory) (k j : Nat) (v : Byte) :
    (m.set k v).get j = if k = j then v else m.get j := by
  unfold Memory.set Memory.get cellsSet
  split
  · rw [cellsGet_filter]; split <;> simp_all
  · exact cellsGet_insert ..

@[simp] theorem Memory.get_set_self (m : Memory) (k : Nat) (v : Byte) : (m.set k v).get k = v := by
  simp [Memory.get_set]

theorem Memory.get_set_ne (m : Memory) {k j : Nat} (v : Byte) (h : k ≠ j) : (m.set k v).get j = m.get j := by
  simp [Memory.get_set, h]

/-- A write inside the address space keeps the canonical form. -/
theorem Memory.wf_set {m : Memory} (h : m.wf) {k : Nat} (hk : k < 65536) (v : Byte) : (m.set k v).wf := by
  unfold Memory.set cellsSet
  split
  · refine ⟨filter_sorted h.1 _, ?_⟩
    intro c hc
    exact h.2 c (List.mem_filter.1 hc).1
  · rename_i hv
    refine ⟨insert_sorted h.1 k v, ?_⟩
    intro c hc
    rcases mem_insert hc with rfl | hc
    · exact ⟨hk, hv⟩
    · exact h.2 c hc

/-- Memory with nothing listed is in its canonical form. -/
theorem Memory.wf_nil : Memory.wf [] := by simp [Memory.wf]

/-! ### The pixel buffer -/

/-- A line after a line is replaced. -/
theorem PixelBuffer.line_setLine (fb : PixelBuffer) (y z : Nat) (l : List Rgb) :
    (fb.setLine y l).line z = if y = z then l else fb.line z := by
  unfold PixelBuffer.setLine PixelBuffer.line cellsSet
  split
  · rw [cellsGet_filter]; split <;> simp_all
  · exact cellsGet_insert ..

/-- Replacing a line of the screen by 160 pixels keeps the canonical form. -/
theorem PixelBuffer.wf_setLine {fb : PixelBuffer} (h : fb.wf) {y : Nat} (hy : y < 144) {l : List Rgb}
    (hl : l.length = 160) : (fb.setLine y l).wf := by
  unfold PixelBuffer.setLine cellsSet
  split
  · refine ⟨filter_sorted h.1 _, ?_⟩
    intro c hc
    exact h.2 c (List.mem_filter.1 hc).1
  · rename_i hv
    refine ⟨insert_sorted h.1 y l, ?_⟩
    intro c hc
    rcases mem_insert hc with rfl | hc
    · exact ⟨hy, hl, hv⟩
    · exact h.2 c hc

/-- A buffer with no line listed is in its canonical form. -/
theorem PixelBuffer.wf_nil : PixelBuffer.wf [] := by simp [PixelBuffer.wf]

end Sys2Proof.Machine
end

