-- ==== Sys2Proof/Laws/State.lean ====
section
/-! SUPPORT. What each update of the state does to each field. All are true by definition, so that no proof unfolds a
record update. -/

namespace Sys2Proof.Machine

@[simp] theorem State.withRegs_regs (s : State) (r : Regs) : (s.withRegs r).regs = r := rfl
@[simp] theorem State.withRegs_irq (s : State) (r : Regs) : (s.withRegs r).irq = s.irq := rfl
@[simp] theorem State.withRegs_timer (s : State) (r : Regs) : (s.withRegs r).timer = s.timer := rfl
@[simp] theorem State.withRegs_ppu (s : State) (r : Regs) : (s.withRegs r).ppu = s.ppu := rfl
@[simp] theorem State.withRegs_dma (s : State) (r : Regs) : (s.withRegs r).dma = s.dma := rfl
@[simp] theorem State.withRegs_mem (s : State) (r : Regs) : (s.withRegs r).mem = s.mem := rfl
@[simp] theorem State.withRegs_fb (s : State) (r : Regs) : (s.withRegs r).fb = s.fb := rfl
@[simp] theorem State.withRegs_cfg (s : State) (r : Regs) : (s.withRegs r).cfg = s.cfg := rfl
@[simp] theorem State.withRegs_cycles (s : State) (r : Regs) : (s.withRegs r).cycles = s.cycles := rfl
@[simp] theorem State.withRegs_draws (s : State) (r : Regs) : (s.withRegs r).draws = s.draws := rfl
@[simp] theorem State.withRegs_portLog (s : State) (r : Regs) : (s.withRegs r).portLog = s.portLog := rfl

@[simp] theorem State.withIrq_regs (s : State) (q : Irq) : (s.withIrq q).regs = s.regs := rfl
@[simp] theorem State.withIrq_irq (s : State) (q : Irq) : (s.withIrq q).irq = q := rfl
@[simp] theorem State.withIrq_timer (s : State) (q : Irq) : (s.withIrq q).timer = s.timer := rfl
@[simp] theorem State.withIrq_ppu (s : State) (q : Irq) : (s.withIrq q).ppu = s.ppu := rfl
@[simp] theorem State.withIrq_dma (s : State) (q : Irq) : (s.withIrq q).dma = s.dma := rfl
@[simp] theorem State.withIrq_mem (s : State) (q : Irq) : (s.withIrq q).mem = s.mem := rfl
@[simp] theorem State.withIrq_fb (s : State) (q : Irq) : (s.withIrq q).fb = s.fb := rfl
@[simp] theorem State.withIrq_cfg (s : State) (q : Irq) : (s.withIrq q).cfg = s.cfg := rfl
@[simp] theorem State.withIrq_cycles (s : State) (q : Irq) : (s.withIrq q).cycles = s.cycles := rfl
@[simp] theorem State.withIrq_draws (s : State) (q : Irq) : (s.withIrq q).draws = s.draws := rfl
@[simp] theorem State.withIrq_portLog (s : State) (q : Irq) : (s.withIrq q).portLog = s.portLog := rfl

@[simp] theorem State.withTimer_regs (s : State) (t : Timer) : (s.withTimer t).regs = s.regs := rfl
@[simp] theorem State.withTimer_irq (s : State) (t : Timer) : (s.withTimer t).irq = s.irq := rfl
@[simp] theorem State.withTimer_timer (s : State) (t : Timer) : (s.withTimer t).timer = t := rfl
@[simp] theorem State.withTimer_ppu (s : State) (t : Timer) : (s.withTimer t).ppu = s.ppu := rfl
@[simp] theorem State.withTimer_dma (s : State) (t : Timer) : (s.withTimer t).dma = s.dma := rfl
@[simp] theorem State.withTimer_mem (s : State) (t : Timer) : (s.withTimer t).mem = s.mem := rfl
@[simp] theorem State.withTimer_fb (s : State) (t : Timer) : (s.withTimer t).fb = s.fb := rfl
@[simp] theorem State.withTimer_cfg (s : State) (t : Timer) : (s.withTimer t).cfg = s.cfg := rfl
@[simp] theorem State.withTimer_cycles (s : State) (t : Timer) : (s.withTimer t).cycles = s.cycles := rfl
@[simp] theorem State.withTimer_draws (s : State) (t : Timer) : (s.withTimer t).draws = s.draws := rfl
@[simp] theorem State.withTimer_portLog (s : State) (t : Timer) : (s.withTimer t).portLog = s.portLog := rfl

@[simp] theorem State.withPpu_regs (s : State) (p : Ppu) : (s.withPpu p).regs = s.regs := rfl
@[simp] theorem State.withPpu_irq (s : State) (p : Ppu) : (s.withPpu p).irq = s.irq := rfl
@[simp] theorem State.withPpu_timer (s : State) (p : Ppu) : (s.withPpu p).timer = s.timer := rfl
@[simp] theorem State.withPpu_ppu (s : State) (p : Ppu) : (s.withPpu p).ppu = p := rfl
@[simp] theorem State.withPpu_dma (s : State) (p : Ppu) : (s.withPpu p).dma = s.dma := rfl
@[simp] theorem State.withPpu_mem (s : State) (p : Ppu) : (s.withPpu p).mem = s.mem := rfl
@[simp] theorem State.withPpu_fb (s : State) (p : Ppu) : (s.withPpu p).fb = s.fb := rfl
@[simp] theorem State.withPpu_cfg (s : State) (p : Ppu) : (s.withPpu p).cfg = s.cfg := rfl
@[simp] theorem State.withPpu_cycles (s : State) (p : Ppu) : (s.withPpu p).cycles = s.cycles := rfl
@[simp] theorem State.withPpu_draws (s : State) (p : Ppu) : (s.withPpu p).draws = s.draws := rfl
@[simp] theorem State.withPpu_portLog (s : State) (p : Ppu) : (s.withPpu p).portLog = s.portLog := rfl

@[simp] theorem State.withDma_regs (s : State) (v : Byte) : (s.withDma v).regs = s.regs := rfl
@[simp] theorem State.withDma_irq (s : State) (v : Byte) : (s.withDma v).irq = s.irq := rfl
@[simp] theorem State.withDma_timer (s : State) (v : Byte) : (s.withDma v).timer = s.timer := rfl
@[simp] theorem State.withDma_ppu (s : State) (v : Byte) : (s.withDma v).ppu = s.ppu := rfl
@[simp] theorem State.withDma_dma (s : State) (v : Byte) : (s.withDma v).dma = v := rfl
@[simp] theorem State.withDma_mem (s : State) (v : Byte) : (s.withDma v).mem = s.mem := rfl
@[simp] theorem State.withDma_fb (s : State) (v : Byte) : (s.withDma v).fb = s.fb := rfl
@[simp] theorem State.withDma_cfg (s : State) (v : Byte) : (s.withDma v).cfg = s.cfg := rfl
@[simp] theorem State.withDma_cycles (s : State) (v : Byte) : (s.withDma v).cycles = s.cycles := rfl
@[simp] theorem State.withDma_draws (s : State) (v : Byte) : (s.withDma v).draws = s.draws := rfl
@[simp] theorem State.withDma_portLog (s : State) (v : Byte) : (s.withDma v).portLog = s.portLog := rfl

@[simp] theorem State.withMem_regs (s : State) (m : Memory) : (s.withMem m).regs = s.regs := rfl
@[simp] theorem State.withMem_irq (s : State) (m : Memory) : (s.withMem m).irq = s.irq := rfl
@[simp] theorem State.withMem_timer (s : State) (m : Memory) : (s.withMem m).timer = s.timer := rfl
@[simp] theorem State.withMem_ppu (s : State) (m : Memory) : (s.withMem m).ppu = s.ppu := rfl
@[simp] theorem State.withMem_dma (s : State) (m : Memory) : (s.withMem m).dma = s.dma := rfl
@[simp] theorem State.withMem_mem (s : State) (m : Memory) : (s.withMem m).mem = m := rfl
@[simp] theorem State.withMem_fb (s : State) (m : Memory) : (s.withMem m).fb = s.fb := rfl
@[simp] theorem State.withMem_cfg (s : State) (m : Memory) : (s.withMem m).cfg = s.cfg := rfl
@[simp] theorem State.withMem_cycles (s : State) (m : Memory) : (s.withMem m).cycles = s.cycles := rfl
@[simp] theorem State.withMem_draws (s : State) (m : Memory) : (s.withMem m).draws = s.draws := rfl
@[simp] theorem State.withMem_portLog (s : State) (m : Memory) : (s.withMem m).portLog = s.portLog := rfl

@[simp] theorem State.withFb_regs (s : State) (b : PixelBuffer) : (s.withFb b).regs = s.regs := rfl
@[simp] theorem State.withFb_irq (s : State) (b : PixelBuffer) : (s.withFb b).irq = s.irq := rfl
@[simp] theorem State.withFb_timer (s : State) (b : PixelBuffer) : (s.withFb b).timer = s.timer := rfl
@[simp] theorem State.withFb_ppu (s : State) (b : PixelBuffer) : (s.withFb b).ppu = s.ppu := rfl
@[simp] theorem State.withFb_dma (s : State) (b : PixelBuffer) : (s.withFb b).dma = s.dma := rfl
@[simp] theorem State.withFb_mem (s : State) (b : PixelBuffer) : (s.withFb b).mem = s.mem := rfl
@[simp] theorem State.withFb_fb (s : State) (b : PixelBuffer) : (s.withFb b).fb = b := rfl
@[simp] theorem State.withFb_cfg (s : State) (b : PixelBuffer) : (s.withFb b).cfg = s.cfg := rfl
@[simp] theorem State.withFb_cycles (s : State) (b : PixelBuffer) : (s.withFb b).cycles = s.cycles := rfl
@[simp] theorem State.withFb_draws (s : State) (b : PixelBuffer) : (s.withFb b).draws = s.draws := rfl
@[simp] theorem State.withFb_portLog (s : State) (b : PixelBuffer) : (s.withFb b).portLog = s.portLog := rfl

@[simp] theorem State.withCycles_regs (s : State) (n : Nat) : (s.withCycles n).regs = s.regs := rfl
@[simp] theorem State.withCycles_irq (s : State) (n : Nat) : (s.withCycles n).irq = s.irq := rfl
@[simp] theorem State.withCycles_timer (s : State) (n : Nat) : (s.withCycles n).timer = s.timer := rfl
@[simp] theorem State.withCycles_ppu (s : State) (n : Nat) : (s.withCycles n).ppu = s.ppu := rfl
@[simp] theorem State.withCycles_dma (s : State) (n : Nat) : (s.withCycles n).dma = s.dma := rfl
@[simp] theorem State.withCycles_mem (s : State) (n : Nat) : (s.withCycles n).mem = s.mem := rfl
@[simp] theorem State.withCycles_fb (s : State) (n : Nat) : (s.withCycles n).fb = s.fb := rfl
@[simp] theorem State.withCycles_cfg (s : State) (n : Nat) : (s.withCycles n).cfg = s.cfg := rfl
@[simp] theorem State.withCycles_cycles (s : State) (n : Nat) : (s.withCycles n).cycles = n := rfl
@[simp] theorem State.withCycles_draws (s : State) (n : Nat) : (s.withCycles n).draws = s.draws := rfl
@[simp] theorem State.withCycles_portLog (s : State) (n : Nat) : (s.withCycles n).portLog = s.portLog := rfl

@[simp] theorem State.withDraws_regs (s : State) (n : Nat) : (s.withDraws n).regs = s.regs := rfl
@[simp] theorem State.withDraws_irq (s : State) (n : Nat) : (s.withDraws n).irq = s.irq := rfl
@[simp] theorem State.withDraws_timer (s : State) (n : Nat) : (s.withDraws n).timer = s.timer := rfl
@[simp] theorem State.withDraws_ppu (s : State) (n : Nat) : (s.withDraws n).ppu = s.ppu := rfl
@[simp] theorem State.withDraws_dma (s : State) (n : Nat) : (s.withDraws n).dma = s.dma := rfl
@[simp] theorem State.withDraws_mem (s : State) (n : Nat) : (s.withDraws n).mem = s.mem := rfl
@[simp] theorem State.withDraws_fb (s : State) (n : Nat) : (s.withDraws n).fb = s.fb := rfl
@[simp] theorem State.withDraws_cfg (s : State) (n : Nat) : (s.withDraws n).cfg = s.cfg := rfl
@[simp] theorem State.withDraws_cycles (s : State) (n : Nat) : (s.withDraws n).cycles = s.cycles := rfl
@[simp] theorem State.withDraws_draws (s : State) (n : Nat) : (s.withDraws n).draws = n := rfl
@[simp] theorem State.withDraws_portLog (s : State) (n : Nat) : (s.withDraws n).portLog = s.portLog := rfl

@[simp] theorem State.withPortLog_regs (s : State) (l : List (Device × PortOp)) : (s.withPortLog l).regs = s.regs := rfl
@[simp] theorem State.withPortLog_irq (s : State) (l : List (Device × PortOp)) : (s.withPortLog l).irq = s.irq := rfl
@[simp] theorem State.withPortLog_timer (s : State) (l : List (Device × PortOp)) : (s.withPortLog l).timer = s.timer := rfl
@[simp] theorem State.withPortLog_ppu (s : State) (l : List (Device × PortOp)) : (s.withPortLog l).ppu = s.ppu := rfl
@[simp] theorem State.withPortLog_dma (s : State) (l : List (Device × PortOp)) : (s.withPortLog l).dma = s.dma := rfl
@[simp] theorem State.withPortLog_mem (s : State) (l : List (Device × PortOp)) : (s.withPortLog l).mem = s.mem := rfl
@[simp] theorem State.withPortLog_fb (s : State) (l : List (Device × PortOp)) : (s.withPortLog l).fb = s.fb := rfl
@[simp] theorem State.withPortLog_cfg (s : State) (l : List (Device × PortOp)) : (s.withPortLog l).cfg = s.cfg := rfl
@[simp] theorem State.withPortLog_cycles (s : State) (l : List (Device × PortOp)) : (s.withPortLog l).cycles = s.cycles := rfl
@[simp] theorem State.withPortLog_draws (s : State) (l : List (Device × PortOp)) : (s.withPortLog l).draws = s.draws := rfl
@[simp] theorem State.withPortLog_portLog (s : State) (l : List (Device × PortOp)) : (s.withPortLog l).portLog = l := rfl

@[simp] theorem State.setPc_regs (s : State) (w : Word) : (s.setPc w).regs = { s.regs with pc := w } := rfl
@[simp] theorem State.setPc_irq (s : State) (w : Word) : (s.setPc w).irq = s.irq := rfl
@[simp] theorem State.setPc_timer (s : State) (w : Word) : (s.setPc w).timer = s.timer := rfl
@[simp] theorem State.setPc_ppu (s : State) (w : Word) : (s.setPc w).ppu = s.ppu := rfl
@[simp] theorem State.setPc_dma (s : State) (w : Word) : (s.setPc w).dma = s.dma := rfl
@[simp] theorem State.setPc_mem (s : State) (w : Word) : (s.setPc w).mem = s.mem := rfl
@[simp] theorem State.setPc_fb (s : State) (w : Word) : (s.setPc w).fb = s.fb := rfl
@[simp] theorem State.setPc_cfg (s : State) (w : Word) : (s.setPc w).cfg = s.cfg := rfl
@[simp] theorem State.setPc_cycles (s : State) (w : Word) : (s.setPc w).cycles = s.cycles := rfl
@[simp] theorem State.setPc_draws (s : State) (w : Word) : (s.setPc w).draws = s.draws := rfl
@[simp] theorem State.setPc_portLog (s : State) (w : Word) : (s.setPc w).portLog = s.portLog := rfl

@[simp] theorem State.setSp_regs (s : State) (w : Word) : (s.setSp w).regs = { s.regs with sp := w } := rfl
@[simp] theorem State.setSp_irq (s : State) (w : Word) : (s.setSp w).irq = s.irq := rfl
@[simp] theorem State.setSp_timer (s : State) (w : Word) : (s.setSp w).timer = s.timer := rfl
@[simp] theorem State.setSp_ppu (s : State) (w : Word) : (s.setSp w).ppu = s.ppu := rfl
@[simp] theorem State.setSp_dma (s : State) (w : Word) : (s.setSp w).dma = s.dma := rfl
@[simp] theorem State.setSp_mem (s : State) (w : Word) : (s.setSp w).mem = s.mem := rfl
@[simp] theorem State.setSp_fb (s : State) (w : Word) : (s.setSp w).fb = s.fb := rfl
@[simp] theorem State.setSp_cfg (s : State) (w : Word) : (s.setSp w).cfg = s.cfg := rfl
@[simp] theorem State.setSp_cycles (s : State) (w : Word) : (s.setSp w).cycles = s.cycles := rfl
@[simp] theorem State.setSp_draws (s : State) (w : Word) : (s.setSp w).draws = s.draws := rfl
@[simp] theorem State.setSp_portLog (s : State) (w : Word) : (s.setSp w).portLog = s.portLog := rfl

@[simp] theorem State.setReg_regs (s : State) (r : Reg) (v : Byte) : (s.setReg r v).regs = putReg r v s.regs := rfl
@[simp] theorem State.setReg_irq (s : State) (r : Reg) (v : Byte) : (s.setReg r v).irq = s.irq := rfl
@[simp] theorem State.setReg_timer (s : State) (r : Reg) (v : Byte) : (s.setReg r v).timer = s.timer := rfl
@[simp] theorem State.setReg_ppu (s : State) (r : Reg) (v : Byte) : (s.setReg r v).ppu = s.ppu := rfl
@[simp] theorem State.setReg_dma (s : State) (r : Reg) (v : Byte) : (s.setReg r v).dma = s.dma := rfl
@[simp] theorem State.setReg_mem (s : State) (r : Reg) (v : Byte) : (s.setReg r v).mem = s.mem := rfl
@[simp] theorem State.setReg_fb (s : State) (r : Reg) (v : Byte) : (s.setReg r v).fb = s.fb := rfl
@[simp] theorem State.setReg_cfg (s : State) (r : Reg) (v : Byte) : (s.setReg r v).cfg = s.cfg := rfl
@[simp] theorem State.setReg_cycles (s : State) (r : Reg) (v : Byte) : (s.setReg r v).cycles = s.cycles := rfl
@[simp] theorem State.setReg_draws (s : State) (r : Reg) (v : Byte) : (s.setReg r v).draws = s.draws := rfl
@[simp] theorem State.setReg_portLog (s : State) (r : Reg) (v : Byte) : (s.setReg r v).portLog = s.portLog := rfl

@[simp] theorem State.setA_regs (s : State) (v : Byte) : (s.setA v).regs = { s.regs with a := v } := rfl
@[simp] theorem State.setA_irq (s : State) (v : Byte) : (s.setA v).irq = s.irq := rfl
@[simp] theorem State.setA_timer (s : State) (v : Byte) : (s.setA v).timer = s.timer := rfl
@[simp] theorem State.setA_ppu (s : State) (v : Byte) : (s.setA v).ppu = s.ppu := rfl
@[simp] theorem State.setA_dma (s : State) (v : Byte) : (s.setA v).dma = s.dma := rfl
@[simp] theorem State.setA_mem (s : State) (v : Byte) : (s.setA v).mem = s.mem := rfl
@[simp] theorem State.setA_fb (s : State) (v : Byte) : (s.setA v).fb = s.fb := rfl
@[simp] theorem State.setA_cfg (s : State) (v : Byte) : (s.setA v).cfg = s.cfg := rfl
@[simp] theorem State.setA_cycles (s : State) (v : Byte) : (s.setA v).cycles = s.cycles := rfl
@[simp] theorem State.setA_draws (s : State) (v : Byte) : (s.setA v).draws = s.draws := rfl
@[simp] theorem State.setA_portLog (s : State) (v : Byte) : (s.setA v).portLog = s.portLog := rfl

@[simp] theorem State.setFlags_regs (s : State) (f : Flags) : (s.setFlags f).regs = { s.regs with f := f } := rfl
@[simp] theorem State.setFlags_irq (s : State) (f : Flags) : (s.setFlags f).irq = s.irq := rfl
@[simp] theorem State.setFlags_timer (s : State) (f : Flags) : (s.setFlags f).timer = s.timer := rfl
@[simp] theorem State.setFlags_ppu (s : State) (f : Flags) : (s.setFlags f).ppu = s.ppu := rfl
@[simp] theorem State.setFlags_dma (s : State) (f : Flags) : (s.setFlags f).dma = s.dma := rfl
@[simp] theorem State.setFlags_mem (s : State) (f : Flags) : (s.setFlags f).mem = s.mem := rfl
@[simp] theorem State.setFlags_fb (s : State) (f : Flags) : (s.setFlags f).fb = s.fb := rfl
@[simp] theorem State.setFlags_cfg (s : State) (f : Flags) : (s.setFlags f).cfg = s.cfg := rfl
@[simp] theorem State.setFlags_cycles (s : State) (f : Flags) : (s.setFlags f).cycles = s.cycles := rfl
@[simp] theorem State.setFlags_draws (s : State) (f : Flags) : (s.setFlags f).draws = s.draws := rfl
@[simp] theorem State.setFlags_portLog (s : State) (f : Flags) : (s.setFlags f).portLog = s.portLog := rfl

@[simp] theorem State.setPair_regs (s : State) (p : Pair) (w : Word) : (s.setPair p w).regs = putPair p w s.regs := rfl
@[simp] theorem State.setPair_irq (s : State) (p : Pair) (w : Word) : (s.setPair p w).irq = s.irq := rfl
@[simp] theorem State.setPair_timer (s : State) (p : Pair) (w : Word) : (s.setPair p w).timer = s.timer := rfl
@[simp] theorem State.setPair_ppu (s : State) (p : Pair) (w : Word) : (s.setPair p w).ppu = s.ppu := rfl
@[simp] theorem State.setPair_dma (s : State) (p : Pair) (w : Word) : (s.setPair p w).dma = s.dma := rfl
@[simp] theorem State.setPair_mem (s : State) (p : Pair) (w : Word) : (s.setPair p w).mem = s.mem := rfl
@[simp] theorem State.setPair_fb (s : State) (p : Pair) (w : Word) : (s.setPair p w).fb = s.fb := rfl
@[simp] theorem State.setPair_cfg (s : State) (p : Pair) (w : Word) : (s.setPair p w).cfg = s.cfg := rfl
@[simp] theorem State.setPair_cycles (s : State) (p : Pair) (w : Word) : (s.setPair p w).cycles = s.cycles := rfl
@[simp] theorem State.setPair_draws (s : State) (p : Pair) (w : Word) : (s.setPair p w).draws = s.draws := rfl
@[simp] theorem State.setPair_portLog (s : State) (p : Pair) (w : Word) : (s.setPair p w).portLog = s.portLog := rfl

@[simp] theorem State.setHl_regs (s : State) (w : Word) : (s.setHl w).regs = putPair .hl w s.regs := rfl
@[simp] theorem State.setHl_irq (s : State) (w : Word) : (s.setHl w).irq = s.irq := rfl
@[simp] theorem State.setHl_timer (s : State) (w : Word) : (s.setHl w).timer = s.timer := rfl
@[simp] theorem State.setHl_ppu (s : State) (w : Word) : (s.setHl w).ppu = s.ppu := rfl
@[simp] theorem State.setHl_dma (s : State) (w : Word) : (s.setHl w).dma = s.dma := rfl
@[simp] theorem State.setHl_mem (s : State) (w : Word) : (s.setHl w).mem = s.mem := rfl
@[simp] theorem State.setHl_fb (s : State) (w : Word) : (s.setHl w).fb = s.fb := rfl
@[simp] theorem State.setHl_cfg (s : State) (w : Word) : (s.setHl w).cfg = s.cfg := rfl
@[simp] theorem State.setHl_cycles (s : State) (w : Word) : (s.setHl w).cycles = s.cycles := rfl
@[simp] theorem State.setHl_draws (s : State) (w : Word) : (s.setHl w).draws = s.draws := rfl
@[simp] theorem State.setHl_portLog (s : State) (w : Word) : (s.setHl w).portLog = s.portLog := rfl

@[simp] theorem scheduleEnable_regs (s : State) : (scheduleEnable s).regs = s.regs := rfl
@[simp] theorem scheduleEnable_irq (s : State) : (scheduleEnable s).irq = { s.irq with imeDelay := 2 } := rfl
@[simp] theorem scheduleEnable_timer (s : State) : (scheduleEnable s).timer = s.timer := rfl
@[simp] theorem scheduleEnable_ppu (s : State) : (scheduleEnable s).ppu = s.ppu := rfl
@[simp] theorem scheduleEnable_dma (s : State) : (scheduleEnable s).dma = s.dma := rfl
@[simp] theorem scheduleEnable_mem (s : State) : (scheduleEnable s).mem = s.mem := rfl
@[simp] theorem scheduleEnable_fb (s : State) : (scheduleEnable s).fb = s.fb := rfl
@[simp] theorem scheduleEnable_cfg (s : State) : (scheduleEnable s).cfg = s.cfg := rfl
@[simp] theorem scheduleEnable_cycles (s : State) : (scheduleEnable s).cycles = s.cycles := rfl
@[simp] theorem scheduleEnable_draws (s : State) : (scheduleEnable s).draws = s.draws := rfl
@[simp] theorem scheduleEnable_portLog (s : State) : (scheduleEnable s).portLog = s.portLog := rfl

/-! ### Outcomes -/

@[simp] theorem andThen_next {α β : Type} (x : α) (k : α → Res β) : andThen (.next x) k = k x := rfl
@[simp] theorem andThen_fault {α β : Type} (f : Fault) (k : α → Res β) : andThen (.fault f) k = .fault f := rfl
@[simp] theorem andThen_refused {α β : Type} (q : Refusal) (k : α → Res β) : andThen (.refused q) k = .refused q := rfl

/-- A sequence that ends in a next state went through a next state. -/
theorem andThen_eq_next {α β : Type} {r : Res α} {k : α → Res β} {y : β} (h : andThen r k = .next y) :
    ∃ x, r = .next x ∧ k x = .next y := by
  cases r with
  | next x => exact ⟨x, rfl, h⟩
  | fault f => cases h
  | refused q => cases h

@[simp] theorem finish_eq (n : Nat) (s : State) : finish n s = .next (s.withCycles n) := rfl

/-! ### A later update of a field replaces an earlier one -/

@[simp] theorem State.withRegs_withRegs (s : State) (r q : Regs) : (s.withRegs r).withRegs q = s.withRegs q := rfl
@[simp] theorem State.withIrq_withIrq (s : State) (r q : Irq) : (s.withIrq r).withIrq q = s.withIrq q := rfl
@[simp] theorem State.withTimer_withTimer (s : State) (t u : Timer) : (s.withTimer t).withTimer u = s.withTimer u := rfl
@[simp] theorem State.withPpu_withPpu (s : State) (p q : Ppu) : (s.withPpu p).withPpu q = s.withPpu q := rfl
@[simp] theorem State.withMem_withMem (s : State) (m n : Memory) : (s.withMem m).withMem n = s.withMem n := rfl
@[simp] theorem State.withCycles_withCycles (s : State) (m n : Nat) :
    (s.withCycles m).withCycles n = s.withCycles n := rfl

end Sys2Proof.Machine
end

