-- ==== Sys2Proof/Laws/Ops.lean ====
section
/-! SUPPORT. The shared operations over memory: what a router read and a router write can do. -/

namespace Sys2Proof.Machine

/-! ### Reads -/

theorem portNote_eq (dev : Device) (op : PortOp) (s : State) :
    portNote dev op s = { s with portLog := (portNote dev op s).portLog } := by
  unfold portNote; split <;> rfl

theorem portNote_closed {dev : Device} {s : State} (h : isOpen s.cfg dev = false) (op : PortOp) :
    portNote dev op s = s := by simp [portNote, h]

/-- A read changes nothing but the record of draws and of open devices (20 R97). -/
theorem afterRead_eq (a : Addr) (s : State) :
    afterRead a s = { s with draws := (afterRead a s).draws, portLog := (afterRead a s).portLog } := by
  unfold afterRead portNote
  repeat' split
  all_goals rfl

@[simp] theorem afterRead_regs (a : Addr) (s : State) : (afterRead a s).regs = s.regs := by rw [afterRead_eq]
@[simp] theorem afterRead_irq (a : Addr) (s : State) : (afterRead a s).irq = s.irq := by rw [afterRead_eq]
@[simp] theorem afterRead_timer (a : Addr) (s : State) : (afterRead a s).timer = s.timer := by rw [afterRead_eq]
@[simp] theorem afterRead_ppu (a : Addr) (s : State) : (afterRead a s).ppu = s.ppu := by rw [afterRead_eq]
@[simp] theorem afterRead_dma (a : Addr) (s : State) : (afterRead a s).dma = s.dma := by rw [afterRead_eq]
@[simp] theorem afterRead_mem (a : Addr) (s : State) : (afterRead a s).mem = s.mem := by rw [afterRead_eq]
@[simp] theorem afterRead_fb (a : Addr) (s : State) : (afterRead a s).fb = s.fb := by rw [afterRead_eq]
@[simp] theorem afterRead_cfg (a : Addr) (s : State) : (afterRead a s).cfg = s.cfg := by rw [afterRead_eq]
@[simp] theorem afterRead_cycles (a : Addr) (s : State) : (afterRead a s).cycles = s.cycles := by rw [afterRead_eq]

/-- A steady read leaves nothing behind. -/
theorem afterRead_steady {a : Addr} {s : State} (h : steady s.cfg a = true) : afterRead a s = s := by
  unfold steady at h
  unfold afterRead portNote
  cases hr : region a <;> simp only [hr] at h ⊢
  case rom => simp_all
  case cartRam => simp_all
  case io => cases hi : ioReg a <;> simp_all

/-- A read of a tolerated address. -/
theorem memRead_next {a : Addr} {s : State} (h : Readable s a) : memRead a s = .next (peek a s, afterRead a s) := by
  simp [memRead, h]

/-- Everything a read that answers can do. -/
theorem memRead_cases {a : Addr} {s : State} {r : Byte × State} (h : memRead a s = .next r) :
    Readable s a ∧ r = (peek a s, afterRead a s) := by
  unfold memRead at h
  split at h
  · rename_i ht; cases h; exact ⟨ht, rfl⟩
  · cases h

/-! ### Ports -/

/-- A read of an address that a port owns is that port's read. -/
theorem portReads_of {dev : Device} {model : PortModel} {a : Addr} {s : State} (ht : tolerates s.cfg a = true)
    (hp : peek a s = portRead dev a s) (ha : afterRead a s = portNote dev (.read a) s) (hd : dev ≠ .cart)
    (ho : isOpen s.cfg dev = (model == .any)) : PortReads dev model a s := by
  unfold PortReads
  cases model
  · simp only [memRead, ht, hp, ha, portRead, portNote, ho]
    cases dev <;> simp_all [portStored]
  · simp only [memRead, ht, hp, ha, portRead, portNote, ho]
    rfl

/-- A write to an address that a port owns is that port's write. -/
theorem portWrites_of {dev : Device} {model : PortModel} {a : Addr} {s : State} {v : Byte}
    (ht : tolerates s.cfg a = true) (hne : a ≠ 0xFF46#16) (hp : poke a v s = portWrite dev a v s) (hd : dev ≠ .cart)
    (ho : isOpen s.cfg dev = (model == .any)) : PortWrites dev model a v s := by
  unfold PortWrites
  cases model
  · simp only [memWrite, ht, hp, if_neg hne, portWrite, portNote, ho]
    cases dev <;> rfl
  · simp only [memWrite, ht, hp, if_neg hne, portWrite, portNote, ho]
    rfl

/-! ### What a read depends on -/

@[simp] theorem peek_withRegs (a : Addr) (s : State) (r : Regs) : peek a (s.withRegs r) = peek a s := rfl
@[simp] theorem peek_withCycles (a : Addr) (s : State) (n : Nat) : peek a (s.withCycles n) = peek a s := rfl
@[simp] theorem peek_withFb (a : Addr) (s : State) (b : PixelBuffer) : peek a (s.withFb b) = peek a s := rfl
@[simp] theorem peek_setPc (a : Addr) (s : State) (w : Word) : peek a (s.setPc w) = peek a s := rfl
@[simp] theorem peek_setSp (a : Addr) (s : State) (w : Word) : peek a (s.setSp w) = peek a s := rfl
@[simp] theorem afterRead_withRegs (a : Addr) (s : State) (r : Regs) :
    afterRead a (s.withRegs r) = (afterRead a s).withRegs r := by
  unfold afterRead portNote
  repeat' split
  all_goals simp_all
  all_goals rfl

/-- A steady read is the same in two states that differ only in the register file, the cycle count, the pixel buffer
and the record of draws and open devices. -/
theorem peek_steady {a : Addr} {s t : State} (h : steady s.cfg a = true)
    (hst : t = { s with regs := t.regs, cycles := t.cycles, fb := t.fb, draws := t.draws, portLog := t.portLog }) :
    peek a t = peek a s := by
  rw [hst]
  unfold steady at h
  unfold peek
  cases hr : region a <;> simp only [hr] at h ⊢
  case rom => simp only [portRead]; simp_all [portStored]
  case cartRam => simp only [portRead]; simp_all [portStored]
  case vram => rfl
  case oam => rfl
  case io =>
    unfold ioRead
    cases hi : ioReg a <;> simp only [hi] at h ⊢
    case joyp => simp only [portRead]; simp_all [portStored]
    case serial => simp only [portRead]; simp_all [portStored]
    case apu => simp only [portRead]; simp_all [portStored]
    all_goals simp_all [lyRead]

/-- An instruction that reads one address and then changes only registers and the cycle count. -/
theorem readsOnly_one (a : Addr) (s : State) (r : Regs) (n : Nat) :
    ReadsOnly [a] s (((afterRead a s).withRegs r).withCycles n) := by
  refine ⟨?_, ?_, ?_⟩
  · rw [afterRead_eq]; rfl
  · intro h
    rw [afterRead_steady (h a (by simp))]
    exact ⟨rfl, rfl⟩
  · rintro b (hb | h)
    · refine peek_steady hb ?_
      rw [afterRead_eq]; rfl
    · rw [afterRead_steady (h a (by simp))]
      simp

/-- An instruction that touches registers only. -/
theorem regsOnly_withRegs (s : State) (r : Regs) (n : Nat) : RegsOnly s ((s.withRegs r).withCycles n) :=
  ⟨rfl, fun _ => rfl⟩

end Sys2Proof.Machine
end

