-- ==== Sys2Proof/Laws/Writes.lean ====
section
/-! SUPPORT. Router writes: when they complete, and what they leave alone. -/

namespace Sys2Proof.Machine

/-! ### Addresses -/

theorem storageAddr_lt (a : Addr) : storageAddr a < 65536 := by
  unfold storageAddr; split <;> omega

/-- The single address of a register of the I/O page; 0 for the ranges. -/
def ioAddr (r : IoReg) : Nat :=
  match r with
  | .joyp => 0xFF00
  | .div => 0xFF04
  | .tima => 0xFF05
  | .tma => 0xFF06
  | .tac => 0xFF07
  | .iflag => 0xFF0F
  | .lcdc => 0xFF40
  | .stat => 0xFF41
  | .scy => 0xFF42
  | .scx => 0xFF43
  | .ly => 0xFF44
  | .lyc => 0xFF45
  | .dma => 0xFF46
  | .bgp => 0xFF47
  | .obp0 => 0xFF48
  | .obp1 => 0xFF49
  | .wy => 0xFF4A
  | .wx => 0xFF4B
  | .serial => 0
  | .apu => 0
  | .unowned => 0

theorem ite_cases {α : Type} {p : Prop} [Decidable p] {x y r : α} (h : (if p then x else y) = r) :
    (p ∧ x = r) ∨ (¬ p ∧ y = r) := by
  by_cases hp : p
  · rw [if_pos hp] at h; exact .inl ⟨hp, h⟩
  · rw [if_neg hp] at h; exact .inr ⟨hp, h⟩

theorem ioReg_addr {a : Addr} {r : IoReg} (h : ioReg a = r) : ioAddr r ≠ 0 → a.toNat = ioAddr r := by
  unfold ioReg at h
  repeat
    rcases ite_cases h with ⟨h0, rfl⟩ | ⟨-, h⟩
    · first
        | exact fun h => absurd rfl h
        | exact fun _ => h0
  subst h
  exact fun h => absurd rfl h

theorem ioReg_single {a : Addr} (h : ioAddr (ioReg a) ≠ 0) : a.toNat = ioAddr (ioReg a) := ioReg_addr rfl h

theorem ioReg_inj {a b : Addr} (h : ioReg b = ioReg a) (hs : ioAddr (ioReg a) ≠ 0) : b = a := by
  apply BitVec.eq_of_toNat_eq
  rw [ioReg_single hs, ioReg_single (a := b) (by rwa [h]), h]

theorem region_echo {a : Addr} (h : region a = .echo) : 0xE000 ≤ a.toNat ∧ a.toNat < 0xFE00 := by
  revert h; unfold region; simp only []
  repeat' split
  all_goals simp_all

theorem region_of_dma : region 0xFF46#16 = .io ∧ ioReg 0xFF46#16 = .dma := by decide

theorem storageAddr_of_not_echo {a : Addr} (h : region a ≠ .echo) : storageAddr a = a.toNat := by
  simp [storageAddr, h]

/-! ### What a read depends on, field by field -/

theorem peek_withMem {b : Addr} {s : State} {m : Memory}
    (h : m.get (storageAddr b) = s.mem.get (storageAddr b)) : peek b (s.withMem m) = peek b s := by
  unfold storageAddr at h
  unfold peek
  cases hr : region b <;> simp only [hr] at h ⊢ <;> simp at h ⊢
  case rom => simp only [portRead, portStored, portHistory]; simp [h]
  case vram => simp only [blocked]; simp [h]
  case oam => simp only [blocked]; simp [h]
  case cartRam =>
    have : ¬ b.toNat < 0x8000 := by
      revert hr; unfold region; simp only []
      repeat' split
      all_goals simp_all
    simp [portRead, portStored, portHistory, this]
  case io =>
    unfold ioRead
    cases hi : ioReg b <;> simp only []
    case joyp => simp only [portRead, portStored, portHistory]; simp [h]
    case serial => simp only [portRead, portStored, portHistory]; simp [h]
    case apu => simp only [portRead, portStored, portHistory]; simp [h]
    all_goals rfl
  all_goals exact h

theorem portHistory_other {d d' : Device} (h : d ≠ d') (op : PortOp) (s : State) :
    portHistory d (s.withPortLog ((d', op) :: s.portLog)) = portHistory d s := by
  have : (d' == d) = false := by simpa using fun hh : d' = d => h hh.symm
  simp [portHistory, this]

/-- Which device answers at an address. -/
def deviceAt (b : Addr) : Option Device :=
  match region b with
  | .rom => some .cart
  | .cartRam => some .cart
  | .io =>
    match ioReg b with
    | .joyp => some .joypad
    | .serial => some .serial
    | .apu => some .apu
    | _ => none
  | _ => none

theorem peek_withPortLog {b : Addr} {s : State} {d : Device} (op : PortOp) (h : deviceAt b ≠ some d) :
    peek b (s.withPortLog ((d, op) :: s.portLog)) = peek b s := by
  unfold deviceAt at h
  unfold peek
  cases hr : region b <;> simp only [hr] at h ⊢
  case rom => simp only [portRead]; rw [portHistory_other (by simpa using h)]; rfl
  case cartRam => simp only [portRead]; rw [portHistory_other (by simpa using h)]; rfl
  case io =>
    unfold ioRead
    cases hi : ioReg b <;> simp only [hi] at h ⊢
    case joyp => simp only [portRead]; rw [portHistory_other (by simpa using h)]; rfl
    case serial => simp only [portRead]; rw [portHistory_other (by simpa using h)]; rfl
    case apu => simp only [portRead]; rw [portHistory_other (by simpa using h)]; rfl
    all_goals rfl
  all_goals rfl

theorem peek_withTimer {b : Addr} {s : State} {t : Timer}
    (hd : region b = .io → ioReg b = .div → t.div = s.timer.div)
    (ha : region b = .io → ioReg b = .tima → t.tima = s.timer.tima)
    (hm : region b = .io → ioReg b = .tma → t.tma = s.timer.tma)
    (hc : region b = .io → ioReg b = .tac → t.tac = s.timer.tac) : peek b (s.withTimer t) = peek b s := by
  unfold peek
  cases hr : region b <;> simp only []
  case io =>
    unfold ioRead
    cases hi : ioReg b <;> simp only []
    case div => exact hd hr hi
    case tima => exact ha hr hi
    case tma => exact hm hr hi
    case tac => simp only [tacRead, unusedBits]; simp [hc hr hi]
    all_goals rfl
  all_goals rfl

theorem peek_withIrq {b : Addr} {s : State} {q : Irq}
    (he : region b = .ie → q.enable = s.irq.enable)
    (hf : region b = .io → ioReg b = .iflag → q.request = s.irq.request) : peek b (s.withIrq q) = peek b s := by
  unfold peek
  cases hr : region b <;> simp only []
  case ie => exact he hr
  case io =>
    unfold ioRead
    cases hi : ioReg b <;> simp only []
    case iflag => simp only [iflagRead, unusedBits]; simp [hf hr hi]
    all_goals rfl
  all_goals rfl

theorem peek_withDma {b : Addr} {s : State} {v : Byte} (h : region b = .io → ioReg b ≠ .dma) :
    peek b (s.withDma v) = peek b s := by
  unfold peek
  cases hr : region b <;> simp only []
  case io =>
    unfold ioRead
    cases hi : ioReg b <;> simp only []
    case dma => exact absurd hi (h hr)
    all_goals rfl
  all_goals rfl

/-- A change of the PPU registers is seen where a changed register is read, and through blocking. -/
theorem peek_withPpu {b : Addr} {s : State} {p : Ppu}
    (hb : region b = .vram ∨ region b = .oam → p.lcdc = s.ppu.lcdc ∧ p.mode = s.ppu.mode)
    (hlcdc : ioReg b = .lcdc → p.lcdc = s.ppu.lcdc)
    (hstat : ioReg b = .stat → p.statArm = s.ppu.statArm ∧ p.ly = s.ppu.ly ∧ p.lyc = s.ppu.lyc ∧ p.mode = s.ppu.mode)
    (hscy : ioReg b = .scy → p.scy = s.ppu.scy) (hscx : ioReg b = .scx → p.scx = s.ppu.scx)
    (hly : ioReg b = .ly → p.ly = s.ppu.ly) (hlyc : ioReg b = .lyc → p.lyc = s.ppu.lyc)
    (hbgp : ioReg b = .bgp → p.bgp = s.ppu.bgp) (hobp0 : ioReg b = .obp0 → p.obp0 = s.ppu.obp0)
    (hobp1 : ioReg b = .obp1 → p.obp1 = s.ppu.obp1) (hwy : ioReg b = .wy → p.wy = s.ppu.wy)
    (hwx : ioReg b = .wx → p.wx = s.ppu.wx) : peek b (s.withPpu p) = peek b s := by
  unfold peek
  cases hr : region b <;> simp only []
  case vram => simp only [blocked]; simp [hb (.inl hr)]
  case oam => simp only [blocked]; simp [hb (.inr hr)]
  case io =>
    unfold ioRead
    cases hi : ioReg b <;> simp only []
    case lcdc => exact hlcdc hi
    case stat => simp only [statRead, unusedBits]; simp [hstat hi]
    case scy => exact hscy hi
    case scx => exact hscx hi
    case ly => simp only [lyRead]; simp [hly hi]
    case lyc => exact hlyc hi
    case bgp => exact hbgp hi
    case obp0 => exact hobp0 hi
    case obp1 => exact hobp1 hi
    case wy => exact hwy hi
    case wx => exact hwx hi
    all_goals rfl
  all_goals rfl


/-! ### One router write -/

/-- What a router write leaves alone, beside `MemFrame`. -/
def WriteKeeps (s t : State) : Prop :=
  t.regs = s.regs ∧ t.cycles = s.cycles ∧ (s.mem.wf → t.mem.wf) ∧ (s.ppu.inPlace → t.ppu.inPlace) ∧
  (s.timer.divAcc < 256 → t.timer.divAcc < 256)

theorem touches_self {cfg : Config} {a b : Addr} (h : touches cfg a b = false) : storageAddr a ≠ storageAddr b := by
  intro hh; simp [touches, hh] at h

theorem overwrites_self {a : Addr} {k : Nat} (h : overwrites a k = false) : storageAddr a ≠ k := by
  intro hh; simp [overwrites, hh] at h

/-- A router write that only stores a byte in memory. -/
theorem store_frame {a : Addr} {s : State} {v : Byte} :
    MemFrame [] [a] s (s.withMem (s.mem.set (storageAddr a) v)) ∧
      WriteKeeps s (s.withMem (s.mem.set (storageAddr a) v)) := by
  constructor
  · simp only [MemFrame]
    simp only [State.withMem_cfg, State.withMem_fb, State.withMem_irq, State.withMem_timer, State.withMem_ppu,
      State.withMem_mem, List.mem_singleton, forall_eq, true_and, and_true, implies_true]
    refine ⟨fun k h => ?_, fun b h _ => ?_⟩
    · exact Memory.get_set_ne _ _ (overwrites_self h)
    · apply peek_withMem
      exact Memory.get_set_ne _ _ (touches_self h)
  · exact ⟨rfl, rfl, fun h => Memory.wf_set h (storageAddr_lt a) v, fun h => h, fun h => h⟩

/-- A write that does nothing. -/
theorem nothing_frame {writes : List Addr} {s : State} : MemFrame [] writes s s ∧ WriteKeeps s s := by
  constructor
  · simp [MemFrame]
  · exact ⟨rfl, rfl, fun h => h, fun h => h, fun h => h⟩

/-- A write that an open device takes. -/
theorem note_frame {a : Addr} {s : State} {d : Device} {op : PortOp} (hd : deviceAt a = some d)
    (ho : isOpen s.cfg d = true) :
    MemFrame [] [a] s (s.withPortLog ((d, op) :: s.portLog)) ∧
      WriteKeeps s (s.withPortLog ((d, op) :: s.portLog)) := by
  constructor
  · simp only [MemFrame]
    simp only [State.withPortLog_cfg, State.withPortLog_fb, State.withPortLog_irq, State.withPortLog_timer,
      State.withPortLog_ppu, State.withPortLog_mem, List.mem_singleton, forall_eq, true_and, and_true, implies_true]
    intro b h _
    apply peek_withPortLog
    intro hb
    have hne := touches_self h
    unfold touches at h
    unfold deviceAt at hd hb
    cases hra : region a <;> simp only [hra] at hd h
    case rom =>
      cases hd
      cases hrb : region b <;> simp_all
      cases hib : ioReg b <;> simp_all
    case cartRam =>
      cases hd
      cases hrb : region b <;> simp_all
      cases hib : ioReg b <;> simp_all
    case io =>
      cases hia : ioReg a <;> simp only [hia] at hd h
      case joyp =>
        cases hd
        cases hrb : region b <;> simp only [hrb] at hb
        case io =>
          cases hib : ioReg b <;> simp only [hib] at hb
          case joyp => exact hne (by rw [ioReg_inj (hib.trans hia.symm) (by rw [hia]; decide)])
          all_goals cases hb
        all_goals cases hb
      case serial =>
        cases hd
        cases hrb : region b <;> simp_all
        cases hib : ioReg b <;> simp_all
      case apu =>
        cases hd
        cases hrb : region b <;> simp_all
        cases hib : ioReg b <;> simp_all
      all_goals cases hd
    all_goals cases hd
  · exact ⟨rfl, rfl, fun h => h, fun h => h, fun h => h⟩

end Sys2Proof.Machine
end

