-- ==== Sys2Proof/Laws/Poke.lean ====
section
/-! SUPPORT. A router write, whole: `poke`, the OAM copy, `memWrite` and words. -/

namespace Sys2Proof.Machine

/-! ### `poke` -/

theorem portWrite_frame {a : Addr} {v : Byte} {s : State} {d : Device} (hd : deviceAt a = some d) :
    MemFrame [] [a] s (portWrite d a v s) ∧ WriteKeeps s (portWrite d a v s) := by
  unfold portWrite
  split
  · rename_i ho
    simp only [portNote, if_pos ho]
    exact note_frame hd ho
  · have hs : storageAddr a = a.toNat := by
      apply storageAddr_of_not_echo
      intro h
      simp [deviceAt, h] at hd
    cases d
    case cart => exact nothing_frame
    all_goals
      simp only []
      rw [← hs]
      exact store_frame

/-- The side effects on the PPU's place: a write to `LCDC` (60 R403 to R405, R411). -/
theorem writeLcdc_inPlace {p : Ppu} (h : p.inPlace) (v : Byte) : (writeLcdc v p).inPlace := by
  unfold Ppu.inPlace writeLcdc at *
  cases h1 : bitOf p.lcdc 7 <;> cases h2 : bitOf v 7 <;> simp_all [lcdOff, lcdOn, modeAt]

theorem compareLine_inPlace {p : Ppu} (h : p.inPlace) : (compareLine p).inPlace := by
  unfold compareLine; split
  · exact h
  · exact h

/-- Writes to the registers of the I/O page that are not ports. -/
theorem ioPoke_frame {a : Addr} {v : Byte} {s : State} (hr : region a = .io) :
    MemFrame [] [a] s (ioPoke a v s) ∧ WriteKeeps s (ioPoke a v s) := by
  unfold ioPoke
  cases hi : ioReg a <;> simp only []
  case joyp => exact portWrite_frame (by simp [deviceAt, hr, hi])
  case serial => exact portWrite_frame (by simp [deviceAt, hr, hi])
  case apu => exact portWrite_frame (by simp [deviceAt, hr, hi])
  case ly => exact nothing_frame
  case unowned => exact nothing_frame
  all_goals
    have hne : ∀ b, touches s.cfg a b = false → region b = .io → ioReg b ≠ ioReg a := by
      intro b h _ hb
      exact touches_self h (by rw [ioReg_inj hb (by rw [hi]; decide)])
    have hne' : ∀ b, touches s.cfg a b = false → ioReg b ≠ ioReg a := by
      intro b h hb
      exact touches_self h (by rw [ioReg_inj hb (by rw [hi]; decide)])
    have haddr : a = BitVec.ofNat 16 (ioAddr (ioReg a)) := by
      rw [← ioReg_single (a := a) (by rw [hi]; decide)]; simp
    rw [hi] at haddr hne hne'
    simp only [ioAddr] at haddr
  case div =>
    refine ⟨?_, rfl, rfl, fun h => h, fun h => h, fun h => ?_⟩
    · subst haddr
      simp only [MemFrame, writeDiv, State.withTimer, true_and, and_true, implies_true]
      refine ⟨by simp, fun b h _ => peek_withTimer (fun hr hi => absurd hi (hne b (by simpa using h) hr)) ?_ ?_ ?_⟩ <;>
        intros <;> rfl
    · simp only [State.withTimer, writeDiv]; split <;> omega
  case tima =>
    refine ⟨?_, rfl, rfl, fun h => h, fun h => h, fun h => h⟩
    simp only [MemFrame, State.withTimer, true_and, and_true, implies_true]
    refine fun b h _ => peek_withTimer ?_ (fun hr hi => absurd hi (hne b (by simpa using h) hr)) ?_ ?_ <;>
      intros <;> rfl
  case tma =>
    refine ⟨?_, rfl, rfl, fun h => h, fun h => h, fun h => h⟩
    simp only [MemFrame, State.withTimer, true_and, and_true, implies_true]
    refine fun b h _ => peek_withTimer ?_ ?_ (fun hr hi => absurd hi (hne b (by simpa using h) hr)) ?_ <;>
      intros <;> rfl
  case tac =>
    refine ⟨?_, rfl, rfl, fun h => h, fun h => h, fun h => h⟩
    subst haddr
    simp only [MemFrame, State.withTimer, true_and, and_true, implies_true]
    refine ⟨by simp, fun b h _ =>
      peek_withTimer ?_ ?_ ?_ (fun hr hi => absurd hi (hne b (by simpa using h) hr))⟩ <;>
      intros <;> rfl
  case iflag =>
    refine ⟨?_, rfl, rfl, fun h => h, fun h => h, fun h => h⟩
    subst haddr
    simp only [MemFrame, State.withIrq, true_and, and_true, implies_true]
    refine ⟨by simp, fun b h _ =>
      peek_withIrq ?_ (fun hr hi => absurd hi (hne b (by simpa using h) hr))⟩
    intros; rfl
  case dma =>
    refine ⟨?_, rfl, rfl, fun h => h, fun h => h, fun h => h⟩
    simp only [MemFrame, State.withDma, true_and, and_true, implies_true]
    exact fun b h _ => peek_withDma fun hr hi => absurd hi (hne b (by simpa using h) hr)
  case lcdc =>
    have hkeep : ∀ p : Ppu, (writeLcdc v p) =
        { p with
          lcdc := v, ly := (writeLcdc v p).ly, dot := (writeLcdc v p).dot, mode := (writeLcdc v p).mode } := by
      intro p; unfold writeLcdc lcdOff lcdOn
      simp only []
      split
      · rfl
      · split <;> rfl
    refine ⟨?_, rfl, rfl, fun h => h, fun h => writeLcdc_inPlace h v, fun h => h⟩
    subst haddr
    simp only [MemFrame, State.withPpu]
    rw [hkeep]
    simp only [true_and, implies_true]
    refine ⟨by simp, fun b h _ => ?_⟩
    have h' : touches s.cfg 0xFF40#16 b = false := by simpa using h
    have hv : region b ≠ .vram ∧ region b ≠ .oam ∧ b ≠ 0xFF41#16 ∧ b ≠ 0xFF44#16 := by
      unfold touches at h'
      simp only [hr, hi] at h'
      simpa [and_assoc] using (Bool.or_eq_false_iff.1 h').2
    have hb41 : ioReg b ≠ .stat := fun h => hv.2.2.1 (ioReg_inj (a := 0xFF41#16) (h.trans (by decide)) (by decide))
    have hb44 : ioReg b ≠ .ly := fun h => hv.2.2.2 (ioReg_inj (a := 0xFF44#16) (h.trans (by decide)) (by decide))
    refine peek_withPpu (fun h => ?_) (fun h => absurd h (hne' b h')) (fun h => absurd h hb41) ?_ ?_
      (fun h => absurd h hb44) ?_ ?_ ?_ ?_ ?_ ?_
    · rcases h with h | h
      · exact absurd h hv.1
      · exact absurd h hv.2.1
    all_goals intros; rfl
  case lyc =>
    have hkeep : ∀ p : Ppu, (writeLyc v p) = { p with lyc := v, reqStat := (writeLyc v p).reqStat } := by
      intro p; unfold writeLyc compareLine
      split <;> rfl
    refine ⟨?_, rfl, rfl, fun h => h, fun h => compareLine_inPlace h, fun h => h⟩
    subst haddr
    simp only [MemFrame, State.withPpu]
    rw [hkeep]
    simp only [true_and, and_true, implies_true]
    refine ⟨by simp, fun b h _ => ?_⟩
    have h' : touches s.cfg 0xFF45#16 b = false := by simpa using h
    have hv : b ≠ 0xFF41#16 := by
      unfold touches at h'
      simp only [hr, hi] at h'
      simpa using (Bool.or_eq_false_iff.1 h').2
    have hb41 : ioReg b ≠ .stat := fun h => hv (ioReg_inj (a := 0xFF41#16) (h.trans (by decide)) (by decide))
    refine peek_withPpu ?_ ?_ (fun h => absurd h hb41) ?_ ?_ ?_ (fun h => absurd h (hne' b h')) ?_ ?_ ?_ ?_ ?_
    · intro _; exact ⟨rfl, rfl⟩
    all_goals intros; rfl
  case stat =>
    refine ⟨?_, rfl, rfl, fun h => h, fun h => h, fun h => h⟩
    subst haddr
    simp only [MemFrame, State.withPpu, true_and, and_true, implies_true]
    refine ⟨by simp, fun b h _ => ?_⟩
    refine peek_withPpu ?_ ?_ (fun hh => absurd hh (hne' b (by simpa using h))) ?_ ?_ ?_ ?_ ?_ ?_ ?_ ?_ ?_
    · intro _; exact ⟨rfl, rfl⟩
    all_goals intros; rfl
  all_goals
    refine ⟨?_, rfl, rfl, fun h => h, fun h => h, fun h => h⟩
    simp only [MemFrame, State.withPpu, true_and, and_true, implies_true]
    refine fun b h _ => ?_
    have hx := hne' b (by simpa using h)
    refine peek_withPpu ?_ ?_ ?_ ?_ ?_ ?_ ?_ ?_ ?_ ?_ ?_ ?_
  all_goals first
    | exact fun _ => rfl
    | exact fun _ => ⟨rfl, rfl⟩
    | exact fun _ => ⟨rfl, rfl, rfl, rfl⟩
    | exact fun hh => absurd hh hx

end Sys2Proof.Machine
end

