-- ==== Sys2Proof/Laws/Frames.lean ====
section
/-! SUPPORT. Byte writes, the OAM copy, words and the stack: when they complete and what they leave alone. -/

namespace Sys2Proof.Machine

/-! ### `poke` -/

/-- A router write, less the OAM copy, leaves alone what its frame says. -/
theorem poke_frame (a : Addr) (v : Byte) (s : State) : MemFrame [] [a] s (poke a v s) ∧ WriteKeeps s (poke a v s) := by
  unfold poke
  cases hr : region a <;> simp only []
  case rom => exact portWrite_frame (by simp [deviceAt, hr])
  case cartRam => exact portWrite_frame (by simp [deviceAt, hr])
  case unmapped => exact nothing_frame
  case io => exact ioPoke_frame hr
  case ie =>
    refine ⟨?_, rfl, rfl, fun h => h, fun h => h, fun h => h⟩
    simp only [MemFrame, State.withIrq, true_and, and_true, implies_true]
    refine fun b h _ => peek_withIrq (fun hb => ?_) (fun _ _ => rfl)
    refine absurd ?_ (touches_self (show touches s.cfg a b = false by simpa using h))
    have : ∀ x, region x = .ie → x = 0xFFFF#16 := by
      intro x hx
      have hn : ¬ x.toNat < 0xFFFF := by
        revert hx; unfold region; simp only []
        repeat' split
        all_goals first
          | (intro _; assumption)
          | (intro h; cases h)
      exact BitVec.eq_of_toNat_eq (by have := x.isLt; simp only [BitVec.toNat_ofNat]; omega)
    rw [this a hr, this b hb]
  case echo =>
    have hs : storageAddr a = a.toNat - 0x2000 := by simp [storageAddr, hr]
    rw [← hs]; exact store_frame
  all_goals
    have hs : storageAddr a = a.toNat := storageAddr_of_not_echo (by rw [hr]; decide)
    rw [← hs]
    try split
    all_goals first
      | exact nothing_frame
      | exact store_frame

@[simp] theorem poke_regs (a : Addr) (v : Byte) (s : State) : (poke a v s).regs = s.regs := (poke_frame a v s).2.1
@[simp] theorem poke_cfg (a : Addr) (v : Byte) (s : State) : (poke a v s).cfg = s.cfg := (poke_frame a v s).1.1

/-! ### Frames in sequence -/

/-- `SP`, `PC` and every other register, and the cycle count, are not spoken of by a frame. -/
theorem MemFrame.regs_left {R W : List Addr} {s t : State} {r : Regs} {n : Nat} (h : MemFrame R W s t) :
    MemFrame R W s ((t.withRegs r).withCycles n) := h

theorem MemFrame.regs_right {R W : List Addr} {s t : State} {r : Regs} (h : MemFrame R W (s.withRegs r) t) :
    MemFrame R W s t := h

theorem MemFrame.refl (R W : List Addr) (s : State) : MemFrame R W s s := by simp [MemFrame]

/-- Frames compose. -/
theorem MemFrame.trans {R W R' W' : List Addr} {s t u : State} (h : MemFrame R W s t) (h' : MemFrame R' W' t u) :
    MemFrame (R ++ R') (W ++ W') s u := by
  obtain ⟨c, f, i1, i2, i3, i4, t1, t2, t3, t4, p1, p2, p3, p4, m, b⟩ := h
  obtain ⟨c', f', i1', i2', i3', i4', t1', t2', t3', t4', p1', p2', p3', p4', m', b'⟩ := h'
  simp only [MemFrame, List.mem_append, not_or]
  refine ⟨c'.trans c, f'.trans f, i1'.trans i1, i2'.trans i2, i3'.trans i3,
    fun h => (i4' h.2).trans (i4 h.1), t1'.trans t1, t2'.trans t2, fun h => (t3' h.2).trans (t3 h.1),
    fun h => (t4' h.2).trans (t4 h.1), p1'.trans p1, fun h => (p2' h.2).trans (p2 h.1),
    fun h => (p3' h.2).trans (p3 h.1), fun h => ?_, fun k h => ?_, fun x h hs => ?_⟩
  · exact ⟨(p4' h.2).1.trans (p4 h.1).1, (p4' h.2).2.1.trans (p4 h.1).2.1, (p4' h.2).2.2.trans (p4 h.1).2.2⟩
  · exact (m' k fun a ha => h a (.inr ha)).trans (m k fun a ha => h a (.inl ha))
  · refine (b' x (fun a ha => ?_) ?_).trans (b x (fun a ha => h a (.inl ha)) ?_)
    · rw [c]; exact h a (.inr ha)
    · rw [c]; exact hs.imp id fun h a ha => h a (.inr ha)
    · exact hs.imp id fun h a ha => h a (.inl ha)

/-- A frame holds for more reads and more writes. -/
theorem MemFrame.mono {R W R' W' : List Addr} {s t : State} (h : MemFrame R W s t) (hR : R ⊆ R') (hW : W ⊆ W') :
    MemFrame R' W' s t := by
  obtain ⟨c, f, i1, i2, i3, i4, t1, t2, t3, t4, p1, p2, p3, p4, m, b⟩ := h
  refine ⟨c, f, i1, i2, i3, fun h => i4 fun h' => h (hW h'), t1, t2, fun h => t3 fun h' => h (hW h'),
    fun h => t4 fun h' => h (hW h'), p1, fun h => p2 fun h' => h (hW h'), fun h => p3 fun h' => h (hW h'),
    fun h => p4 fun h' => h (hW h'), fun k h => m k fun a ha => h a (hW ha),
    fun x h hs => b x (fun a ha => h a (hW ha)) (hs.imp id fun h a ha => h a (hR ha))⟩

/-- A read leaves everything alone but the free values. -/
theorem read_frame (a : Addr) (s : State) : MemFrame [a] [] s (afterRead a s) := by
  simp only [MemFrame]
  simp only [afterRead_cfg, afterRead_fb, afterRead_irq, afterRead_timer, afterRead_ppu, afterRead_mem, true_and,
    implies_true, and_true]
  rintro b - (h | h)
  · exact peek_steady h (by rw [afterRead_eq])
  · rw [afterRead_steady (h a (by simp))]

theorem WriteKeeps.trans {s t u : State} (h : WriteKeeps s t) (h' : WriteKeeps t u) : WriteKeeps s u :=
  ⟨h'.1.trans h.1, h'.2.1.trans h.2.1, fun x => h'.2.2.1 (h.2.2.1 x), fun x => h'.2.2.2.1 (h.2.2.2.1 x),
    fun x => h'.2.2.2.2 (h.2.2.2.2 x)⟩

theorem read_keeps (a : Addr) (s : State) : WriteKeeps s (afterRead a s) := by
  simp [WriteKeeps]

/-! ### The OAM copy -/

theorem oam_addr {i : Nat} (h : i < 160) :
    storageAddr (0xFE00#16 + BitVec.ofNat 16 i) = 0xFE00 + i ∧ region (0xFE00#16 + BitVec.ofNat 16 i) = .oam := by
  have hn : (0xFE00#16 + BitVec.ofNat 16 i).toNat = 0xFE00 + i := by
    rw [BitVec.toNat_add]; simp; omega
  have hr : region (0xFE00#16 + BitVec.ofNat 16 i) = .oam := by
    unfold region; simp only [hn]
    repeat' split
    all_goals first
      | rfl
      | omega
  exact ⟨by rw [storageAddr_of_not_echo (by rw [hr]; decide), hn], hr⟩

/-- One transfer leaves alone what a write to 0xFF46 leaves alone. -/
theorem transfer_frame {i : Nat} (h : i < 160) (a : Addr) (v : Byte) (s : State) :
    MemFrame [] [0xFF46#16] s (poke (0xFE00#16 + BitVec.ofNat 16 i) v (afterRead a s)) ∧
      WriteKeeps s (poke (0xFE00#16 + BitVec.ofNat 16 i) v (afterRead a s)) := by
  refine ⟨?_, (read_keeps a s).trans (poke_frame ..).2⟩
  have h1 := (read_frame a s).trans (poke_frame (0xFE00#16 + BitVec.ofNat 16 i) v (afterRead a s)).1
  obtain ⟨ho, hr⟩ := oam_addr h
  simp only [List.nil_append, List.append_nil] at h1
  have hne : ∀ x : Addr, region x = .io → x ≠ 0xFE00#16 + BitVec.ofNat 16 i := by
    intro x hx hh; rw [hh, hr] at hx; cases hx
  obtain ⟨c, f, i1, i2, i3, i4, t1, t2, t3, t4, p1, p2, p3, p4, m, b⟩ := h1
  refine ⟨c, f, i1, i2, i3, fun _ => i4 ?_, t1, t2, fun _ => t3 ?_, fun _ => t4 ?_, p1, fun _ => p2 ?_,
    fun _ => p3 ?_, fun _ => p4 ?_, fun k h => m k ?_, fun x h hs => b x ?_ ?_⟩
  · simpa using hne _ (by decide)
  · simpa using hne _ (by decide)
  · simpa using hne _ (by decide)
  · simpa using hne _ (by decide)
  · simpa using hne _ (by decide)
  · simpa using hne _ (by decide)
  · intro y hy
    rw [List.mem_singleton.1 hy]
    have := h 0xFF46#16 (by simp)
    simp only [overwrites, ho] at this ⊢
    have hx : ¬ (0xFE00#16 + BitVec.ofNat 16 i = 0xFF46#16) := fun hh => hne _ (by decide) hh.symm
    simp [hx] at this ⊢
    omega
  · intro y hy
    rw [List.mem_singleton.1 hy]
    have h' := h 0xFF46#16 (by simp)
    have hx : region x ≠ .oam ∧ steady s.cfg x = true := by
      unfold touches at h'
      simp only [region_of_dma.1, region_of_dma.2] at h'
      simpa using (Bool.or_eq_false_iff.1 h').2
    unfold touches
    rw [hr]
    simp only [Bool.or_false, beq_eq_false_iff_ne]
    intro hh
    apply hx.1
    rw [ho] at hh
    have hx2 : 0xFE00 ≤ storageAddr x ∧ storageAddr x < 0xFEA0 := by omega
    unfold storageAddr at hx2
    unfold region
    split at hx2
    · rename_i he; have := region_echo he; omega
    · simp only []
      repeat' split
      all_goals first
        | rfl
        | omega
  · left
    have h' := h 0xFF46#16 (by simp)
    unfold touches at h'
    simp only [region_of_dma.1, region_of_dma.2] at h'
    have := (Bool.or_eq_false_iff.1 h').2
    simpa using (by simpa using this : region x ≠ .oam ∧ steady s.cfg x = true).2

/-- The copy completes when its source addresses answer, and leaves alone what a write to 0xFF46 leaves alone. -/
theorem oamDmaLast_next (n : Nat) (hn : n ≤ 160) (base : Addr) (s : State)
    (h : ∀ i, 160 - n ≤ i → i < 160 → tolerates s.cfg (base + BitVec.ofNat 16 i) = true) :
    ∃ u, oamDmaLast n base s = .next u ∧ MemFrame [] [0xFF46#16] s u ∧ WriteKeeps s u := by
  induction n generalizing s with
  | zero => exact ⟨s, rfl, nothing_frame⟩
  | succ m ih =>
    have hr : Readable s (base + BitVec.ofNat 16 (159 - m)) := h (159 - m) (by omega) (by omega)
    have hf := transfer_frame (i := 159 - m) (by omega) (base + BitVec.ofNat 16 (159 - m))
      (peek (base + BitVec.ofNat 16 (159 - m)) s) s
    obtain ⟨u, hu, hu1, hu2⟩ := ih (by omega)
      (poke (0xFE00#16 + BitVec.ofNat 16 (159 - m)) (peek (base + BitVec.ofNat 16 (159 - m)) s)
        (afterRead (base + BitVec.ofNat 16 (159 - m)) s))
      (fun i h1 h2 => by rw [hf.1.1]; exact h i (by omega) h2)
    refine ⟨u, ?_, ?_, hf.2.trans hu2⟩
    · simp only [oamDmaLast, memRead_next hr, andThen_next]; exact hu
    · exact (hf.1.trans hu1).mono (by simp) (by simp)

/-- Everything a copy that completes can do. -/
theorem oamDmaLast_frame (n : Nat) (hn : n ≤ 160) (base : Addr) {s u : State} (h : oamDmaLast n base s = .next u) :
    MemFrame [] [0xFF46#16] s u ∧ WriteKeeps s u := by
  induction n generalizing s with
  | zero => cases h; exact nothing_frame
  | succ m ih =>
    simp only [oamDmaLast] at h
    obtain ⟨r, hr, h⟩ := andThen_eq_next h
    obtain ⟨-, rfl⟩ := memRead_cases hr
    have hf := transfer_frame (i := 159 - m) (by omega) (base + BitVec.ofNat 16 (159 - m))
      (peek (base + BitVec.ofNat 16 (159 - m)) s) s
    have h2 := ih (by omega) h
    exact ⟨(hf.1.trans h2.1).mono (by simp) (by simp), hf.2.trans h2.2⟩

/-! ### Byte writes -/

/-- A storable byte is stored. -/
theorem memWrite_next {a : Addr} {v : Byte} {s : State} (h : Storable s a v) : ∃ u, memWrite a v s = .next u := by
  unfold memWrite
  rw [if_pos h.1]
  split
  · rename_i ha
    obtain ⟨u, hu, -⟩ := oamDmaLast_next 160 (by omega) (mkWord v 0) (poke a v s)
      (fun i _ hi => by rw [poke_cfg]; exact h.2 ha i hi)
    exact ⟨u, hu⟩
  · exact ⟨_, rfl⟩

/-- Everything a byte write that completes can do. -/
theorem memWrite_frame {a : Addr} {v : Byte} {s u : State} (h : memWrite a v s = .next u) :
    MemFrame [] [a] s u ∧ WriteKeeps s u := by
  unfold memWrite at h
  split at h
  · have hp := poke_frame a v s
    split at h
    · rename_i ha
      have hd := oamDmaLast_frame 160 (by omega) (mkWord v 0) h
      subst ha
      exact ⟨(hp.1.trans hd.1).mono (by simp) (by simp), hp.2.trans hd.2⟩
    · cases h; exact hp
  · cases h

/-- A byte write that completes was to an address that answers. -/
theorem memWrite_readable {a : Addr} {v : Byte} {s u : State} (h : memWrite a v s = .next u) : Readable s a := by
  unfold memWrite at h
  split at h
  · assumption
  · cases h

/-! ### Words and the stack -/

/-- A storable word is stored. -/
theorem memWriteWord_next {a : Addr} {w : Word} {s : State} (h : StorableWord s a w) :
    ∃ u, memWriteWord a w s = .next u := by
  obtain ⟨t, ht⟩ := memWrite_next h.1
  obtain ⟨u, hu⟩ := memWrite_next (a := a + 1) (v := hi8 w) (s := t) (by
    have hc := (memWrite_frame ht).1.1
    simpa only [Storable, hc] using h.2)
  exact ⟨u, by simp only [memWriteWord, ht, andThen_next, hu]⟩

/-- Everything a word write that completes can do. -/
theorem memWriteWord_frame {a : Addr} {w : Word} {s u : State} (h : memWriteWord a w s = .next u) :
    MemFrame [] [a, a + 1] s u ∧ WriteKeeps s u := by
  obtain ⟨t, ht, hu⟩ := andThen_eq_next h
  have h1 := memWrite_frame ht
  have h2 := memWrite_frame hu
  exact ⟨(h1.1.trans h2.1).mono (by simp) (by simp), h1.2.trans h2.2⟩

/-- A word read of two readable addresses. -/
theorem memReadWord_next {a : Addr} {s : State} (h : Readable s a) (h' : Readable s (a + 1)) :
    memReadWord a s =
      .next (mkWord (peek (a + 1) (afterRead a s)) (peek a s), afterRead (a + 1) (afterRead a s)) := by
  simp only [memReadWord, memRead_next h, andThen_next]
  rw [memRead_next (show Readable (afterRead a s) (a + 1) by simpa only [Readable, afterRead_cfg] using h')]
  rfl

/-- Everything a word read that completes can do. -/
theorem memReadWord_cases {a : Addr} {s : State} {r : Word × State} (h : memReadWord a s = .next r) :
    r = (mkWord (peek (a + 1) (afterRead a s)) (peek a s), afterRead (a + 1) (afterRead a s)) := by
  obtain ⟨x, hx, h⟩ := andThen_eq_next h
  obtain ⟨-, rfl⟩ := memRead_cases hx
  obtain ⟨y, hy, h⟩ := andThen_eq_next h
  obtain ⟨-, rfl⟩ := memRead_cases hy
  cases h; rfl

/-- Two reads leave everything alone but the free values. -/
theorem readsOnly_two (a b : Addr) (s : State) (r : Regs) (n : Nat) :
    ReadsOnly [a, b] s (((afterRead b (afterRead a s)).withRegs r).withCycles n) := by
  refine ⟨?_, ?_, ?_⟩
  · rw [afterRead_eq b, afterRead_eq a]; rfl
  · intro h
    rw [afterRead_steady (show steady s.cfg a = true from h a (by simp)),
      afterRead_steady (show steady s.cfg b = true from h b (by simp))]
    exact ⟨rfl, rfl⟩
  · rintro c (hc | h)
    · refine peek_steady hc ?_
      rw [afterRead_eq b, afterRead_eq a]; rfl
    · rw [afterRead_steady (show steady s.cfg a = true from h a (by simp)),
        afterRead_steady (show steady s.cfg b = true from h b (by simp))]
      simp

/-- A push of a storable word. -/
theorem push16_next {w : Word} {s : State} (h : StorableWord s (s.regs.sp - 2) w) : ∃ u, push16 w s = .next u :=
  memWriteWord_next (s := s.setSp (s.regs.sp - 2)) h

/-- Everything a push that completes can do. -/
theorem push16_frame {w : Word} {s u : State} (h : push16 w s = .next u) :
    MemFrame [] [s.regs.sp - 2, s.regs.sp - 2 + 1] s u ∧ WriteKeeps (s.setSp (s.regs.sp - 2)) u := by
  have := memWriteWord_frame (a := s.regs.sp - 2) (s := s.setSp (s.regs.sp - 2)) h
  exact this

/-- A pop from two readable addresses. -/
theorem pop16_next {s : State} (h : Readable s s.regs.sp) (h' : Readable s (s.regs.sp + 1)) :
    pop16 s = .next (mkWord (peek (s.regs.sp + 1) (afterRead s.regs.sp s)) (peek s.regs.sp s),
      (afterRead (s.regs.sp + 1) (afterRead s.regs.sp s)).setSp (s.regs.sp + 2)) := by
  simp [pop16, memReadWord_next h h']

end Sys2Proof.Machine
end

