-- ==== Sys2Proof/Laws/Ppu.lean ====
section
/-! SUPPORT. One cycle of the PPU, the pixels of tiles, and what a run of the devices leaves alone. -/

namespace Sys2Proof.Machine

/-! ### The registers in one cycle -/

theorem compareLine_eq (p : Ppu) : compareLine p = { p with reqStat := (compareLine p).reqStat } := by
  unfold compareLine; split <;> rfl

@[simp] theorem compareLine_ly (p : Ppu) : (compareLine p).ly = p.ly := by rw [compareLine_eq]
@[simp] theorem compareLine_dot (p : Ppu) : (compareLine p).dot = p.dot := by rw [compareLine_eq]
@[simp] theorem compareLine_mode (p : Ppu) : (compareLine p).mode = p.mode := by rw [compareLine_eq]
@[simp] theorem compareLine_lcdc (p : Ppu) : (compareLine p).lcdc = p.lcdc := by rw [compareLine_eq]
@[simp] theorem compareLine_statArm (p : Ppu) : (compareLine p).statArm = p.statArm := by rw [compareLine_eq]
@[simp] theorem compareLine_lyc (p : Ppu) : (compareLine p).lyc = p.lyc := by rw [compareLine_eq]
@[simp] theorem compareLine_reqVblank (p : Ppu) : (compareLine p).reqVblank = p.reqVblank := by rw [compareLine_eq]

@[simp] theorem enterMode_ly (m : PpuMode) (b : Nat) (p : Ppu) : (enterMode m b p).ly = p.ly := rfl
@[simp] theorem enterMode_dot (m : PpuMode) (b : Nat) (p : Ppu) : (enterMode m b p).dot = p.dot := rfl
@[simp] theorem enterMode_mode (m : PpuMode) (b : Nat) (p : Ppu) : (enterMode m b p).mode = m := rfl
@[simp] theorem enterMode_lcdc (m : PpuMode) (b : Nat) (p : Ppu) : (enterMode m b p).lcdc = p.lcdc := rfl

/-- A cycle changes the position, the mode and the one-shot flags only. -/
theorem advanceDot_eq (p : Ppu) :
    advanceDot p =
      { p with
        ly := (advanceDot p).ly, dot := (advanceDot p).dot, mode := (advanceDot p).mode,
        reqStat := (advanceDot p).reqStat, reqVblank := (advanceDot p).reqVblank } := by
  unfold advanceDot
  simp only []
  repeat' split
  all_goals try rw [compareLine_eq]
  all_goals rfl

@[simp] theorem advanceDot_lcdc (p : Ppu) : (advanceDot p).lcdc = p.lcdc := by rw [advanceDot_eq]

/-- Where a cycle goes: the next dot, or the start of the next line, line 0 after 153 (60 R401). -/
theorem advanceDot_position {p : Ppu} (hl : p.ly < 154) :
    (advanceDot p).dot = (if p.dot = 455 then 0 else p.dot + 1) ∧
    (advanceDot p).ly = (if p.dot = 455 then (if p.ly = 153 then 0 else p.ly + 1) else p.ly) := by
  unfold advanceDot
  simp only []
  repeat' split
  all_goals simp only [compareLine_ly, compareLine_dot, enterMode_ly, enterMode_dot]
  all_goals first | omega | exact ⟨trivial, trivial⟩

/-- The mode after a cycle is the mode of the new position (60 R411). -/
theorem advanceDot_mode {p : Ppu} (hl : p.ly < 154) (hd : p.dot < 456) (hm : p.mode = modeAt p.ly p.dot) :
    (advanceDot p).mode = modeAt (advanceDot p).ly (advanceDot p).dot := by
  obtain ⟨e1, e2⟩ := advanceDot_position hl
  rw [e1, e2]
  clear e1 e2
  unfold advanceDot
  simp only []
  unfold modeAt at hm ⊢
  repeat' split
  all_goals simp only [compareLine_mode, enterMode_mode, hm]
  all_goals first | rfl | omega | skip
  all_goals (repeat' split)
  all_goals first | rfl | omega

/-- With the LCD on, a cycle leaves the PPU in place. -/
theorem advanceDot_inPlace {p : Ppu} (hon : bitOf p.lcdc 7 = true) (h : p.inPlace) : (advanceDot p).inPlace := by
  rw [Ppu.inPlace, if_pos hon] at h
  rw [Ppu.inPlace, advanceDot_lcdc, if_pos hon]
  obtain ⟨h1, h2, h3⟩ := h
  refine ⟨?_, ?_, advanceDot_mode h1 h2 h3⟩
  · rw [(advanceDot_position h1).2]; split <;> (try split) <;> omega
  · rw [(advanceDot_position h1).1]; split <;> omega

/-! ### A run of the devices -/

theorem ppuTick_ppu (s : State) : (ppuTick s).ppu = advanceDot s.ppu := by
  unfold ppuTick; simp only []; split <;> rfl

/-- A PPU cycle changes the PPU and the pixel buffer only. -/
theorem ppuTick_eq (s : State) : ppuTick s = { s with ppu := advanceDot s.ppu, fb := (ppuTick s).fb } := by
  unfold ppuTick; simp only []; split <;> rfl

theorem ppuTick_fb_wf {s : State} (h : s.fb.wf) : (ppuTick s).fb.wf := by
  unfold ppuTick
  simp only []
  split
  · rename_i hd
    exact PixelBuffer.wf_setLine h hd.1 (by simp [composeLine])
  · exact h

/-- The cycles of a run are run one after the other. -/
theorem ppuTicks_add (m n : Nat) (s : State) : ppuTicks (m + n) s = ppuTicks n (ppuTicks m s) := by
  induction m generalizing s with
  | zero => rw [Nat.zero_add]; rfl
  | succ m ih => rw [Nat.succ_add]; exact ih (ppuTick s)

/-- A run of the PPU changes the PPU and the pixel buffer only. -/
theorem ppuTicks_eq (n : Nat) (s : State) :
    ppuTicks n s = { s with ppu := (ppuTicks n s).ppu, fb := (ppuTicks n s).fb } := by
  induction n generalizing s with
  | zero => rfl
  | succ n ih =>
    have e := ppuTick_eq s
    rw [ppuTicks]
    generalize ppuTick s = u at e ⊢
    rw [ih u]
    generalize (ppuTicks n u).ppu = p
    generalize (ppuTicks n u).fb = fb
    rw [e]

theorem ppuTicks_fb_wf (n : Nat) {s : State} (h : s.fb.wf) : (ppuTicks n s).fb.wf := by
  induction n generalizing s with
  | zero => exact h
  | succ n ih => exact ih (ppuTick_fb_wf h)

/-- With the LCD on, a run leaves the PPU in place. -/
theorem ppuTicks_inPlace (n : Nat) {s : State} (hon : bitOf s.ppu.lcdc 7 = true) (h : s.ppu.inPlace) :
    (ppuTicks n s).ppu.inPlace ∧ (ppuTicks n s).ppu.lcdc = s.ppu.lcdc := by
  induction n generalizing s with
  | zero => exact ⟨h, rfl⟩
  | succ n ih =>
    have h1 := ppuTick_ppu s
    have h2 := ih (s := ppuTick s) (by rw [h1, advanceDot_lcdc]; exact hon) (by rw [h1]; exact advanceDot_inPlace hon h)
    exact ⟨h2.1, by rw [ppuTicks, h2.2, h1, advanceDot_lcdc]⟩

/-- A run of the PPU changes the PPU and the pixel buffer only, and keeps both in form. -/
theorem ppuRun_eq (n : Nat) (s : State) :
    ppuRun n s = { s with ppu := (ppuRun n s).ppu, fb := (ppuRun n s).fb } ∧
    (s.fb.wf → (ppuRun n s).fb.wf) ∧ (s.ppu.inPlace → (ppuRun n s).ppu.inPlace) := by
  by_cases hon : bitOf s.ppu.lcdc 7 = true
  · have e : ppuRun n s = ppuTicks n s := by rw [ppuRun, if_pos hon]
    rw [e]
    exact ⟨ppuTicks_eq n s, ppuTicks_fb_wf n, fun h => (ppuTicks_inPlace n hon h).1⟩
  · have e : ppuRun n s = s := by rw [ppuRun, if_neg hon]
    rw [e]
    exact ⟨rfl, id, id⟩

/-! ### Tiles -/

/-- The pixel of a tile row, as a number. -/
theorem tileRowPixel_toNat (m : Memory) (base row : Nat) {bit : Nat} (h : bit < 8) :
    (tileRowPixel m base row bit).toNat = rowColour m (base + 2 * row) (7 - bit) := by
  have e : 7 - (7 - bit) = bit := by omega
  unfold tileRowPixel rowColour bitOf
  rw [e]
  dsimp only
  generalize (Memory.get m (base + 2 * row)).getLsbD bit = a
  generalize (Memory.get m (base + 2 * row + 1)).getLsbD bit = b
  revert a b
  decide

/-- The pixel of a plane of tiles, as a number; both ways of numbering the tiles (60 R422). -/
theorem tilePixel_toNat (s : State) (map px py : Nat) :
    (tilePixel s.mem s.ppu.lcdc map px py).toNat = planeColour s map px py := by
  have e : 7 - (7 - px % 8) = px % 8 := by omega
  have e2 : map + py / 8 * 32 + px / 8 = map + 32 * (py / 8) + px / 8 := by omega
  unfold tilePixel
  simp only []
  rw [tileRowPixel_toNat _ _ _ (by omega)]
  unfold planeColour tileBase bitOf
  rw [e, e2]
  generalize s.mem.get _ = idx
  have ht := BitVec.toInt_eq_toNat_cond idx
  dsimp only
  congr 1
  cases s.ppu.lcdc.getLsbD 4
  · by_cases h : 128 ≤ idx.toNat
    · rw [if_neg (by omega)] at ht
      simp [h]
      omega
    · rw [if_pos (by omega)] at ht
      simp [h]
      omega
  · simp
    omega

/-! ### The timer -/

theorem timaTicks_eq (k : Nat) (t : Timer) :
    timaTicks k t = { t with tima := (timaTicks k t).tima, reqTimer := (timaTicks k t).reqTimer } := by
  induction k generalizing t with
  | zero => rfl
  | succ k ih =>
    have e : timaTick t = { t with tima := (timaTick t).tima, reqTimer := (timaTick t).reqTimer } := by
      unfold timaTick; split <;> rfl
    rw [timaTicks]
    generalize timaTick t = u at e ⊢
    rw [ih u]
    generalize (timaTicks k u).tima = x
    generalize (timaTicks k u).reqTimer = y
    rw [e]

theorem timaTicks_add (m n : Nat) (t : Timer) : timaTicks (m + n) t = timaTicks n (timaTicks m t) := by
  induction m generalizing t with
  | zero => rw [Nat.zero_add]; rfl
  | succ m ih => rw [Nat.succ_add]; exact ih (timaTick t)

/-- After a run the divider's accumulator is below 256 (10 R42). -/
theorem timerRun_divAcc (n : Nat) (t : Timer) : (timerRun n t).divAcc = (t.divAcc + n) % 256 := by
  unfold timerRun runCounter
  split
  · rw [timaTicks_eq]; rfl
  · rfl

/-! ### The devices' part of a step -/

/-- What the devices' advance leaves alone. -/
theorem busRun_keeps (c : Nat) (s : State) :
    (busRun c s).regs = s.regs ∧ (busRun c s).mem = s.mem ∧ (busRun c s).dma = s.dma ∧ (busRun c s).cfg = s.cfg ∧
    (busRun c s).cycles = s.cycles ∧ (busRun c s).draws = s.draws ∧ (busRun c s).portLog = s.portLog ∧
    (busRun c s).irq.ime = s.irq.ime ∧ (busRun c s).irq.imeDelay = s.irq.imeDelay ∧
    (busRun c s).irq.halted = s.irq.halted ∧ (busRun c s).irq.enable = s.irq.enable := by
  unfold busRun
  rw [(ppuRun_eq c s).1]
  exact ⟨rfl, rfl, rfl, rfl, rfl, rfl, rfl, rfl, rfl, rfl, rfl⟩

/-- The devices' advance keeps the pixel buffer and the PPU in form. -/
theorem busRun_form (c : Nat) (s : State) :
    (s.fb.wf → (busRun c s).fb.wf) ∧ (s.ppu.inPlace → (busRun c s).ppu.inPlace) :=
  ⟨(ppuRun_eq c s).2.1, (ppuRun_eq c s).2.2⟩

end Sys2Proof.Machine
end

