-- ==== Sys2Proof/Laws/Operands.lean ====
section
/-! SUPPORT. Words and bytes, the operand forms, and the shapes of an instruction that touches registers only, loads a
byte or stores one. -/

namespace Sys2Proof.Machine

/-! ### Words and bytes -/

theorem mkWord_toNat (hi lo : Byte) : (mkWord hi lo).toNat = hi.toNat * 256 + lo.toNat := by
  have := lo.isLt
  unfold mkWord
  rw [BitVec.toNat_append, ← Nat.shiftLeft_add_eq_or_of_lt lo.isLt, Nat.shiftLeft_eq]

theorem hi8_toNat (w : Word) : (hi8 w).toNat = w.toNat / 256 := by
  have := w.isLt
  simp only [hi8, BitVec.extractLsb'_toNat, Nat.shiftRight_eq_div_pow]
  omega

theorem lo8_toNat (w : Word) : (lo8 w).toNat = w.toNat % 256 := by
  simp [lo8, BitVec.extractLsb'_toNat]

@[simp] theorem hi8_mkWord (hi lo : Byte) : hi8 (mkWord hi lo) = hi := by
  apply BitVec.eq_of_toNat_eq
  have := lo.isLt
  rw [hi8_toNat, mkWord_toNat]
  omega

@[simp] theorem lo8_mkWord (hi lo : Byte) : lo8 (mkWord hi lo) = lo := by
  apply BitVec.eq_of_toNat_eq
  have := lo.isLt
  rw [lo8_toNat, mkWord_toNat]
  omega

@[simp] theorem mkWord_hi8_lo8 (w : Word) : mkWord (hi8 w) (lo8 w) = w := by
  apply BitVec.eq_of_toNat_eq
  rw [mkWord_toNat, hi8_toNat, lo8_toNat]
  omega

/-! ### Registers and pairs -/

@[simp] theorem getReg_putReg (r : Reg) (v : Byte) (g : Regs) : getReg r (putReg r v g) = v := by cases r <;> rfl
@[simp] theorem getReg_flags (r : Reg) (g : Regs) (f : Flags) : getReg r { g with f := f } = getReg r g := by
  cases r <;> rfl
@[simp] theorem putReg_f (r : Reg) (v : Byte) (g : Regs) : (putReg r v g).f = g.f := by cases r <;> rfl
@[simp] theorem putReg_sp (r : Reg) (v : Byte) (g : Regs) : (putReg r v g).sp = g.sp := by cases r <;> rfl
@[simp] theorem putReg_pc (r : Reg) (v : Byte) (g : Regs) : (putReg r v g).pc = g.pc := by cases r <;> rfl

/-- A write of a register changes no other one. -/
theorem getReg_putReg_ne {r q : Reg} (h : q ≠ r) (v : Byte) (g : Regs) : getReg q (putReg r v g) = getReg q g := by
  cases r <;> cases q <;> first | rfl | exact absurd rfl h

theorem sameBut_putReg (r : Reg) (v : Byte) (g : Regs) : SameBut [r] g (putReg r v g) :=
  ⟨fun q hq => getReg_putReg_ne (by simpa using hq) v g, by simp, by simp⟩

theorem sameBut_putReg_flags (r : Reg) (v : Byte) (f : Flags) (g : Regs) :
    SameBut [r] g { putReg r v g with f := f } :=
  ⟨fun q hq => by rw [getReg_flags]; exact getReg_putReg_ne (by simpa using hq) v g, by simp, by simp⟩

/-- The number of a pair is the number of its word. -/
theorem pairValue_eq (p : Pair) (g : Regs) : pairValue p g = (getPair p g).toNat := by
  cases p <;> simp [pairValue, getPair, mkWord_toNat]

@[simp] theorem getPair_putPair (p : Pair) (w : Word) (g : Regs) : getPair p (putPair p w g) = w := by
  cases p <;> simp [getPair, putPair]

@[simp] theorem putPair_f (p : Pair) (w : Word) (g : Regs) : (putPair p w g).f = g.f := by cases p <;> rfl
@[simp] theorem putPair_pc (p : Pair) (w : Word) (g : Regs) : (putPair p w g).pc = g.pc := by cases p <;> rfl

theorem sameButPair_putPair (p : Pair) (w : Word) (g : Regs) : SameButPair p g (putPair p w g) := by
  cases p
  case sp => exact ⟨fun r => by cases r <;> rfl, rfl⟩
  all_goals
    refine ⟨fun r hr => ?_, rfl, rfl⟩
    cases r <;> first | rfl | simp at hr

/-! ### Shapes -/

/-- An instruction whose meaning is an update of the register file. -/
theorem changesRegisters_of {i : Instr} {n : Nat} {post : Regs → Regs → Prop} (f : Regs → Regs)
    (h : ∀ s, exec i s = .next ((s.withRegs (f s.regs)).withCycles n)) (hp : ∀ g, post g (f g)) :
    ChangesRegisters i n post := fun s => ⟨_, h s, regsOnly_withRegs s _ n, rfl, hp s.regs⟩

/-- An instruction whose meaning is one read and an update of the register file by the byte. -/
theorem loadsByte_of {i : Instr} {addr : State → Addr} {n : Nat} {post : Regs → Byte → Regs → Prop}
    (f : Byte → Regs → Regs)
    (h : ∀ s, Readable s (addr s) →
      exec i s = .next (((afterRead (addr s) s).withRegs (f (peek (addr s) s) s.regs)).withCycles n))
    (hp : ∀ v g, post g v (f v g)) : LoadsByte i addr n post :=
  fun s hs => ⟨_, h s hs, readsOnly_one _ _ _ _, rfl, hp _ _⟩

/-- An instruction whose meaning is one write and an update of the register file. -/
theorem storesByte_of {i : Instr} {addr : State → Addr} {val : State → Byte} {n : Nat} {after : Regs → Regs}
    (h : ∀ s u, memWrite (addr s) (val s) s = .next u → u.regs = s.regs →
      exec i s = .next ((u.withRegs (after s.regs)).withCycles n)) : StoresByte i addr val n after := by
  intro s hs
  obtain ⟨u, hu⟩ := memWrite_next hs
  have hf := memWrite_frame hu
  exact ⟨u, _, hu, h s u hu hf.2.1, rfl, hf.1.regs_left⟩

/-- Writing back the register file that is there changes nothing. -/
theorem withRegs_same {u : State} {g : Regs} (h : u.regs = g) : u.withRegs g = u := by subst h; rfl

theorem withByte_next {a : Addr} {s : State} (h : Readable s a) (k : Byte → State → Res State) :
    withByte a s k = k (peek a s) (afterRead a s) := by simp [withByte, memRead_next h]

theorem loadReg_next {a : Addr} {s : State} (h : Readable s a) (r : Reg) (n : Nat) :
    loadReg r a n s =
      .next (((afterRead a s).withRegs (putReg r (peek a s) s.regs)).withCycles n) := by
  simp [loadReg, withByte_next h, State.setReg]

end Sys2Proof.Machine
end

