-- ==== Sys2Proof/Laws/Words.lean ====
section
/-! SUPPORT. Plain RAM, words in it, and the shapes of an instruction that pushes or pops. -/

namespace Sys2Proof.Machine

/-! ### Plain RAM -/

theorem region_of_isRam {a : Addr} (h : isRam a = true) : region a = .wram ∨ region a = .echo ∨ region a = .hram := by
  simpa [isRam, or_assoc] using h

theorem isRam_ne_dma {a : Addr} (h : isRam a = true) : a ≠ 0xFF46#16 := by
  rintro rfl; revert h; decide

theorem readable_of_isRam {a : Addr} (h : isRam a = true) (s : State) : Readable s a := by
  rcases region_of_isRam h with h | h | h <;> simp [Readable, tolerates, h]

theorem steady_of_isRam {a : Addr} (h : isRam a = true) (cfg : Config) : steady cfg a = true := by
  rcases region_of_isRam h with h | h | h <;> simp [steady, h]

/-- Plain RAM reads as stored. -/
theorem peek_ram {a : Addr} (h : isRam a = true) (s : State) : peek a s = s.mem.get (storageAddr a) := by
  rcases region_of_isRam h with h | h | h <;> simp [peek, storageAddr, h]

/-- A read of plain RAM. -/
theorem memRead_ram {a : Addr} (h : isRam a = true) (s : State) :
    memRead a s = .next (s.mem.get (storageAddr a), s) := by
  rw [memRead_next (readable_of_isRam h s), peek_ram h, afterRead_steady (steady_of_isRam h s.cfg)]

/-- A write to plain RAM stores the byte and does nothing else. -/
theorem memWrite_ram {a : Addr} (h : isRam a = true) (v : Byte) (s : State) :
    memWrite a v s = .next (s.withMem (s.mem.set (storageAddr a) v)) := by
  have ht : tolerates s.cfg a = true := readable_of_isRam h s
  rw [memWrite, if_pos ht, if_neg (isRam_ne_dma h)]
  rcases region_of_isRam h with h | h | h <;> simp [poke, storageAddr, h]

/-- The storage addresses of neighbours in plain RAM differ. -/
theorem storageAddr_succ_ne {a : Addr} (h' : isRam (a + 1) = true) :
    storageAddr a ≠ storageAddr (a + 1) := by
  have hne : a + 1 ≠ 0#16 := by
    intro h0; rw [h0] at h'; revert h'; decide
  have hs : (a + 1).toNat = a.toNat + 1 := by
    have : (a + 1).toNat = (a.toNat + 1) % 65536 := by simp [BitVec.toNat_add]
    have hz : (a + 1).toNat ≠ 0 := fun h0 => hne (BitVec.eq_of_toNat_eq (by simpa using h0))
    omega
  unfold storageAddr
  by_cases h1 : region a = .echo
  · have := region_echo h1
    by_cases h2 : region (a + 1) = .echo
    · rw [if_pos h1, if_pos h2]; omega
    · rw [if_pos h1, if_neg h2]; omega
  · by_cases h2 : region (a + 1) = .echo
    · have := region_echo h2
      rw [if_neg h1, if_pos h2]; omega
    · rw [if_neg h1, if_neg h2]; omega

/-- A word written where both bytes lie in plain RAM is read there. -/
theorem memWriteWord_ram {a : Addr} (h : isRam a = true) (h' : isRam (a + 1) = true) (w : Word) (s : State) :
    memWriteWord a w s =
      .next (s.withMem ((s.mem.set (storageAddr a) (lo8 w)).set (storageAddr (a + 1)) (hi8 w))) := by
  simp only [memWriteWord, memWrite_ram h, memWrite_ram h', andThen_next]
  rfl

theorem memWriteWord_holds {a : Addr} {w : Word} {s u : State} (h : memWriteWord a w s = .next u) :
    HoldsWord a w u := by
  intro h1 h2
  rw [memWriteWord_ram h1 h2] at h
  cases h
  rw [peek_ram h1, peek_ram h2]
  simp only [State.withMem_mem]
  exact ⟨by rw [Memory.get_set_ne _ _ (storageAddr_succ_ne h2).symm, Memory.get_set_self],
    Memory.get_set_self _ _ _⟩

/-- Holding a word does not depend on the register file and the cycle count. -/
theorem HoldsWord.regs_left {a : Addr} {w : Word} {u : State} {r : Regs} {n : Nat} (h : HoldsWord a w u) :
    HoldsWord a w ((u.withRegs r).withCycles n) := h

/-! ### Shapes -/

/-- An instruction whose meaning is a push and an update of the register file. -/
theorem pushesWord_of {i : Instr} {word : State → Word} {n : Nat} {after : Regs → Regs}
    (h : ∀ s u, push16 (word s) s = .next u → u.regs = { s.regs with sp := s.regs.sp - 2 } →
      exec i s = .next ((u.withRegs (after s.regs)).withCycles n)) : PushesWord i word n after := by
  intro s hs
  obtain ⟨u, hu⟩ := push16_next hs
  have hf := push16_frame hu
  exact ⟨u, _, hu, h s u hu hf.2.1, rfl, hf.1.regs_left, (memWriteWord_holds hu).regs_left⟩

/-- The state after a pop that completes, before the instruction writes what it popped. -/
theorem readsOnly_pop (s : State) (q : Irq) (r : Regs) (n : Nat) :
    ReadsOnly [s.regs.sp, s.regs.sp + 1] (s.withIrq q)
      ((((afterRead (s.regs.sp + 1) (afterRead s.regs.sp s)).withIrq q).withRegs r).withCycles n) := by
  have h := readsOnly_two s.regs.sp (s.regs.sp + 1) (s.withIrq q) r n
  have e : ∀ a (t : State), afterRead a (t.withIrq q) = (afterRead a t).withIrq q := by
    intro a t
    unfold afterRead portNote
    repeat' split
    all_goals simp_all
    all_goals rfl
  rwa [e, e] at h

/-- An instruction whose meaning is a pop and an update of the register file and of the interrupt state. -/
theorem popsWord_of {i : Instr} {n : Nat} {irq : Irq → Irq} {post : Regs → Byte → Byte → Regs → Prop}
    (f : Byte → Byte → Regs → Regs)
    (h : ∀ (s : State) (lo hi : Byte) (t : State), pop16 s = .next (mkWord hi lo, t.setSp (s.regs.sp + 2)) → t.regs = s.regs → t.irq = s.irq →
      exec i s = .next (((t.withIrq (irq s.irq)).withRegs (f lo hi s.regs)).withCycles n))
    (hp : ∀ lo hi g, post g lo hi (f lo hi g)) : PopsWord i n irq post := by
  intro s h1 h2
  refine ⟨_, h s _ _ _ (pop16_next h1 h2) (by simp) (by simp), rfl, ?_, hp _ _ _⟩
  exact readsOnly_pop s _ _ _

end Sys2Proof.Machine
end

