-- ==== Sys2Proof/Laws/Keeps.lean ====
section
/-! SUPPORT. What no access to memory changes, whatever its address and outcome: the parameters, the interrupt state
but for the request and enable bytes, the forms of the invariant. -/

namespace Sys2Proof.Machine

/-- What every access leaves alone, and the forms it keeps. -/
def Keeps (s u : State) : Prop :=
  u.cfg = s.cfg ∧ u.fb = s.fb ∧ u.irq.ime = s.irq.ime ∧ u.irq.imeDelay = s.irq.imeDelay ∧
  u.irq.halted = s.irq.halted ∧ u.timer.reqTimer = s.timer.reqTimer ∧ u.ppu.reqVblank = s.ppu.reqVblank ∧
  (s.mem.wf → u.mem.wf) ∧ (s.ppu.inPlace → u.ppu.inPlace) ∧ (s.timer.divAcc < 256 → u.timer.divAcc < 256)

theorem Keeps.refl (s : State) : Keeps s s := ⟨rfl, rfl, rfl, rfl, rfl, rfl, rfl, id, id, id⟩

theorem Keeps.trans {s t u : State} (h : Keeps s t) (k : Keeps t u) : Keeps s u := by
  obtain ⟨a, b, c, d, e, f, g, i, j, l⟩ := h
  obtain ⟨a', b', c', d', e', f', g', i', j', l'⟩ := k
  exact ⟨a'.trans a, b'.trans b, c'.trans c, d'.trans d, e'.trans e, f'.trans f, g'.trans g,
    fun x => i' (i x), fun x => j' (j x), fun x => l' (l x)⟩

theorem Keeps.withRegs {s u : State} (h : Keeps s u) (r : Regs) : Keeps s (u.withRegs r) := h
theorem Keeps.withCycles {s u : State} (h : Keeps s u) (n : Nat) : Keeps s (u.withCycles n) := h

theorem Keeps.of_frame {R W : List Addr} {s s' u : State} (h : MemFrame R W s u) (w : WriteKeeps s' u)
    (hm : s'.mem = s.mem) (hp : s'.ppu = s.ppu) (ht : s'.timer = s.timer) : Keeps s u := by
  obtain ⟨a, b, c, d, e, -, -, f, -, -, g, -⟩ := h
  obtain ⟨-, -, i, j, l⟩ := w
  exact ⟨a, b, c, d, e, f, g, hm ▸ i, hp ▸ j, ht ▸ l⟩

theorem afterRead_keeps (a : Addr) (s : State) : Keeps s (afterRead a s) :=
  Keeps.of_frame (read_frame a s) (read_keeps a s) rfl rfl rfl

theorem memWrite_keeps {a : Addr} {v : Byte} {s u : State} (h : memWrite a v s = .next u) :
    Keeps s u ∧ u.regs = s.regs :=
  ⟨Keeps.of_frame (memWrite_frame h).1 (memWrite_frame h).2 rfl rfl rfl, (memWrite_frame h).2.1⟩

theorem memWriteWord_keeps {a : Addr} {w : Word} {s u : State} (h : memWriteWord a w s = .next u) :
    Keeps s u ∧ u.regs = s.regs :=
  ⟨Keeps.of_frame (memWriteWord_frame h).1 (memWriteWord_frame h).2 rfl rfl rfl, (memWriteWord_frame h).2.1⟩

theorem push16_keeps {w : Word} {s u : State} (h : push16 w s = .next u) :
    Keeps s u ∧ u.regs = { s.regs with sp := s.regs.sp - 2 } :=
  ⟨Keeps.of_frame (push16_frame h).1 (push16_frame h).2 rfl rfl rfl, (push16_frame h).2.1⟩

theorem pop16_keeps {s : State} {r : Word × State} (h : pop16 s = .next r) :
    Keeps s r.2 ∧ r.2.regs = { s.regs with sp := s.regs.sp + 2 } := by
  obtain ⟨x, hx, h⟩ := andThen_eq_next h
  have := memReadWord_cases hx
  cases h
  subst this
  exact ⟨((afterRead_keeps _ s).trans (afterRead_keeps _ _)).withRegs _, by simp [State.setSp]⟩

/-- A fetched byte: everything a fetch that completes can do. -/
theorem fetch8_keeps {s : State} {r : Byte × State} (h : fetch8 s = .next r) :
    Keeps s r.2 ∧ r.2.regs = { s.regs with pc := s.regs.pc + 1 } := by
  unfold fetch8 at h
  obtain ⟨u, hu, h⟩ := andThen_eq_next h
  cases h
  obtain ⟨-, rfl⟩ := memRead_cases hu
  exact ⟨(afterRead_keeps _ _).withRegs _, by simp [State.setPc]⟩

theorem fetchInstr_keeps {s : State} {r : Instr × State} (h : fetchInstr s = .next r) : Keeps s r.2 := by
  unfold fetchInstr at h
  obtain ⟨u, hu, h⟩ := andThen_eq_next h
  split at h
  · cases h; exact (fetch8_keeps hu).1
  · obtain ⟨v, hv, h⟩ := andThen_eq_next h
    split at h
    · cases h; exact (fetch8_keeps hu).1.trans (fetch8_keeps hv).1
    · obtain ⟨w, hw, h⟩ := andThen_eq_next h
      cases h
      exact ((fetch8_keeps hu).1.trans (fetch8_keeps hv).1).trans (fetch8_keeps hw).1

/-- The start of a step changes the interrupt state and the count of draws only. -/
theorem startStep_eq (s : State) :
    startStep s = { s with irq := (startStep s).irq, draws := (startStep s).draws } := by
  unfold startStep hostRequests
  simp only []
  split <;> rfl

/-- The halt release changes the halt only (60 R345). -/
theorem releaseHalt_eq (q : Irq) : releaseHalt q = { q with halted := q.halted && decide (pending q = 0) } := by
  unfold releaseHalt
  by_cases h : pending q = 0
  · simp [h]
  · have h' : ¬ pending q = 0#5 := h
    cases hh : q.halted
    · simp [hh.symm]
    · simp [h']

/-- A source is found exactly when something is enabled and requested (60 R347). -/
theorem lowestSource_eq_none {p : BitVec 5} : lowestSource p = none ↔ p = 0 := by revert p; decide

end Sys2Proof.Machine
end

