-- ==== Sys2Proof/Laws/PerInstr.lean ====
section
/-! SUPPORT. What holds of every instruction as syntax, one lemma per constructor. -/

namespace Sys2Proof.Laws.Encoding

/-- The length of an instruction's encoding is the length its first byte gives: the first byte alone says how many bytes
follow (30 R131, R139). -/
def Statement (i : Instr) : Prop := (encode i).head?.map instrLength = some (encode i).length

theorem nop : Statement .nop := rfl
theorem stop : Statement .stop := rfl
theorem halt : Statement .halt := rfl
theorem di : Statement .di := rfl
theorem ei : Statement .ei := rfl
theorem prefixCb (op2 : Byte) : Statement (.prefixCb op2) := rfl
theorem undefD3 : Statement .undefD3 := rfl
theorem undefDB : Statement .undefDB := rfl
theorem undefDD : Statement .undefDD := rfl
theorem undefE3 : Statement .undefE3 := rfl
theorem undefE4 : Statement .undefE4 := rfl
theorem undefEB : Statement .undefEB := rfl
theorem undefEC : Statement .undefEC := rfl
theorem undefED : Statement .undefED := rfl
theorem undefF4 : Statement .undefF4 := rfl
theorem undefFC : Statement .undefFC := rfl
theorem undefFD : Statement .undefFD := rfl
theorem ldRR (rd rs : Reg) : Statement (.ldRR rd rs) := by cases rd <;> cases rs <;> rfl
theorem ldRHl (rd : Reg) : Statement (.ldRHl rd) := by cases rd <;> rfl
theorem ldHlR (rs : Reg) : Statement (.ldHlR rs) := by cases rs <;> rfl
theorem ldRD8 (rd : Reg) (n : Byte) : Statement (.ldRD8 rd n) := by cases rd <;> rfl
theorem ldHlD8 (n : Byte) : Statement (.ldHlD8 n) := rfl
theorem ldABc : Statement .ldABc := rfl
theorem ldADe : Statement .ldADe := rfl
theorem ldBcA : Statement .ldBcA := rfl
theorem ldDeA : Statement .ldDeA := rfl
theorem ldAHlInc : Statement .ldAHlInc := rfl
theorem ldAHlDec : Statement .ldAHlDec := rfl
theorem ldHlIncA : Statement .ldHlIncA := rfl
theorem ldHlDecA : Statement .ldHlDecA := rfl
theorem ldhA8A (o : Byte) : Statement (.ldhA8A o) := rfl
theorem ldhAA8 (o : Byte) : Statement (.ldhAA8 o) := rfl
theorem ldhCA : Statement .ldhCA := rfl
theorem ldhAC : Statement .ldhAC := rfl
theorem ldA16A (a : Addr) : Statement (.ldA16A a) := rfl
theorem ldAA16 (a : Addr) : Statement (.ldAA16 a) := rfl
theorem ldRpD16 (p : Pair) (w : Word) : Statement (.ldRpD16 p w) := by cases p <;> rfl
theorem ldA16Sp (a : Addr) : Statement (.ldA16Sp a) := rfl
theorem ldSpHl : Statement .ldSpHl := rfl
theorem pushRp2 (p : StackPair) : Statement (.pushRp2 p) := by cases p <;> rfl
theorem pushAf : Statement .pushAf := rfl
theorem popRp2 (p : StackPair) : Statement (.popRp2 p) := by cases p <;> rfl
theorem popAf : Statement .popAf := rfl
theorem addAR (rs : Reg) : Statement (.addAR rs) := by cases rs <;> rfl
theorem addAHl : Statement .addAHl := rfl
theorem addAD8 (n : Byte) : Statement (.addAD8 n) := rfl
theorem adcAR (rs : Reg) : Statement (.adcAR rs) := by cases rs <;> rfl
theorem adcAHl : Statement .adcAHl := rfl
theorem adcAD8 (n : Byte) : Statement (.adcAD8 n) := rfl
theorem subR (rs : Reg) : Statement (.subR rs) := by cases rs <;> rfl
theorem subHl : Statement .subHl := rfl
theorem subD8 (n : Byte) : Statement (.subD8 n) := rfl
theorem sbcAR (rs : Reg) : Statement (.sbcAR rs) := by cases rs <;> rfl
theorem sbcAHl : Statement .sbcAHl := rfl
theorem sbcAD8 (n : Byte) : Statement (.sbcAD8 n) := rfl
theorem andR (rs : Reg) : Statement (.andR rs) := by cases rs <;> rfl
theorem andHl : Statement .andHl := rfl
theorem andD8 (n : Byte) : Statement (.andD8 n) := rfl
theorem xorR (rs : Reg) : Statement (.xorR rs) := by cases rs <;> rfl
theorem xorHl : Statement .xorHl := rfl
theorem xorD8 (n : Byte) : Statement (.xorD8 n) := rfl
theorem orR (rs : Reg) : Statement (.orR rs) := by cases rs <;> rfl
theorem orHl : Statement .orHl := rfl
theorem orD8 (n : Byte) : Statement (.orD8 n) := rfl
theorem cpR (rs : Reg) : Statement (.cpR rs) := by cases rs <;> rfl
theorem cpHl : Statement .cpHl := rfl
theorem cpD8 (n : Byte) : Statement (.cpD8 n) := rfl
theorem incR (rd : Reg) : Statement (.incR rd) := by cases rd <;> rfl
theorem incHl : Statement .incHl := rfl
theorem decR (rd : Reg) : Statement (.decR rd) := by cases rd <;> rfl
theorem decHl : Statement .decHl := rfl
theorem daa : Statement .daa := rfl
theorem cpl : Statement .cpl := rfl
theorem scf : Statement .scf := rfl
theorem ccf : Statement .ccf := rfl
theorem addHlRp (p : Pair) : Statement (.addHlRp p) := by cases p <;> rfl
theorem incRp (p : Pair) : Statement (.incRp p) := by cases p <;> rfl
theorem decRp (p : Pair) : Statement (.decRp p) := by cases p <;> rfl
theorem addSpE8 (e : Byte) : Statement (.addSpE8 e) := rfl
theorem ldHlSpE8 (e : Byte) : Statement (.ldHlSpE8 e) := rfl
theorem rlca : Statement .rlca := rfl
theorem rrca : Statement .rrca := rfl
theorem rla : Statement .rla := rfl
theorem rra : Statement .rra := rfl
theorem rlcR (rs : Reg) : Statement (.rlcR rs) := by cases rs <;> rfl
theorem rlcHl : Statement .rlcHl := rfl
theorem rrcR (rs : Reg) : Statement (.rrcR rs) := by cases rs <;> rfl
theorem rrcHl : Statement .rrcHl := rfl
theorem rlR (rs : Reg) : Statement (.rlR rs) := by cases rs <;> rfl
theorem rlHl : Statement .rlHl := rfl
theorem rrR (rs : Reg) : Statement (.rrR rs) := by cases rs <;> rfl
theorem rrHl : Statement .rrHl := rfl
theorem slaR (rs : Reg) : Statement (.slaR rs) := by cases rs <;> rfl
theorem slaHl : Statement .slaHl := rfl
theorem sraR (rs : Reg) : Statement (.sraR rs) := by cases rs <;> rfl
theorem sraHl : Statement .sraHl := rfl
theorem swapR (rs : Reg) : Statement (.swapR rs) := by cases rs <;> rfl
theorem swapHl : Statement .swapHl := rfl
theorem srlR (rs : Reg) : Statement (.srlR rs) := by cases rs <;> rfl
theorem srlHl : Statement .srlHl := rfl
theorem bitR (b : BitVec 3) (rs : Reg) : Statement (.bitR b rs) := rfl
theorem bitHl (b : BitVec 3) : Statement (.bitHl b) := rfl
theorem resR (b : BitVec 3) (rs : Reg) : Statement (.resR b rs) := rfl
theorem resHl (b : BitVec 3) : Statement (.resHl b) := rfl
theorem setR (b : BitVec 3) (rs : Reg) : Statement (.setR b rs) := rfl
theorem setHl (b : BitVec 3) : Statement (.setHl b) := rfl
theorem jpA16 (a : Addr) : Statement (.jpA16 a) := rfl
theorem jpCcA16 (cc : Cond) (a : Addr) : Statement (.jpCcA16 cc a) := by cases cc <;> rfl
theorem jpHl : Statement .jpHl := rfl
theorem jrE8 (e : Byte) : Statement (.jrE8 e) := rfl
theorem jrCcE8 (cc : Cond) (e : Byte) : Statement (.jrCcE8 cc e) := by cases cc <;> rfl
theorem callA16 (a : Addr) : Statement (.callA16 a) := rfl
theorem callCcA16 (cc : Cond) (a : Addr) : Statement (.callCcA16 cc a) := by cases cc <;> rfl
theorem ret : Statement .ret := rfl
theorem retCc (cc : Cond) : Statement (.retCc cc) := by cases cc <;> rfl
theorem reti : Statement .reti := rfl
theorem rst (t : BitVec 3) : Statement (.rst t) := by
  unfold Statement
  revert t
  decide

end Sys2Proof.Laws.Encoding
end

