-- ==== Sys2Proof/Laws/Shapes.lean ====
section
/-! SUPPORT. The shapes of the accumulator operations and of the read-modify-writes. -/

namespace Sys2Proof.Machine

/-- The three forms of an accumulator operation (42 R202). -/
theorem accumulatorForms_of {reg : Reg → Instr} {mem : Instr} {imm : Byte → Instr}
    {post : Regs → Byte → Regs → Prop} (o : AluOp)
    (hr : ∀ r s, exec (reg r) s = accumulate o (s.reg r) 4 s)
    (hm : ∀ s, exec mem s = withByte s.hl s fun v t => accumulate o v 8 t)
    (hi : ∀ n s, exec (imm n) s = accumulate o n 8 s)
    (hp : ∀ g v, post g v { g with a := (alu o g.a v g.f).1, f := (alu o g.a v g.f).2 }) :
    AccumulatorForms reg mem imm post := by
  refine ⟨fun r => ?_, ?_, fun n => ?_⟩
  · exact changesRegisters_of
      (fun g => { g with a := (alu o g.a (getReg r g) g.f).1, f := (alu o g.a (getReg r g) g.f).2 })
      (fun s => by rw [hr]; rfl) fun g => hp _ _
  · refine loadsByte_of (fun v g => { g with a := (alu o g.a v g.f).1, f := (alu o g.a v g.f).2 })
      (fun s h => ?_) fun v g => hp _ _
    rw [hm, withByte_next h]
    simp [accumulate, State.setA, State.setFlags]
  · exact changesRegisters_of (fun g => { g with a := (alu o g.a n g.f).1, f := (alu o g.a n g.f).2 })
      (fun s => by rw [hi]; rfl) fun g => hp _ _

/-- A read-modify-write of a register. -/
theorem modifiesRegister_of {i : Instr} {r : Reg} {n : Nat} {result : Byte → Flags → Byte}
    {flags : Byte → Flags → Flags} (f : Byte → Flags → Byte × Flags) (h : ∀ s, exec i s = modifyReg r f n s)
    (h1 : ∀ v g, (f v g).1 = result v g) (h2 : ∀ v g, (f v g).2 = flags v g) :
    ModifiesRegister i r n result flags := by
  refine changesRegisters_of
    (fun g => { putReg r (f (getReg r g) g.f).1 g with f := (f (getReg r g) g.f).2 })
    (fun s => by rw [h]; rfl) fun g => ⟨?_, h2 _ _, sameBut_putReg_flags ..⟩
  rw [getReg_flags, getReg_putReg, h1]

/-- A read-modify-write of the byte at `HL` (20 R114). -/
theorem modifiesByteAtHl_of {i : Instr} {n : Nat} {result : Byte → Flags → Byte} {flags : Byte → Flags → Flags}
    (f : Byte → Flags → Byte × Flags) (h : ∀ s, exec i s = modifyByte s.hl f n s)
    (h1 : ∀ v g, (f v g).1 = result v g) (h2 : ∀ v g, (f v g).2 = flags v g) :
    ModifiesByteAtHl i n result flags := by
  intro s hr hs
  have hs' : Storable (afterRead s.hl s) s.hl (result (peek s.hl s) s.regs.f) := by
    simpa only [Storable, afterRead_cfg] using hs
  obtain ⟨u, hu⟩ := memWrite_next hs'
  have hf := memWrite_frame hu
  refine ⟨u, _, hu, ?_, rfl, ?_⟩
  · rw [h, modifyByte, withByte_next hr]
    simp only [h1, afterRead_regs, hu, andThen_next, finish_eq, State.setFlags, h2, hf.2.1]
    rfl
  · exact (((read_frame s.hl s).trans hf.1).mono (by simp) (by simp)).regs_left

end Sys2Proof.Machine
end

