-- ==== Sys2Proof/Tests/Slice0.lean ====
section
/-! SUPPORT. Tests. Expected values come from spec/95_test_vectors.md ("95" below) or are worked by hand from the rule
named; each run test is one step. After them, for every statement with hypotheses, a witness that meets them. -/

open Sys2Proof Sys2Proof.Machine

namespace Sys2Proof.Tests

/-! ### Helpers -/

/-- The instruction a list of bytes holds, when it holds exactly one. -/
def one (bytes : List Byte) : Option Instr :=
  match decode bytes with
  | .ok (i, []) => some i
  | _ => none

/-- The reset state with the LCD off (the convention of 95), the words AF, BC, DE, HL and SP, and some bytes of memory
set. -/
def st (af bc de hl sp : Word) (cells : List (Nat × Byte)) : State :=
  let s := State.reset
  { s with
    regs := { a := hi8 af, f := flagsOfByte (lo8 af), b := hi8 bc, c := lo8 bc, d := hi8 de, e := lo8 de,
              h := hi8 hl, l := lo8 hl, sp := sp, pc := 0x0100 }
    ppu := { s.ppu with lcdc := 0x11, mode := .hblank }
    mem := cells.foldl (fun m c => m.set c.1 c.2) [] }

/-- The reset state with the LCD off. -/
def lcdOff : State := st 0x01B0 0x0013 0x00D8 0x014D 0xFFFE []

/-- The same with an interrupt state. -/
def ints (ime : Bool) (delay : ImeDelay) (halted : Bool) (enable : Byte) (request : BitVec 5) : State :=
  lcdOff.withIrq { ime := ime, imeDelay := delay, halted := halted, enable := enable, request := request }

/-- The same with a timer state. -/
def timed (tac : BitVec 3) (tima tma : Byte) (timaAcc : Nat) (div : Byte) (divAcc : Nat) : State :=
  lcdOff.withTimer { div := div, divAcc := divAcc, tima := tima, timaAcc := timaAcc, tma := tma, tac := tac,
                     reqTimer := false }

/-- One step of the bytes at `PC`, and what `f` sees of the next state; `none` for a fault. -/
def run (f : State → List Nat) (bytes : List Byte) (s : State) : Option (List Nat) :=
  match step (s.withMem (bytes.zipIdx.foldl (fun m b => m.set (s.regs.pc.toNat + b.2) b.1) s.mem)) with
  | .next t => some (f t)
  | _ => none

/-- The pairs AF, BC, DE, HL and SP by name, and the cycles. -/
def af (t : State) : Nat := (getAf t.regs).toNat
def bc (t : State) : Nat := (getPair .bc t.regs).toNat
def de (t : State) : Nat := (getPair .de t.regs).toNat
def hl (t : State) : Nat := t.hl.toNat
def sp (t : State) : Nat := t.regs.sp.toNat
def pc (t : State) : Nat := t.regs.pc.toNat
def at' (k : Nat) (t : State) : Nat := (t.mem.get k).toNat
def cy (t : State) : Nat := t.cycles

/-! ### Well-formed terms -/

/-- The prefix byte is not an instruction by itself (30 R135). -/
theorem test_prefix_is_ill_formed : ¬ WellFormed (.prefixCb 0x37) := by decide
/-- The instruction it selects is one (30 R143). -/
theorem test_swap_is_well_formed : WellFormed (.swapR .a) := by decide

/-- 93 X2 and X3: two shades of one colour, an owned address that is tolerated; such parameters do not exist. -/
theorem test_refused_parameters :
    ¬ ([0xFFFFFF, 0xAAAAAA, 0xAAAAAA, 0x000000] : List Rgb).Nodup ∧ [0xFF03, (0xFF04 : Addr)].all isUnownedIo = false := by
  decide

/-! ### Decoding: one word per row of 30 R142, R143 and R144, written bit by bit from its pattern -/

/-- 30 R142, R144. -/
theorem test_decode_system :
    one [0b00000000] = some .nop ∧
    one [0b00010000] = some .stop ∧
    one [0b01110110] = some .halt ∧
    one [0b11110011] = some .di ∧
    one [0b11111011] = some .ei := by decide

/-- 30 R142, R144. -/
theorem test_decode_undefined :
    one [0b11010011] = some .undefD3 ∧
    one [0b11011011] = some .undefDB ∧
    one [0b11011101] = some .undefDD ∧
    one [0b11100011] = some .undefE3 ∧
    one [0b11100100] = some .undefE4 ∧
    one [0b11101011] = some .undefEB ∧
    one [0b11101100] = some .undefEC ∧
    one [0b11101101] = some .undefED ∧
    one [0b11110100] = some .undefF4 ∧
    one [0b11111100] = some .undefFC ∧
    one [0b11111101] = some .undefFD := by decide

/-- 30 R142, R144. -/
theorem test_decode_load8 :
    one [0b01111000] = some (.ldRR .a .b) ∧
    one [0b01101110] = some (.ldRHl .l) ∧
    one [0b01110001] = some (.ldHlR .c) ∧
    one [0b00011110, 0x3C] = some (.ldRD8 .e 0x3C) ∧
    one [0b00110110, 0xAB] = some (.ldHlD8 0xAB) ∧
    one [0b00001010] = some .ldABc ∧
    one [0b00011010] = some .ldADe ∧
    one [0b00000010] = some .ldBcA ∧
    one [0b00010010] = some .ldDeA ∧
    one [0b00101010] = some .ldAHlInc ∧
    one [0b00111010] = some .ldAHlDec ∧
    one [0b00100010] = some .ldHlIncA ∧
    one [0b00110010] = some .ldHlDecA ∧
    one [0b11100000, 0x44] = some (.ldhA8A 0x44) ∧
    one [0b11110000, 0x80] = some (.ldhAA8 0x80) ∧
    one [0b11100010] = some .ldhCA ∧
    one [0b11110010] = some .ldhAC ∧
    one [0b11101010, 0x34, 0xD2] = some (.ldA16A 0xD234) ∧
    one [0b11111010, 0x34, 0xD2] = some (.ldAA16 0xD234) := by decide

/-- 30 R142, R144. -/
theorem test_decode_load16 :
    one [0b00110001, 0xFE, 0xCF] = some (.ldRpD16 .sp 0xCFFE) ∧
    one [0b00001000, 0x00, 0xC1] = some (.ldA16Sp 0xC100) ∧
    one [0b11111001] = some .ldSpHl ∧
    one [0b11010101] = some (.pushRp2 .de) ∧
    one [0b11110101] = some .pushAf ∧
    one [0b11100001] = some (.popRp2 .hl) ∧
    one [0b11110001] = some .popAf := by decide

/-- 30 R142, R144. -/
theorem test_decode_alu8 :
    one [0b10000001] = some (.addAR .c) ∧
    one [0b10000110] = some .addAHl ∧
    one [0b11000110, 0x3A] = some (.addAD8 0x3A) ∧
    one [0b10001111] = some (.adcAR .a) ∧
    one [0b10001110] = some .adcAHl ∧
    one [0b11001110, 0xFF] = some (.adcAD8 0xFF) ∧
    one [0b10010000] = some (.subR .b) ∧
    one [0b10010110] = some .subHl ∧
    one [0b11010110, 0x0F] = some (.subD8 0x0F) ∧
    one [0b10011100] = some (.sbcAR .h) ∧
    one [0b10011110] = some .sbcAHl ∧
    one [0b11011110, 0x01] = some (.sbcAD8 0x01) ∧
    one [0b10100101] = some (.andR .l) ∧
    one [0b10100110] = some .andHl ∧
    one [0b11100110, 0x0F] = some (.andD8 0x0F) ∧
    one [0b10101010] = some (.xorR .d) ∧
    one [0b10101110] = some .xorHl ∧
    one [0b11101110, 0x05] = some (.xorD8 0x05) ∧
    one [0b10110011] = some (.orR .e) ∧
    one [0b10110110] = some .orHl ∧
    one [0b11110110, 0x81] = some (.orD8 0x81) ∧
    one [0b10111001] = some (.cpR .c) ∧
    one [0b10111110] = some .cpHl ∧
    one [0b11111110, 0x3C] = some (.cpD8 0x3C) ∧
    one [0b00111100] = some (.incR .a) ∧
    one [0b00110100] = some .incHl ∧
    one [0b00101101] = some (.decR .l) ∧
    one [0b00110101] = some .decHl ∧
    one [0b00100111] = some .daa ∧
    one [0b00101111] = some .cpl ∧
    one [0b00110111] = some .scf ∧
    one [0b00111111] = some .ccf := by decide

/-- 30 R142, R144. -/
theorem test_decode_alu16 :
    one [0b00011001] = some (.addHlRp .de) ∧
    one [0b00110011] = some (.incRp .sp) ∧
    one [0b00101011] = some (.decRp .hl) ∧
    one [0b11101000, 0x80] = some (.addSpE8 0x80) ∧
    one [0b11111000, 0x02] = some (.ldHlSpE8 0x02) := by decide

/-- 30 R142, R144. -/
theorem test_decode_accumulator_rotates :
    one [0b00000111] = some .rlca ∧
    one [0b00001111] = some .rrca ∧
    one [0b00010111] = some .rla ∧
    one [0b00011111] = some .rra := by decide

/-- 30 R143, after the prefix byte 0xCB. -/
theorem test_decode_rotates :
    one [0xCB, 0b00000101] = some (.rlcR .l) ∧
    one [0xCB, 0b00000110] = some .rlcHl ∧
    one [0xCB, 0b00001001] = some (.rrcR .c) ∧
    one [0xCB, 0b00001110] = some .rrcHl ∧
    one [0xCB, 0b00010010] = some (.rlR .d) ∧
    one [0xCB, 0b00010110] = some .rlHl ∧
    one [0xCB, 0b00011111] = some (.rrR .a) ∧
    one [0xCB, 0b00011110] = some .rrHl ∧
    one [0xCB, 0b00100000] = some (.slaR .b) ∧
    one [0xCB, 0b00100110] = some .slaHl ∧
    one [0xCB, 0b00101011] = some (.sraR .e) ∧
    one [0xCB, 0b00101110] = some .sraHl ∧
    one [0xCB, 0b00110111] = some (.swapR .a) ∧
    one [0xCB, 0b00110110] = some .swapHl ∧
    one [0xCB, 0b00111100] = some (.srlR .h) ∧
    one [0xCB, 0b00111110] = some .srlHl := by decide

/-- 30 R143, after the prefix byte 0xCB. -/
theorem test_decode_bits :
    one [0xCB, 0b01100101] = some (.bitR 4 .l) ∧
    one [0xCB, 0b01111110] = some (.bitHl 7) ∧
    one [0xCB, 0b10001010] = some (.resR 1 .d) ∧
    one [0xCB, 0b10110110] = some (.resHl 6) ∧
    one [0xCB, 0b11011111] = some (.setR 3 .a) ∧
    one [0xCB, 0b11000110] = some (.setHl 0) := by decide

/-- 30 R142, R133. -/
theorem test_decode_control :
    one [0b11000011, 0x50, 0x01] = some (.jpA16 0x0150) ∧
    one [0b11011010, 0x00, 0x02] = some (.jpCcA16 .c 0x0200) ∧
    one [0b11101001] = some .jpHl ∧
    one [0b00011000, 0xFB] = some (.jrE8 0xFB) ∧
    one [0b00100000, 0xFA] = some (.jrCcE8 .nz 0xFA) ∧
    one [0b11001101, 0x34, 0x12] = some (.callA16 0x1234) ∧
    one [0b11010100, 0x00, 0x02] = some (.callCcA16 .nc 0x0200) ∧
    one [0b11001001] = some .ret ∧
    one [0b11001000] = some (.retCc .z) ∧
    one [0b11011001] = some .reti ∧
    one [0b11101111] = some (.rst 5) := by decide

/-- A truncated instruction is none (30 R131). -/
theorem test_decode_truncated : one [] = none ∧ one [0x3E] = none ∧ one [0xC3, 0x50] = none ∧ one [0xCB] = none := by
  decide

/-- The table's numbering: the first byte in the low bits (30 R147). -/
theorem test_table_word : decodeTableWord 8 0x3E = some (.ldRD8 .a 0) ∧ decodeTableWord 16 0x37CB = some (.swapR .a) := by
  decide

/-! ### One step of each instruction -/

/-- 95 2.7. -/
theorem test_nop :
    run (fun t => [pc t, af t, cy t]) [0x00] (lcdOff) = some [0x0101, 0x01B0, 4] := by decide

/-- 95 2.1. -/
theorem test_ld_r_r :
    run (fun t => [af t, cy t]) [0x78] (st 0x01B0 0x1200 0x00D8 0x014D 0xFFFE []) = some [0x12B0, 4] := by decide

/-- 95 2.1. -/
theorem test_ld_r_hl :
    run (fun t => [bc t, cy t]) [0x46]
      (st 0x01B0 0x0013 0x00D8 0xC000 0xFFFE [(0xC000, 0x5A)]) =
      some [0x5A13, 8] := by decide

/-- 95 2.1. -/
theorem test_ld_hl_r :
    run (fun t => [at' 0xC010 t, cy t]) [0x77] (st 0x9900 0x0013 0x00D8 0xC010 0xFFFE []) = some [0x99, 8] := by decide

/-- 95 S1. -/
theorem test_ld_r_d8 :
    run (fun t => [pc t, af t, cy t]) [0x3E, 0x05] (lcdOff) = some [0x0102, 0x05B0, 8] := by decide

/-- 95 2.1. -/
theorem test_ld_hl_d8 :
    run (fun t => [at' 0xFF80 t, pc t, cy t]) [0x36, 0xAB]
      (st 0x01B0 0x0013 0x00D8 0xFF80 0xFFFE []) =
      some [0xAB, 0x0102, 12] := by decide

/-- 40 R165, R166, by hand. -/
theorem test_ld_a_pair :
    run (fun t => [af t, cy t]) [0x0A]
      (st 0x01B0 0xC005 0x00D8 0x014D 0xFFFE [(0xC005, 0x21)]) =
      some [0x21B0, 8] ∧
    run (fun t => [af t, cy t]) [0x1A]
      (st 0x01B0 0x0013 0xD006 0x014D 0xFFFE [(0xD006, 0x43)]) =
      some [0x43B0, 8] := by decide

/-- 40 R167, R168, by hand. -/
theorem test_ld_pair_a :
    run (fun t => [at' 0xC005 t, cy t]) [0x02] (st 0x3700 0xC005 0x00D8 0x014D 0xFFFE []) = some [0x37, 8] ∧
    run (fun t => [at' 0xD006 t, cy t]) [0x12] (st 0x3800 0x0013 0xD006 0x014D 0xFFFE []) = some [0x38, 8] := by decide

/-- 95 2.1; the first wraps at 0xFFFF, whose byte is IE. -/
theorem test_ld_a_hl_step :
    run (fun t => [af t, hl t, cy t]) [0x2A]
      (st 0x01B0 0x0013 0x00D8 0xFFFF 0xFFFE []) =
      some [0x00B0, 0x0000, 8] ∧
    run (fun t => [af t, hl t, cy t]) [0x3A]
      (st 0x01B0 0x0013 0x00D8 0xC100 0xFFFE [(0xC100, 0x22)]) =
      some [0x22B0, 0xC0FF, 8] := by decide

/-- 95 2.1. -/
theorem test_ld_hl_step_a :
    run (fun t => [at' 0x9800 t, hl t, cy t]) [0x22]
      (st 0x01B0 0x0013 0x00D8 0x9800 0xFFFE []) =
      some [0x01, 0x9801, 8] ∧
    run (fun t => [at' 0x9FFF t, hl t, cy t]) [0x32]
      (st 0x5500 0x0013 0x00D8 0x9FFF 0xFFFE []) =
      some [0x55, 0x9FFE, 8] := by decide

/-- 95 2.1: TAC keeps 3 bits, LY reads as its line. -/
theorem test_ldh_a8 :
    run (fun t => [t.timer.tac.toNat, cy t]) [0xE0, 0x07]
      (st 0xFF00 0x0013 0x00D8 0x014D 0xFFFE []) =
      some [7, 12] ∧
    run (fun t => [af t, cy t]) [0xF0, 0x44]
      ((lcdOff).withPpu { (lcdOff).ppu with ly := 0x90 }) =
      some [0x90B0, 12] := by decide

/-- 95 2.1. -/
theorem test_ldh_c :
    run (fun t => [t.ppu.bgp.toNat, cy t]) [0xE2]
      (st 0xE400 0x0047 0x00D8 0x014D 0xFFFE []) =
      some [0xE4, 8] ∧
    run (fun t => [af t, cy t]) [0xF2]
      (st 0x01B0 0x0080 0x00D8 0x014D 0xFFFE [(0xFF80, 0x3C)]) =
      some [0x3CB0, 8] := by decide

/-- 95 2.1: a write through the mirror, an unmapped read. -/
theorem test_ld_a16 :
    run (fun t => [at' 0xC000 t, pc t, cy t]) [0xEA, 0x00, 0xE0]
      (st 0x5A00 0x0013 0x00D8 0x014D 0xFFFE []) =
      some [0x5A, 0x0103, 16] ∧
    run (fun t => [af t, cy t]) [0xFA, 0xA0, 0xFE] (lcdOff) = some [0xFFB0, 16] := by decide

/-- 95 2.2. -/
theorem test_ld_rp_d16 :
    run (fun t => [hl t, pc t, cy t]) [0x21, 0x00, 0xC0] (lcdOff) = some [0xC000, 0x0103, 12] ∧
    run (fun t => [sp t]) [0x31, 0x00, 0xD0] (lcdOff) = some [0xD000] := by decide

/-- 95 2.2, the low byte at the low address. -/
theorem test_ld_a16_sp :
    run (fun t => [at' 0xCFFF t, at' 0xD000 t, cy t]) [0x08, 0xFF, 0xCF]
      (st 0x01B0 0x0013 0x00D8 0x014D 0x1234 []) =
      some [0x34, 0x12, 20] ∧
    run (fun t => [t.irq.enable.toNat]) [0x08, 0xFF, 0xFF]
      (st 0x01B0 0x0013 0x00D8 0x014D 0x1234 []) =
      some [0x34] := by decide

/-- 95 2.2. -/
theorem test_ld_sp_hl :
    run (fun t => [sp t, cy t]) [0xF9] (st 0x01B0 0x0013 0x00D8 0xDFF0 0xFFFE []) = some [0xDFF0, 8] := by decide

/-- 95 2.2; the second wraps and its high byte lands in IE. -/
theorem test_push :
    run (fun t => [sp t, at' 0xFFFC t, at' 0xFFFD t, cy t]) [0xC5]
      (st 0x01B0 0x1234 0x00D8 0x014D 0xFFFE []) =
      some [0xFFFC, 0x34, 0x12, 16] ∧
    run (fun t => [sp t, at' 0xFFFE t, t.irq.enable.toNat]) [0xC5]
      (st 0x01B0 0xBEEF 0x00D8 0x014D 0x0000 []) =
      some [0xFFFE, 0xEF, 0xBE] := by decide

/-- 95 2.2. -/
theorem test_push_af :
    run (fun t => [sp t, at' 0xFFFC t, at' 0xFFFD t, cy t]) [0xF5]
      (lcdOff) =
      some [0xFFFC, 0xB0, 0x01, 16] := by decide

/-- 95 2.2. -/
theorem test_pop :
    run (fun t => [de t, sp t, cy t]) [0xD1]
      (st 0x01B0 0x0013 0x00D8 0x014D 0xFFFC [(0xFFFC, 0x34), (0xFFFD, 0x12)]) =
      some [0x1234, 0xFFFE, 12] := by decide

/-- 95 2.2: the low nibble is dropped. -/
theorem test_pop_af :
    run (fun t => [af t, sp t, cy t]) [0xF1]
      (st 0x01B0 0x0013 0x00D8 0x014D 0xC000 [(0xC000, 0x5F), (0xC001, 0x12)]) =
      some [0x1250, 0xC002, 12] := by decide

/-- 95 2.3. -/
theorem test_add :
    run (fun t => [af t, cy t]) [0x80] (st 0xFF00 0x0100 0x00D8 0x014D 0xFFFE []) = some [0x00B0, 4] ∧
    run (fun t => [af t, cy t]) [0x87] (st 0x8000 0x0013 0x00D8 0x014D 0xFFFE []) = some [0x0090, 4] := by decide

/-- 95 2.3. -/
theorem test_add_byte :
    run (fun t => [af t, cy t]) [0x86]
      (st 0x3A00 0x0013 0x00D8 0xC000 0xFFFE [(0xC000, 0xC6)]) =
      some [0x00B0, 8] ∧
    run (fun t => [af t, cy t]) [0xC6, 0x3A] (st 0xC600 0x0013 0x00D8 0x014D 0xFFFE []) = some [0x00B0, 8] := by decide

/-- 95 2.3; `(HL)` by hand as its `d8` row. -/
theorem test_adc :
    run (fun t => [af t, cy t]) [0x89] (st 0x0F10 0x0000 0x00D8 0x014D 0xFFFE []) = some [0x1020, 4] := by decide

/-- 95 2.3; `(HL)` by hand as its `d8` row. -/
theorem test_adc_byte :
    run (fun t => [af t, cy t]) [0x8E]
      (st 0x0010 0x0013 0x00D8 0xC000 0xFFFE [(0xC000, 0xFF)]) =
      some [0x00B0, 8] ∧
    run (fun t => [af t, cy t]) [0xCE, 0xFF] (st 0xFF10 0x0013 0x00D8 0x014D 0xFFFE []) = some [0xFF30, 8] := by decide

/-- 95 2.3, S2. -/
theorem test_sub :
    run (fun t => [af t, cy t]) [0x90] (st 0x1000 0x0100 0x00D8 0x014D 0xFFFE []) = some [0x0F60, 4] ∧
    run (fun t => [af t, cy t]) [0x97] (st 0x5A00 0x0013 0x00D8 0x014D 0xFFFE []) = some [0x00C0, 4] := by decide

/-- 95 2.3, S2. -/
theorem test_sub_byte :
    run (fun t => [af t, cy t]) [0x96]
      (st 0x3E00 0x0013 0x00D8 0xC000 0xFFFE [(0xC000, 0x40)]) =
      some [0xFE50, 8] ∧
    run (fun t => [af t, cy t]) [0xD6, 0x0F] (st 0x3E00 0x0013 0x00D8 0x014D 0xFFFE []) = some [0x2F60, 8] := by decide

/-- 95 2.3; `(HL)` by hand as its `d8` row. -/
theorem test_sbc :
    run (fun t => [af t, cy t]) [0x98] (st 0x0010 0x0000 0x00D8 0x014D 0xFFFE []) = some [0xFF70, 4] := by decide

/-- 95 2.3; `(HL)` by hand as its `d8` row. -/
theorem test_sbc_byte :
    run (fun t => [af t, cy t]) [0x9E]
      (st 0x0010 0x0013 0x00D8 0xC000 0xFFFE [(0xC000, 0xFF)]) =
      some [0x00F0, 8] ∧
    run (fun t => [af t, cy t]) [0xDE, 0x0F] (st 0x1010 0x0013 0x00D8 0x014D 0xFFFE []) = some [0x00E0, 8] := by decide

/-- 95 2.3; `(HL)` by hand as its `d8` row. -/
theorem test_and :
    run (fun t => [af t, cy t]) [0xA7] (st 0x5A10 0x0013 0x00D8 0x014D 0xFFFE []) = some [0x5A20, 4] := by decide

/-- 95 2.3; `(HL)` by hand as its `d8` row. -/
theorem test_and_byte :
    run (fun t => [af t, cy t]) [0xA6]
      (st 0xF050 0x0013 0x00D8 0xC000 0xFFFE [(0xC000, 0x0F)]) =
      some [0x00A0, 8] ∧
    run (fun t => [af t, cy t]) [0xE6, 0x0F] (st 0xF050 0x0013 0x00D8 0x014D 0xFFFE []) = some [0x00A0, 8] := by decide

/-- 95 2.3, S1; `(HL)` by hand. -/
theorem test_xor :
    run (fun t => [af t, cy t]) [0xAF] (st 0x5AF0 0x0013 0x00D8 0x014D 0xFFFE []) = some [0x0080, 4] := by decide

/-- 95 2.3, S1; `(HL)` by hand. -/
theorem test_xor_byte :
    run (fun t => [af t, cy t]) [0xAE]
      (st 0x05B0 0x0013 0x00D8 0xC000 0xFFFE [(0xC000, 0x06)]) =
      some [0x0300, 8] ∧
    run (fun t => [af t, cy t]) [0xEE, 0x05] (st 0x05B0 0x0013 0x00D8 0x014D 0xFFFE []) = some [0x0080, 8] := by decide

/-- 95 2.3; `(HL)` by hand as its `d8` row. -/
theorem test_or :
    run (fun t => [af t, cy t]) [0xB0] (st 0x0070 0x0000 0x00D8 0x014D 0xFFFE []) = some [0x0080, 4] := by decide

/-- 95 2.3; `(HL)` by hand as its `d8` row. -/
theorem test_or_byte :
    run (fun t => [af t, cy t]) [0xB6]
      (st 0x18F0 0x0013 0x00D8 0xC000 0xFFFE [(0xC000, 0x81)]) =
      some [0x9900, 8] ∧
    run (fun t => [af t, cy t]) [0xF6, 0x81] (st 0x18F0 0x0013 0x00D8 0x014D 0xFFFE []) = some [0x9900, 8] := by decide

/-- 95 2.3; `CP B` by hand as its `d8` row. -/
theorem test_cp :
    run (fun t => [af t, cy t]) [0xB8] (st 0x3C00 0x4000 0x00D8 0x014D 0xFFFE []) = some [0x3C50, 4] := by decide

/-- 95 2.3; `CP B` by hand as its `d8` row. -/
theorem test_cp_byte :
    run (fun t => [af t, cy t]) [0xBE]
      (st 0x3A00 0x0013 0x00D8 0xC000 0xFFFE [(0xC000, 0x3B)]) =
      some [0x3A70, 8] ∧
    run (fun t => [af t, cy t]) [0xFE, 0x2F] (st 0x3C00 0x0013 0x00D8 0x014D 0xFFFE []) = some [0x3C60, 8] := by decide

/-- 95 2.3: C is kept. -/
theorem test_inc :
    run (fun t => [bc t, af t, cy t]) [0x04]
      (st 0x0110 0xFF00 0x00D8 0x014D 0xFFFE []) =
      some [0x0000, 0x01B0, 4] ∧
    run (fun t => [af t, cy t]) [0x3C] (st 0x7FC0 0x0013 0x00D8 0x014D 0xFFFE []) = some [0x8020, 4] := by decide

/-- 95 2.3. -/
theorem test_inc_hl :
    run (fun t => [at' 0xC000 t, af t, cy t]) [0x34]
      (st 0x0110 0x0013 0x00D8 0xC000 0xFFFE [(0xC000, 0xFF)]) =
      some [0x00, 0x01B0, 12] := by decide

/-- 95 2.3: C is kept. -/
theorem test_dec :
    run (fun t => [bc t, af t, cy t]) [0x05]
      (st 0x0100 0x0000 0x00D8 0x014D 0xFFFE []) =
      some [0xFF00, 0x0160, 4] ∧
    run (fun t => [hl t, af t]) [0x2D] (st 0x0100 0x0013 0x00D8 0x0110 0xFFFE []) = some [0x010F, 0x0160] := by decide

/-- 95 2.3. -/
theorem test_dec_hl :
    run (fun t => [at' 0xC000 t, af t, cy t]) [0x35]
      (st 0x0100 0x0013 0x00D8 0xC000 0xFFFE [(0xC000, 0x01)]) =
      some [0x00, 0x01C0, 12] := by decide

/-- 95 2.3. -/
theorem test_daa :
    run (fun t => [af t, cy t]) [0x27] (st 0x9A00 0x0013 0x00D8 0x014D 0xFFFE []) = some [0x0090, 4] ∧
    run (fun t => [af t, cy t]) [0x27] (st 0xFA70 0x0013 0x00D8 0x014D 0xFFFE []) = some [0x9450, 4] ∧
    run (fun t => [af t, cy t]) [0x27] (st 0x0A40 0x0013 0x00D8 0x014D 0xFFFE []) = some [0x0A40, 4] := by decide

/-- 95 2.3. -/
theorem test_cpl_scf_ccf :
    run (fun t => [af t, cy t]) [0x2F] (st 0x3590 0x0013 0x00D8 0x014D 0xFFFE []) = some [0xCAF0, 4] ∧
    run (fun t => [af t, cy t]) [0x37] (st 0x01E0 0x0013 0x00D8 0x014D 0xFFFE []) = some [0x0190, 4] ∧
    run (fun t => [af t, cy t]) [0x3F] (st 0x01F0 0x0013 0x00D8 0x014D 0xFFFE []) = some [0x0180, 4] := by decide

/-- 95 2.4: Z is kept, a carry out of bit 7 sets nothing. -/
theorem test_add_hl :
    run (fun t => [hl t, af t, cy t]) [0x09]
      (st 0x0180 0x0001 0x00D8 0x0FFF 0xFFFE []) =
      some [0x1000, 0x01A0, 8] ∧
    run (fun t => [hl t, af t]) [0x39] (st 0x01F0 0x0013 0x00D8 0x00FF 0x0001 []) = some [0x0100, 0x0180] := by decide

/-- 95 2.4: no flag. -/
theorem test_inc_dec_pair :
    run (fun t => [bc t, af t, cy t]) [0x03]
      (st 0x01F0 0xFFFF 0x00D8 0x014D 0xFFFE []) =
      some [0x0000, 0x01F0, 8] ∧
    run (fun t => [de t, af t, cy t]) [0x1B]
      (st 0x0100 0x0013 0x0000 0x014D 0xFFFE []) =
      some [0xFFFF, 0x0100, 8] := by decide

/-- 95 2.4. -/
theorem test_add_sp :
    run (fun t => [sp t, af t, cy t]) [0xE8, 0xFF]
      (st 0x01B0 0x0013 0x00D8 0x014D 0x0001 []) =
      some [0x0000, 0x0130, 16] ∧
    run (fun t => [sp t, af t]) [0xE8, 0x80] (lcdOff) = some [0xFF7E, 0x0110] := by decide

/-- 95 2.4. -/
theorem test_ld_hl_sp :
    run (fun t => [hl t, sp t, af t, cy t]) [0xF8, 0xFE]
      (st 0x01B0 0x0013 0x00D8 0x014D 0xD000 []) =
      some [0xCFFE, 0xD000, 0x0100, 12] := by decide

/-- 95 2.5: Z is 0 whatever the result. -/
theorem test_rotate_a :
    run (fun t => [af t, cy t]) [0x07] (st 0x00F0 0x0013 0x00D8 0x014D 0xFFFE []) = some [0x0000, 4] ∧
    run (fun t => [af t, cy t]) [0x0F] (st 0x3B00 0x0013 0x00D8 0x014D 0xFFFE []) = some [0x9D10, 4] ∧
    run (fun t => [af t, cy t]) [0x17] (st 0x9510 0x0013 0x00D8 0x014D 0xFFFE []) = some [0x2B10, 4] ∧
    run (fun t => [af t, cy t]) [0x1F] (st 0x0100 0x0013 0x00D8 0x014D 0xFFFE []) = some [0x0010, 4] := by decide

/-- 95 2.5. -/
theorem test_rotate_r :
    run (fun t => [bc t, af t, cy t]) [0xCB, 0x00]
      (st 0x01B0 0x8500 0x00D8 0x014D 0xFFFE []) =
      some [0x0B00, 0x0110, 8] ∧
    run (fun t => [bc t, af t]) [0xCB, 0x09]
      (st 0x01B0 0x0001 0x00D8 0x014D 0xFFFE []) =
      some [0x0080, 0x0110] ∧
    run (fun t => [bc t, af t]) [0xCB, 0x10]
      (st 0x0110 0x0000 0x00D8 0x014D 0xFFFE []) =
      some [0x0100, 0x0100] ∧
    run (fun t => [bc t, af t]) [0xCB, 0x19]
      (st 0x0110 0x0000 0x00D8 0x014D 0xFFFE []) =
      some [0x0080, 0x0100] := by decide

/-- 95 2.5. -/
theorem test_shift_r :
    run (fun t => [de t, af t, cy t]) [0xCB, 0x22]
      (st 0x01B0 0x0013 0x8000 0x014D 0xFFFE []) =
      some [0x0000, 0x0190, 8] ∧
    run (fun t => [bc t, af t]) [0xCB, 0x28]
      (st 0x01B0 0x8000 0x00D8 0x014D 0xFFFE []) =
      some [0xC000, 0x0100] ∧
    run (fun t => [de t, af t]) [0xCB, 0x33]
      (st 0x01F0 0x0013 0x00A5 0x014D 0xFFFE []) =
      some [0x005A, 0x0100] ∧
    run (fun t => [bc t, af t]) [0xCB, 0x38]
      (st 0x0110 0x8000 0x00D8 0x014D 0xFFFE []) =
      some [0x4000, 0x0100] := by decide

/-- 95 2.5. -/
theorem test_rotate_hl :
    run (fun t => [at' 0xC000 t, af t, cy t]) [0xCB, 0x06]
      (st 0x0100 0x0013 0x00D8 0xC000 0xFFFE [(0xC000, 0x00)]) =
      some [0x00, 0x0180, 16] ∧
    run (fun t => [at' 0xC000 t, af t, cy t]) [0xCB, 0x0E]
      (st 0x0100 0x0013 0x00D8 0xC000 0xFFFE [(0xC000, 0x02)]) =
      some [0x01, 0x0100, 16] ∧
    run (fun t => [at' 0xC000 t, af t, cy t]) [0xCB, 0x16]
      (st 0x0100 0x0013 0x00D8 0xC000 0xFFFE [(0xC000, 0x11)]) =
      some [0x22, 0x0100, 16] ∧
    run (fun t => [at' 0xC000 t, af t, cy t]) [0xCB, 0x1E]
      (st 0x0100 0x0013 0x00D8 0xC000 0xFFFE [(0xC000, 0x8A)]) =
      some [0x45, 0x0100, 16] := by decide

/-- 95 2.5. -/
theorem test_shift_hl :
    run (fun t => [at' 0xC000 t, af t, cy t]) [0xCB, 0x26]
      (st 0x0100 0x0013 0x00D8 0xC000 0xFFFE [(0xC000, 0xFF)]) =
      some [0xFE, 0x0110, 16] ∧
    run (fun t => [at' 0xC000 t, af t, cy t]) [0xCB, 0x2E]
      (st 0x0100 0x0013 0x00D8 0xC000 0xFFFE [(0xC000, 0x01)]) =
      some [0x00, 0x0190, 16] ∧
    run (fun t => [at' 0xC000 t, af t, cy t]) [0xCB, 0x36]
      (st 0x0110 0x0013 0x00D8 0xC000 0xFFFE [(0xC000, 0x00)]) =
      some [0x00, 0x0180, 16] ∧
    run (fun t => [at' 0xC000 t, af t, cy t]) [0xCB, 0x3E]
      (st 0x0100 0x0013 0x00D8 0xC000 0xFFFE [(0xC000, 0xFF)]) =
      some [0x7F, 0x0110, 16] := by decide

/-- 95 2.5: C is kept, no write. -/
theorem test_bit :
    run (fun t => [af t, cy t]) [0xCB, 0x7F] (st 0x8010 0x0013 0x00D8 0x014D 0xFFFE []) = some [0x8030, 8] ∧
    run (fun t => [af t, cy t]) [0xCB, 0x65] (st 0x01B0 0x0013 0x00D8 0x01EF 0xFFFE []) = some [0x01B0, 8] ∧
    run (fun t => [at' 0xC000 t, af t, cy t]) [0xCB, 0x46]
      (st 0x01B0 0x0013 0x00D8 0xC000 0xFFFE [(0xC000, 0xFE)]) =
      some [0xFE, 0x01B0, 12] := by decide

/-- 95 2.5: no flag. -/
theorem test_res :
    run (fun t => [af t, cy t]) [0xCB, 0xBF] (st 0x80B0 0x0013 0x00D8 0x014D 0xFFFE []) = some [0x00B0, 8] ∧
    run (fun t => [at' 0xC000 t, af t, cy t]) [0xCB, 0x8E]
      (st 0x01B0 0x0013 0x00D8 0xC000 0xFFFE [(0xC000, 0xFF)]) =
      some [0xFD, 0x01B0, 16] := by decide

/-- 95 2.5: no flag. -/
theorem test_set :
    run (fun t => [hl t, af t, cy t]) [0xCB, 0xFC]
      (st 0x01F0 0x0013 0x00D8 0x7F00 0xFFFE []) =
      some [0xFF00, 0x01F0, 8] ∧
    run (fun t => [at' 0xC000 t, af t, cy t]) [0xCB, 0xFE]
      (st 0x01B0 0x0013 0x00D8 0xC000 0xFFFE [(0xC000, 0x00)]) =
      some [0x80, 0x01B0, 16] := by decide

/-- 95 2.6. -/
theorem test_jp :
    run (fun t => [pc t, cy t]) [0xC3, 0x50, 0x01] (lcdOff) = some [0x0150, 16] ∧
    run (fun t => [pc t, cy t]) [0xE9] (st 0x01B0 0x0013 0x00D8 0xC123 0xFFFE []) = some [0xC123, 4] := by decide

/-- 95 2.6. -/
theorem test_jp_cc :
    run (fun t => [pc t, cy t]) [0xC2, 0x00, 0x02]
      (st 0x0100 0x0013 0x00D8 0x014D 0xFFFE []) =
      some [0x0200, 16] ∧
    run (fun t => [pc t, cy t]) [0xD2, 0x00, 0x02]
      (st 0x0110 0x0013 0x00D8 0x014D 0xFFFE []) =
      some [0x0103, 12] := by decide

/-- 95 2.6; the third is at 0x0010 and wraps below 0. -/
theorem test_jr :
    run (fun t => [pc t, cy t]) [0x18, 0xFE] (lcdOff) = some [0x0100, 12] ∧
    run (fun t => [pc t, cy t]) [0x18, 0x80] ((lcdOff).setPc 0x0010) = some [0xFF92, 12] := by decide

/-- 95 2.6. -/
theorem test_jr_cc :
    run (fun t => [pc t, cy t]) [0x20, 0xFB]
      ((st 0x0100 0x0013 0x00D8 0x014D 0xFFFE []).setPc 0x0200) =
      some [0x01FD, 12] ∧
    run (fun t => [pc t, cy t]) [0x20, 0xFB]
      ((st 0x0180 0x0013 0x00D8 0x014D 0xFFFE []).setPc 0x0200) =
      some [0x0202, 8] := by decide

/-- 95 2.6. -/
theorem test_call :
    run (fun t => [pc t, sp t, at' 0xFFFC t, at' 0xFFFD t, cy t]) [0xCD, 0x34, 0x12]
      ((lcdOff).setPc 0x0200) =
      some [0x1234, 0xFFFC, 0x03, 0x02, 24] := by decide

/-- 95 2.6. -/
theorem test_call_cc :
    run (fun t => [pc t, sp t, cy t]) [0xC4, 0x00, 0x02]
      (st 0x0180 0x0013 0x00D8 0x014D 0xFFFE []) =
      some [0x0103, 0xFFFE, 12] ∧
    run (fun t => [pc t, sp t, at' 0xFFFC t, at' 0xFFFD t, cy t]) [0xCC, 0x00, 0x02]
      (st 0x0180 0x0013 0x00D8 0x014D 0xFFFE []) =
      some [0x0200, 0xFFFC, 0x03, 0x01, 24] := by decide

/-- 95 2.6. -/
theorem test_ret :
    run (fun t => [pc t, sp t, cy t]) [0xC9]
      (st 0x01B0 0x0013 0x00D8 0x014D 0xFFFC [(0xFFFC, 0x03), (0xFFFD, 0x02)]) =
      some [0x0203, 0xFFFE, 16] := by decide

/-- 95 2.6. -/
theorem test_ret_cc :
    run (fun t => [pc t, sp t, cy t]) [0xC0]
      (st 0x0180 0x0013 0x00D8 0x014D 0xC000 [(0xC000, 0x34), (0xC001, 0x12)]) =
      some [0x0101, 0xC000, 8] ∧
    run (fun t => [pc t, sp t, cy t]) [0xD8]
      (st 0x0110 0x0013 0x00D8 0x014D 0xC000 [(0xC000, 0x34), (0xC001, 0x12)]) =
      some [0x1234, 0xC002, 20] := by decide

/-- 95 2.6. -/
theorem test_reti :
    run (fun t => [pc t, sp t, t.irq.ime.toNat, t.irq.imeDelay.val, cy t]) [0xD9]
      (st 0x01B0 0x0013 0x00D8 0x014D 0xFFFC [(0xFFFC, 0x50), (0xFFFD, 0x01)]) =
      some [0x0150, 0xFFFE, 0, 2, 16] := by decide

/-- 95 2.6. -/
theorem test_rst :
    run (fun t => [pc t, sp t, at' 0xFFFC t, at' 0xFFFD t, cy t]) [0xEF]
      ((lcdOff).setPc 0x1234) =
      some [0x0028, 0xFFFC, 0x35, 0x12, 16] := by decide

/-- 95 2.7. -/
theorem test_di_ei :
    run (fun t => [t.irq.ime.toNat, t.irq.imeDelay.val, t.irq.halted.toNat, cy t]) [0xF3]
      (ints true 0 false 0x00 0x00) =
      some [0, 0, 0, 4] ∧
    run (fun t => [t.irq.ime.toNat, t.irq.imeDelay.val, t.irq.halted.toNat, cy t]) [0xFB]
      (ints false 0 false 0x01 0x01) =
      some [0, 2, 0, 4] := by decide

/-- 95 2.7. -/
theorem test_halt :
    run (fun t => [pc t, t.irq.ime.toNat, t.irq.imeDelay.val, t.irq.halted.toNat, cy t]) [0x76]
      (ints false 0 false 0x01 0x04) =
      some [0x0101, 0, 0, 1, 4] := by decide

/-- 95 2.7: the fault carries the byte, and the register file has `PC` past it. -/
theorem test_stop_faults :
    (match step ((st 0 0 0 0 0 [(0x0100, 0x10)])) with
      | .fault (.unimplementedOpcode op g) => decide (op = 0x10 ∧ g.pc = 0x0101)
      | _ => false) = true := by decide

/-- 46 R321, by hand from the list of the eleven bytes. -/
theorem test_undefined_bytes_fault :
    [0xD3, 0xDB, 0xDD, 0xE3, 0xE4, 0xEB, 0xEC, 0xED, 0xF4, 0xFC, 0xFD].all (fun b : Byte =>
      match step ((st 0 0 0 0 0 [(0x0100, b)])) with
      | .fault (.unimplementedOpcode op _) => decide (op = b)
      | _ => false) = true := by decide

/-! ### The machine around the instructions -/

/-- 95 2.8, S6: the lowest source first. -/
theorem test_dispatch :
    run (fun t => [pc t, sp t, t.irq.request.toNat, t.irq.ime.toNat, at' 0xFFFC t, at' 0xFFFD t, cy t]) [0x00]
      ((ints true 0 false 0x1F 0x1F).setPc 0x0200) =
      some [0x0040, 0xFFFC, 0x1E, 0, 0x00, 0x02, 16] ∧
    run (fun t => [pc t, t.irq.request.toNat]) [0x00]
      ((ints true 0 false 0x1F 0x10).setPc 0x0200) =
      some [0x0060, 0x00] := by decide

/-- 95 2.8. -/
theorem test_no_dispatch :
    run (fun t => [pc t, t.irq.request.toNat, cy t]) [0x00]
      ((ints true 0 false 0x10 0x0F).setPc 0x0200) =
      some [0x0201, 0x0F, 4] ∧
    run (fun t => [pc t, t.irq.request.toNat, cy t]) [0x00]
      ((ints false 0 false 0x1F 0x1F).setPc 0x0200) =
      some [0x0201, 0x1F, 4] := by decide

/-- 95 2.7: the second step after `EI` still executes, the third dispatches. -/
theorem test_ei_delay :
    run (fun t => [pc t, t.irq.ime.toNat, t.irq.imeDelay.val]) [0x00]
      (ints false 2 false 0x01 0x01) =
      some [0x0101, 0, 1] ∧
    run (fun t => [pc t, cy t]) [0x00] (ints false 1 false 0x01 0x01) = some [0x0040, 16] := by decide

/-- 95 2.7: a request not enabled does not wake, an enabled one does with IME 0. -/
theorem test_halted :
    run (fun t => [pc t, t.irq.halted.toNat, cy t]) [0x3C]
      (ints false 0 true 0x01 0x04) =
      some [0x0100, 1, 4] ∧
    run (fun t => [pc t, t.irq.halted.toNat, af t]) [0x3C]
      (ints false 0 true 0x04 0x04) =
      some [0x0101, 0, 0x0210] := by decide

/-- 95 2.9. -/
theorem test_timer :
    run (fun t => [t.timer.tima.toNat, t.timer.timaAcc, t.irq.request.toNat]) [0x00]
      (timed 5 0xFF 0xAB 12 0 0) =
      some [0xAB, 0, 4] ∧
    run (fun t => [t.timer.tima.toNat, t.timer.timaAcc, t.irq.request.toNat]) [0x00]
      (timed 5 0xFF 0xAB 11 0 0) =
      some [0xFF, 15, 0] ∧
    run (fun t => [t.timer.tima.toNat, t.timer.timaAcc, t.irq.request.toNat]) [0xCD, 0x00, 0x20]
      (timed 5 0xFE 0xFF 8 0 0) =
      some [0xFF, 0, 4] := by decide

/-- 95 2.9: a write to DIV clears it and not its accumulator. -/
theorem test_divider :
    run (fun t => [t.timer.div.toNat, t.timer.divAcc]) [0xE0, 0x04]
      (timed 0 0 0 0 0xAB 200) =
      some [0, 212] := by decide

/-- 95 2.10: a line match raises LCD-STAT in the same step. -/
theorem test_lyc_write :
    run (fun t => [t.irq.request.toNat]) [0xE0, 0x45]
      ((st 0x0000 0x0013 0x00D8 0x014D 0xFFFE []).withPpu { resetPpu with statArm := 8 }) =
      some [2] ∧
    run (fun t => [t.irq.request.toNat]) [0xE0, 0x45]
      ((st 0x0100 0x0013 0x00D8 0x014D 0xFFFE []).withPpu { resetPpu with statArm := 8 }) =
      some [0] := by decide

/-- 95 2.10: `LCDC` from 91 to 11. -/
theorem test_lcd_off :
    run (fun t => [t.ppu.ly, t.ppu.dot, decide (t.ppu.mode = .hblank) |>.toNat]) [0xE0, 0x40]
      ((st 0x1100 0x0013 0x00D8 0x014D 0xFFFE []).withPpu { resetPpu with ly := 1, dot := 256, mode := .hblank }) =
      some [0, 0, 1] := by decide

/-- 95 2.10: the writing step's own 12 cycles count. -/
theorem test_lcd_on :
    run (fun t => [t.ppu.ly, t.ppu.dot, decide (t.ppu.mode = .oamScan) |>.toNat]) [0xE0, 0x40]
      (st 0x9100 0x0013 0x00D8 0x014D 0xFFFE []) =
      some [0, 12, 1] := by decide

/-- 95 2.11. -/
theorem test_blocking :
    run (fun t => [at' 0x8000 t]) [0xEA, 0x00, 0x80]
      ((st 0x7700 0x0013 0x00D8 0x014D 0xFFFE [(0x8000, 0x11)]).withPpu { resetPpu with dot := 84, mode := .pixelTransfer }) =
      some [0x11] ∧
    run (fun t => [af t]) [0xFA, 0x00, 0x80]
      ((st 0x7700 0x0013 0x00D8 0x014D 0xFFFE [(0x8000, 0x11)]).withPpu { resetPpu with dot := 100, mode := .pixelTransfer }) =
      some [0xFF00] := by decide

/-- 95 2.11: the first and the last byte, and the read-back. -/
theorem test_oam_dma :
    run (fun t => [at' 0xFE00 t, at' 0xFE9F t, t.dma.toNat, cy t]) [0xE0, 0x46]
      (st 0xC100 0x0013 0x00D8 0x014D 0xFFFE [(0xC100, 0x01), (0xC19F, 0xDE), (0xC1A0, 0x77)]) =
      some [0x01, 0xDE, 0xC1, 12] := by decide +kernel

/-- The reset state has one step, and the decoder's word runs first when it is placed (log 13). -/
theorem test_with_fetch_word :
    (match step (State.reset.withFetchWord 16 0x053E) with
      | .next t => decide (t.regs.a = 0x05 ∧ t.regs.pc = 0x0102)
      | _ => false) = true := by decide

/-- 95 2.12: a sprite with the larger X in front, drawn over another. -/
theorem test_compositor :
    let cells := [(0x8010, 0xFF), (0x8011, 0xFF), (0xFE00, 0x10), (0xFE01, 0x0A), (0xFE02, 0x01), (0xFE04, 0x10),
      (0xFE05, 0x0E), (0xFE06, 0x01), (0xFE07, 0x10)]
    let s := (st 0 0 0 0 0 cells).withPpu { resetPpu with lcdc := 0x93, bgp := 0xE4, obp0 := 0xE4, obp1 := 0x40 }
    (List.range 16).map (fun x => (columnShade s 0 (spritesToDraw s 0) x).toNat) =
      [0, 0, 3, 3, 3, 3, 1, 1, 1, 1, 1, 1, 1, 1, 0, 0] := by decide

/-! ### Witnesses: a state and operands that meet the hypotheses of each statement, clause by clause -/

/-- The reset state inside Pixel-Transfer, so that video RAM and OAM are blocked. -/
def drawing : State := State.reset.withPpu { resetPpu with dot := 100, mode := .pixelTransfer }

/-- The reset state with an interrupt state, the LCD on. -/
def withInterrupts (ime : Bool) (delay : ImeDelay) (halted : Bool) (enable : Byte) (request : BitVec 5) : State :=
  State.reset.withIrq { ime := ime, imeDelay := delay, halted := halted, enable := enable, request := request }

/-- At the spec value of `TOLERATED_IO` the reset state answers everywhere. -/
theorem reset_readable (a : Addr) : Readable State.reset a := by
  have key : ∀ k < 128, tolerates specConfig (BitVec.ofNat 16 (0xFF00 + k)) = true := by decide +kernel
  by_cases h : 0xFF00 ≤ a.toNat ∧ a.toNat < 0xFF80
  · have e : a = BitVec.ofNat 16 (0xFF00 + (a.toNat - 0xFF00)) := by
      apply BitVec.eq_of_toNat_eq
      simp
      omega
    rw [e]
    exact key _ (by omega)
  · have hr : region a ≠ .io := by
      unfold region
      simp only []
      repeat' split
      all_goals first | omega | simp
    unfold Readable tolerates
    split
    · rename_i hio
      exact absurd hio hr
    · rfl

theorem reset_storable (a : Addr) (v : Byte) : Storable State.reset a v :=
  ⟨reset_readable a, fun _ _ _ => reset_readable _⟩

theorem reset_storableWord (a : Addr) (w : Word) : StorableWord State.reset a w :=
  ⟨reset_storable _ _, reset_storable _ _⟩

theorem witness_DecodeAfterEncode : WellFormed .nop ∧ WellFormed (.ldRR .a .l) ∧ WellFormed (.bitR 7 .a) := by decide

theorem witness_EncodeAfterDecode :
    decode [0xCB, 0x7E, 0x01] = .ok (.bitHl 7, [0x01]) ∧ decode [0xFF] = .ok (.rst 7, []) ∧
    decode [0xEA, 0xFF, 0xFF, 0x00] = .ok (.ldA16A 0xFFFF, [0x00]) := ⟨rfl, rfl, rfl⟩

theorem witness_EveryOpcodeByteDecodes :
    let l : List Byte := [0x10, 0xD3, 0xDB, 0xDD, 0xE3, 0xE4, 0xEB, 0xEC, 0xED, 0xF4, 0xFC, 0xFD]
    0x10 ∈ l ∧ 0xFD ∈ l ∧ 0x0F ∉ l ∧ 0xFF ∉ l := by decide

theorem witness_StepRunsDecodedInstruction :
    let s1 := startStep State.reset
    let s2 := s1.withIrq { s1.irq with halted := false }
    (s1.irq.ime = false ∨ pending s1.irq = 0) ∧ (s1.irq.halted = false ∨ pending s1.irq ≠ 0) ∧
    decode [peek s2.regs.pc s2, peek (s2.regs.pc + 1) s2, peek (s2.regs.pc + 2) s2] = .ok (.nop, [0, 0]) ∧
    WellFormed .nop ∧
    (∀ k < (encode .nop).length, Readable s2 (s2.regs.pc + BitVec.ofNat 16 k) ∧
      steady s2.cfg (s2.regs.pc + BitVec.ofNat 16 k) = true) ∧
    ∃ i s3, fetchInstr s2 = .next (i, s3) :=
  ⟨by decide, by decide, rfl, by decide, by decide, _, _, rfl⟩

/-- The other alternatives of the two premises: `IME` set with nothing pending, and a halt with something pending. -/
theorem witness_StepRunsDecodedInstruction' :
    (let q := (startStep (withInterrupts true 0 false 0x01 0x1E)).irq; pending q = 0 ∧ q.halted = false) ∧
    let q := (startStep (withInterrupts false 0 true 0x04 0x04)).irq
    q.ime = false ∧ q.halted = true ∧ pending q ≠ 0 := by decide

theorem witness_HaltedStepIdles :
    let s := startStep (withInterrupts false 0 true 0x01 0x04)
    s.irq.halted = true ∧ pending s.irq = 0 := by decide

theorem witness_InterruptDispatch :
    (let s1 := startStep (withInterrupts true 0 false 0x1F 0x1F)
     s1.irq.ime = true ∧ s1.irq.enable.getLsbD 0 = true ∧ s1.irq.request.getLsbD 0 = true ∧
     StorableWord s1 (s1.regs.sp - 2) s1.regs.pc) ∧
    let s1 := startStep (withInterrupts false 1 true 0xFF 0x10)
    s1.irq.ime = true ∧ s1.irq.enable.getLsbD 4 = true ∧ s1.irq.request.getLsbD 4 = true ∧
    (∀ m < 4, (s1.irq.enable.getLsbD m && s1.irq.request.getLsbD m) = false) ∧
    StorableWord s1 (s1.regs.sp - 2) s1.regs.pc :=
  ⟨⟨by decide, by decide, by decide, reset_storableWord _ _⟩, by decide, by decide, by decide, by decide,
    reset_storableWord _ _⟩

theorem witness_HaltReleaseAndGate :
    (withInterrupts false 0 true 0x1F 0x1F).irq.ime = false ∧
    (let q := (withInterrupts true 0 true 0x01 0x1E).irq; q.ime = true ∧ q.enable.setWidth 5 &&& q.request = 0) ∧
    (∃ t, interruptCheck (withInterrupts true 0 true 0x01 0x01) = .next (true, t)) ∧
    (∃ r t, interruptCheck (withInterrupts false 0 true 0x01 0x01) = .next (r, t)) ∧
    ∃ t, interruptCheck (startStep (withInterrupts false 0 true 0x10 0x10)) = .next (false, t) ∧ t.irq.halted = false :=
  ⟨by decide, by decide, ⟨_, rfl⟩, ⟨_, _, rfl⟩, _, rfl, rfl⟩

theorem witness_EnableTakesEffectAfterOneInstruction :
    (withInterrupts false 2 false 0 0).irq.imeDelay = 2 ∧ (withInterrupts false 1 false 0 0).irq.imeDelay = 1 ∧
    (withInterrupts false 0 false 0 0x1F).irq.imeDelay = 0 ∧
    (withInterrupts false 0 false 0 0x1F).irq.request.getLsbD 4 = true ∧ State.reset.cfg.hostIrq = false ∧
    let s := withInterrupts false 2 false 0x01 0x01
    s.irq.ime = false ∧ s.irq.imeDelay ≠ 1 ∧ ∃ u, step s = .next u :=
  ⟨rfl, rfl, rfl, rfl, rfl, rfl, by decide, _, rfl⟩

/-- The LCD on, and off. -/
theorem witness_LatchSetsRequests :
    State.reset.ppu.lcdc.getLsbD 7 = true ∧ lcdOff.ppu.lcdc.getLsbD 7 = false := by decide

theorem witness_StepKeepsInvariant : State.reset.Inv ∧ ∃ t, step State.reset = .next t := ⟨by decide, _, rfl⟩

theorem witness_ResetMeetsInvariant :
    Memory.wf [(0xC000, 0x12), (0xFF01, 0x00)] ∧ PixelBuffer.wf [(143, List.replicate 160 0xFFFFFF)] := by
  decide +kernel

theorem witness_ResetValues :
    specConfig.joypad = .store ∧ specConfig.serial = .store ∧ specConfig.apu = .store ∧
    0xFF10 ≤ (0xFF10 : Addr).toNat ∧ (0xFF3F : Addr).toNat ≤ 0xFF3F ∧
    ∀ k ∈ [0xFF00, 0xFF01, 0xFF02, 0xFF10, 0xFF3F], Memory.get [] k = unlisted k := by decide

theorem witness_StepLastsFourToTwentyFourCycles : ∃ t, step State.reset = .next t := ⟨_, rfl⟩

theorem witness_StepKeepsParameters : ∃ t, step drawing = .next t := ⟨_, rfl⟩

theorem witness_InterruptStateWriters :
    (∃ t, exec .nop State.reset = .next t) ∧ Instr.nop ≠ .di ∧ Instr.nop ≠ .ei ∧ Instr.nop ≠ .reti ∧
    Instr.nop ≠ .halt ∧ ∃ t, exec .ei State.reset = .next t := by
  refine ⟨⟨_, rfl⟩, ?_, ?_, ?_, ?_, _, rfl⟩ <;> decide

theorem witness_FlagWriters :
    (∃ t, exec .nop State.reset = .next t) ∧
    mayWrite .nop = { z := false, n := false, h := false, c := false } ∧
    (∃ t, exec .daa State.reset = .next t) ∧ (mayWrite .daa).n = false ∧
    (∃ t, exec (.incR .b) State.reset = .next t) ∧ (mayWrite (.incR .b)).c = false :=
  ⟨⟨_, rfl⟩, by decide, ⟨_, rfl⟩, by decide, ⟨_, rfl⟩, by decide⟩

theorem witness_EveryOtherInstructionCompletes :
    (∀ a, Readable State.reset a) ∧ faultingByte .nop = none ∧ faultingByte (.rst 7) = none :=
  ⟨reset_readable, rfl, rfl⟩

theorem witness_UnimplementedOpcodesFault : ∃ g, exec .undefFD State.reset = .fault (.unimplementedOpcode 0xFD g) :=
  ⟨_, rfl⟩

theorem witness_WriteThenRead :
    isRam 0xC000 = true ∧ isRam 0xFDFF = true ∧ isRam 0xFF80 = true ∧ isRam 0xFFFE = true ∧ region 0xFFFF = .ie ∧
    region 0x8000 = .vram ∧ region 0x9FFF = .vram ∧ region 0xFE00 = .oam ∧ region 0xFE9F = .oam ∧
    blocked lcdOff = false ∧ lcdOff.cfg.joypad = .store ∧ lcdOff.cfg.serial = .store ∧ lcdOff.cfg.apu = .store ∧
    0xFF10 ≤ (0xFF10 : Addr).toNat ∧ (0xFF3F : Addr).toNat ≤ 0xFF3F := by decide

theorem witness_MirrorSharesWorkingRam :
    (0xE000 ≤ (0xE000 : Addr).toNat ∧ (0xFDFF : Addr).toNat ≤ 0xFDFF) ∧
    (∃ u, memWrite 0xDE00 0x5A State.reset = .next u) ∧ (∃ u, memWrite 0xDFFF 0x5A State.reset = .next u) ∧
    (0xFDFF : Addr) ≠ 0xDFFF :=
  ⟨by decide, ⟨_, rfl⟩, ⟨_, rfl⟩, by decide⟩

theorem witness_UnmappedRangeIsInert : 0xFEA0 ≤ (0xFEA0 : Addr).toNat ∧ (0xFEFF : Addr).toNat ≤ 0xFEFF := by decide

theorem witness_PixelTransferBlocksVideoMemory :
    region 0x8000 = .vram ∧ region 0x9FFF = .vram ∧ region 0xFE00 = .oam ∧ region 0xFE9F = .oam ∧
    (drawing.cfg.vramOamBlocking = true ∧ drawing.ppu.lcdc.getLsbD 7 = true ∧ drawing.ppu.mode = .pixelTransfer) ∧
    lcdOff.ppu.lcdc.getLsbD 7 = false ∧ State.reset.ppu.mode ≠ .pixelTransfer := by decide

theorem witness_CartridgeRangesForward :
    region 0x0000 = .rom ∧ region 0x7FFF = .rom ∧ region 0xA000 = .cartRam ∧ region 0xBFFF = .cartRam ∧
    State.reset.cfg.cart = .flatRom ∧ (State.launch { specConfig with cart := .any } [] [] 0).cfg.cart = .any := by
  decide

/-- The bounds of the ranges, for the reads, the writes and the unowned addresses. -/
theorem witness_IoRegisterReads :
    0xFF10 ≤ (0xFF10 : Addr).toNat ∧ (0xFF3F : Addr).toNat ≤ 0xFF3F ∧ 0xFF08 ≤ (0xFF08 : Addr).toNat ∧
    (0xFF0E : Addr).toNat ≤ 0xFF0E ∧ 0xFF4C ≤ (0xFF4C : Addr).toNat ∧ (0xFF7F : Addr).toNat ≤ 0xFF7F := by decide

theorem witness_IoRegisterWrites :
    (State.reset.ppu.lcdc.getLsbD 7 = true ∧ (0x11 : Byte).getLsbD 7 = false) ∧
    (lcdOff.ppu.lcdc.getLsbD 7 = false ∧ (0x91 : Byte).getLsbD 7 = true) ∧
    State.reset.ppu.lcdc.getLsbD 7 = (0x81 : Byte).getLsbD 7 := by decide

theorem witness_UnownedIoAddresses :
    (0xFF03 : Addr) ∈ State.reset.cfg.toleratedIo ∧ (0xFF7F : Addr) ∈ State.reset.cfg.toleratedIo ∧
    (0xFF03 : Addr) ∉ (State.launch { specConfig with toleratedIo := [0xFF08], tolerates_unowned := by decide } [] [] 0).cfg.toleratedIo ∧
    State.reset.cfg.toleratedIo = everyUnownedIo := by decide +kernel

theorem witness_OamDmaCopies :
    Storable State.reset 0xFF46 0xC1 ∧ blocked State.reset = false ∧
    (∀ i < 160, steady State.reset.cfg (BitVec.ofNat 16 (0xC1 * 256 + i)) = true) ∧
    steady State.reset.cfg (BitVec.ofNat 16 (0xFF * 256 + 0x9F)) = true ∧
    Storable drawing 0xFF46 0xFF ∧ blocked drawing = true :=
  ⟨reset_storable _ _, by decide, by decide +kernel, by decide, reset_storable _ _, by decide⟩

theorem witness_PushThenPop :
    isRam (State.reset.regs.sp - 2) = true ∧ isRam (State.reset.regs.sp - 2 + 1) = true := by decide

theorem witness_TimerRunClosedForm :
    resetTimer.tac.getLsbD 2 = false ∧
    (let t := { resetTimer with tac := 5, tima := 0xFA }
     t.tac.getLsbD 2 = true ∧ t.tima.toNat + (t.timaAcc + 80) / 16 < 256 ∧
       256 ≤ t.tima.toNat + (t.timaAcc + 96) / 16) := by decide

theorem witness_FrameLaw :
    bitOf State.reset.ppu.lcdc 7 = true ∧ State.reset.ppu.inPlace ∧ State.reset.ppu.position = 0 ∧
    State.reset.ppu.reqVblank = false := by decide

theorem witness_StatEvents :
    let p := { resetPpu with ly := 153, dot := 455, mode := .vblank }
    (bitOf resetPpu.lcdc 7 = true ∧ resetPpu.inPlace) ∧ bitOf p.lcdc 7 = true ∧ p.inPlace := by decide

/-- Entry 39 with Y 16 and X 1, then X 167, on line 0. -/
theorem witness_SpriteSelection :
    ∀ x ∈ [(1 : Byte), 167],
      let m : Memory := [(0xFE9C, 0x10), (0xFE9D, x)]
      let y := (m.get (0xFE00 + 4 * 39)).toNat
      let x := (m.get (0xFE00 + 4 * 39 + 1)).toNat
      y ≤ 0 + 16 ∧ 0 + 16 < y + 8 ∧ 1 ≤ x ∧ x ≤ 167 := by decide

theorem witness_SpriteDrawOrder : (([oamEntry [] 0, oamEntry [] 39] : List Sprite).map Sprite.index).Nodup := by decide

theorem witness_LayerPriority :
    let s := lcdOff.withMem [(0x8010, 0xFF)]
    let sp : Sprite := { index := 0, y := 16, x := 8, tile := 1, flags := 0x80 }
    let under := windowColumn s 0 7 (backgroundColumn s 0 7)
    (sp.x ≤ 7 + 8 ∧ 7 < sp.x ∧ spriteColour s 0 7 sp ≠ 0 ∧ (sp.flags.getLsbD 7 = true → under.bgcol = 0)) ∧
    ∀ q ∈ [{ sp with x := 16 }, { sp with tile := 0 }],
      ¬ (q.x ≤ 7 + 8 ∧ 7 < q.x ∧ spriteColour s 0 7 q ≠ 0 ∧ (q.flags.getLsbD 7 = true → under.bgcol = 0)) := by
  decide

/-- Background off and on; the window away and at its first column; a sprite at its last row and column, 16 rows high. -/
theorem witness_LayerPriority' :
    (lcdOff.withPpu { resetPpu with lcdc := 0x90 }).ppu.lcdc.getLsbD 0 = false ∧
    State.reset.ppu.lcdc.getLsbD 0 = true ∧
    (let p := { resetPpu with lcdc := 0xB1, wx := 7, wy := 143 }
     p.lcdc.getLsbD 5 = true ∧ p.wy.toNat ≤ 143 ∧ (p.wx.toNat : Int) - 7 ≤ (0 : Nat) ∧ ¬ p.wy.toNat ≤ 142) ∧
    let sp : Sprite := { index := 39, y := 16, x := 8, tile := 1, flags := 0x60 }
    sp.y ≤ 15 + 16 ∧ 15 + 16 < sp.y + 16 ∧ sp.x ≤ 7 + 8 ∧ 7 < sp.x := by decide

theorem witness_RenderLineReadsVideoMemoryOnly :
    (0 : Nat) ≠ 143 ∧ (143 : Nat) < 144 ∧ (159 : Nat) < 160 ∧
    shadeRgb specConfig.shadeRgb 3 = shadeRgb specConfig.shadeRgb 3 ∧
    ∀ k, (0x8000 ≤ k ∧ k < 0xA000) ∨ (0xFE00 ≤ k ∧ k < 0xFEA0) →
      Memory.get [(0xC000, 0x12)] k = Memory.get [] k := by
  refine ⟨by decide, by decide, by decide, rfl, fun k hk => ?_⟩
  have h : ¬ 0xC000 = k := by omega
  unfold Memory.get cellsGet
  rw [if_neg h]
  rfl

theorem witness_LoadsFromMemory :
    Readable State.reset State.reset.hl ∧ Readable State.reset (getPair .bc State.reset.regs) ∧
    Readable State.reset (getPair .de State.reset.regs) ∧ Readable State.reset (page0xFF 0xFF) ∧
    Readable State.reset (page0xFF State.reset.regs.c) ∧ Readable State.reset 0xFFFF :=
  ⟨reset_readable _, reset_readable _, reset_readable _, reset_readable _, reset_readable _, reset_readable _⟩

theorem witness_StoresToMemory :
    Storable State.reset State.reset.hl State.reset.regs.a ∧
    Storable State.reset (getPair .bc State.reset.regs) State.reset.regs.a ∧
    Storable State.reset (getPair .de State.reset.regs) State.reset.regs.a ∧
    Storable State.reset (page0xFF 0x46) State.reset.regs.a ∧
    Storable State.reset (page0xFF State.reset.regs.c) State.reset.regs.a ∧ Storable State.reset 0xFFFF 0xFF :=
  ⟨reset_storable _ _, reset_storable _ _, reset_storable _ _, reset_storable _ _, reset_storable _ _,
    reset_storable _ _⟩

theorem witness_SixteenBitLoads :
    StorableWord State.reset 0xC000 State.reset.regs.sp ∧ StorableWord State.reset 0xFFFF State.reset.regs.sp ∧
    isRam 0xC000 = true ∧ isRam (0xC000 + 1) = true :=
  ⟨reset_storableWord _ _, reset_storableWord _ _, by decide, by decide⟩

theorem witness_Pushes :
    StorableWord State.reset (State.reset.regs.sp - 2) (getStackPair .bc State.reset.regs) ∧
    StorableWord State.reset (State.reset.regs.sp - 2) (getAf State.reset.regs) ∧
    isRam (State.reset.regs.sp - 2) = true ∧ isRam (State.reset.regs.sp - 2 + 1) = true :=
  ⟨reset_storableWord _ _, reset_storableWord _ _, by decide, by decide⟩

theorem witness_Pops : Readable State.reset State.reset.regs.sp ∧ Readable State.reset (State.reset.regs.sp + 1) :=
  ⟨reset_readable _, reset_readable _⟩

theorem witness_AddAndAdc : Readable State.reset State.reset.hl := reset_readable _

theorem witness_SubSbcAndCp : Readable lcdOff lcdOff.hl := reset_readable _

theorem witness_AndXorOr : Readable drawing drawing.hl := reset_readable _

theorem witness_IncrementAndDecrementBytes :
    Readable State.reset State.reset.hl ∧ ∀ v, Storable State.reset State.reset.hl v :=
  ⟨reset_readable _, reset_storable _⟩

theorem witness_DecimalAdjustGivesBcd :
    99 < 100 ∧ AluOp.adc ∈ [AluOp.add, AluOp.adc] ∧ AluOp.sbc ∈ [AluOp.sub, AluOp.sbc] := by decide

theorem witness_MemoryRotates :
    Readable State.reset State.reset.hl ∧
    Storable State.reset State.reset.hl (rotatedValue .sra (peek State.reset.hl State.reset) State.reset.regs.f) :=
  ⟨reset_readable _, reset_storable _ _⟩

theorem witness_BitInstructions :
    Readable State.reset State.reset.hl ∧ ∀ v, Storable State.reset State.reset.hl v :=
  ⟨reset_readable _, reset_storable _⟩

/-- At reset Z and C are 1; with both clear every condition goes the other way. -/
theorem witness_Jumps :
    let f := State.reset.regs.f
    let g : Flags := { f with z := false, c := false }
    (f.z = true ∧ f.c = true) ∧ g.z = false ∧ g.c = false ∧ 0 < 4 ∧ 3 < 4 := by decide

theorem witness_Calls :
    condHolds .z State.reset.regs.f = true ∧ condHolds .nc State.reset.regs.f = false ∧
    StorableWord State.reset (State.reset.regs.sp - 2) State.reset.regs.pc ∧
    isRam (State.reset.regs.sp - 2) = true ∧ isRam (State.reset.regs.sp - 2 + 1) = true :=
  ⟨by decide, by decide, reset_storableWord _ _, by decide, by decide⟩

theorem witness_Returns :
    condHolds .c State.reset.regs.f = true ∧ condHolds .nz State.reset.regs.f = false ∧
    Readable State.reset State.reset.regs.sp ∧ Readable State.reset (State.reset.regs.sp + 1) :=
  ⟨by decide, by decide, reset_readable _, reset_readable _⟩

theorem witness_SystemInstructions :
    Instr.nop ∈ [Instr.nop, .halt, .di, .ei] ∧ Instr.ei ∈ [Instr.nop, .halt, .di, .ei] ∧
    ∃ t, exec .halt State.reset = .next t := ⟨by decide, by decide, _, rfl⟩

theorem witness_PrefixRunsSecondPage :
    (0x07 : Byte).toNat % 8 ≠ 6 ∧ ((0x46 : Byte).toNat % 8 = 6 ∧ (0x46 : Byte).toNat / 64 = 1) ∧
    ((0xFE : Byte).toNat % 8 = 6 ∧ (0xFE : Byte).toNat / 64 ≠ 1) ∧ Readable State.reset State.reset.hl ∧
    ∀ v, Storable State.reset State.reset.hl v :=
  ⟨by decide, by decide, by decide, reset_readable _, reset_storable _⟩


end Sys2Proof.Tests
end

section
/-! What an instruction, and the CPU's part of a step, can do when it completes; from it, that no step changes a
parameter of the machine (00 R7). -/

namespace Sys2Proof.Machine

/-! ### Completion -/

/-- The cycle counts that an instruction can have (00 R17). -/
abbrev LegalCycles (n : Nat) : Prop := n % 4 = 0 ∧ 4 ≤ n ∧ n ≤ 24

/-- From `s`, a run of accesses and register updates has ended in `t` with its cycle count. -/
structure Completes (s t : State) : Prop where
  /-- The run left alone what every access leaves alone. -/
  keeps : Keeps s t
  /-- The count is one that an instruction can have. -/
  cycles : LegalCycles t.cycles

/-- What is kept is kept under any interrupt state put in both places. -/
theorem Keeps.withIrq {s u : State} (h : Keeps s u) (q : Irq) : Keeps (s.withIrq q) (u.withIrq q) := by
  obtain ⟨hcfg, hfb, -, -, -, htimer, hvblank, hmem, hppu, hacc⟩ := h
  exact ⟨hcfg, hfb, rfl, rfl, rfl, htimer, hvblank, hmem, hppu, hacc⟩

/-- An access before a completed run belongs to it. -/
theorem Completes.after {s u t : State} (h : Completes u t) (hk : Keeps s u) : Completes s t :=
  ⟨hk.trans h.keeps, h.cycles⟩

/-! ### The shapes of an instruction's meaning -/

section
variable {s t : State} {n : Nat}

theorem finish_completes {u : State} (h : finish n u = .next t) (hn : LegalCycles n) (hk : Keeps s u) :
    Completes s t := by
  cases h; exact ⟨hk.withCycles n, hn⟩

theorem memRead_completes {a : Addr} {k : Byte × State → Res State} (h : andThen (memRead a s) k = .next t)
    (hk : ∀ r, k r = .next t → Completes r.2 t) : Completes s t := by
  obtain ⟨r, hr, h⟩ := andThen_eq_next h
  obtain ⟨-, rfl⟩ := memRead_cases hr
  exact (hk _ h).after (afterRead_keeps a s)

theorem memWrite_completes {a : Addr} {v : Byte} {k : State → Res State} (h : andThen (memWrite a v s) k = .next t)
    (hk : ∀ u, k u = .next t → Completes u t) : Completes s t := by
  obtain ⟨u, hu, h⟩ := andThen_eq_next h
  exact (hk u h).after (memWrite_keeps hu).1

theorem push16_completes {w : Word} {k : State → Res State} (h : andThen (push16 w s) k = .next t)
    (hk : ∀ u, k u = .next t → Completes u t) : Completes s t := by
  obtain ⟨u, hu, h⟩ := andThen_eq_next h
  exact (hk u h).after (push16_keeps hu).1

theorem pop16_completes {k : Word × State → Res State} (h : andThen (pop16 s) k = .next t)
    (hk : ∀ r, k r = .next t → Completes r.2 t) : Completes s t := by
  obtain ⟨r, hr, h⟩ := andThen_eq_next h
  exact (hk r h).after (pop16_keeps hr).1

theorem modifyReg_completes {r : Reg} {f : Byte → Flags → Byte × Flags} (h : modifyReg r f n s = .next t)
    (hn : LegalCycles n) : Completes s t :=
  finish_completes h hn (Keeps.refl s)

theorem modifyByte_completes {a : Addr} {f : Byte → Flags → Byte × Flags} (h : modifyByte a f n s = .next t)
    (hn : LegalCycles n) : Completes s t :=
  memRead_completes h fun _ h => memWrite_completes h fun u h => finish_completes h hn (Keeps.refl u)

end

/-! ### The 0xCB page -/

theorem execCbRotate_completes {o : RotOp} {target : Option Reg} {s t : State}
    (h : execCbRotate o target s = .next t) : Completes s t := by
  cases target with
  | some rs => cases o <;> exact modifyReg_completes h (by decide)
  | none => cases o <;> exact modifyByte_completes h (by decide)

theorem execPrefixCb_completes {op2 : Byte} {s t : State} (h : execPrefixCb op2 s = .next t) : Completes s t := by
  unfold execPrefixCb at h
  dsimp only at h
  split at h
  · exact execCbRotate_completes h
  · exact finish_completes h (by decide) (Keeps.refl s)
  · exact memRead_completes h fun r h => finish_completes h (by decide) (Keeps.refl r.2)
  · exact finish_completes h (by decide) (Keeps.refl s)
  · exact modifyByte_completes h (by decide)
  · exact finish_completes h (by decide) (Keeps.refl s)
  · exact modifyByte_completes h (by decide)

/-! ### Every instruction -/

/-- What an instruction does to `IME`, the pending enable and the halt (46 R316, R319, R320; 45 R299). -/
def irqAfter (i : Instr) (q : Irq) : Irq :=
  match i with
  | .halt => { q with halted := true }
  | .di => { q with ime := false, imeDelay := 0 }
  | .ei => { q with imeDelay := 2 }
  | .reti => { q with imeDelay := 2 }
  | _ => q

theorem execReti_completes {s t : State} (h : execReti s = .next t) :
    Completes (s.withIrq (irqAfter .reti s.irq)) t := by
  obtain ⟨u, hu, h⟩ := andThen_eq_next h
  obtain ⟨r, hr, hu⟩ := andThen_eq_next hu
  cases hu
  obtain ⟨hcfg, hfb, hime, -, hhalted, hrest⟩ := (pop16_keeps hr).1
  exact finish_completes h (by decide) ⟨hcfg, hfb, hime, rfl, hhalted, hrest⟩

/-- An instruction that answers a next state completes, from the interrupt state it sets. The cases are the shapes of
its meaning: a fault, a write of the interrupt state, one read, one write, a read-modify-write, a push, a pop, a
condition that selects between two of these, or registers only. -/
theorem exec_completes {i : Instr} {s t : State} (h : exec i s = .next t) :
    Completes (s.withIrq (irqAfter i s.irq)) t := by
  cases i <;> dsimp only [exec] at h
  case stop | undefD3 | undefDB | undefDD | undefE3 | undefE4 | undefEB | undefEC | undefED | undefF4 | undefFC |
      undefFD => cases h
  case halt | di | ei => exact finish_completes h (by decide) (Keeps.refl _)
  case reti => exact execReti_completes h
  all_goals change Completes s t
  case prefixCb => exact execPrefixCb_completes h
  case ldRHl | ldABc | ldADe | ldAHlInc | ldAHlDec | ldhAA8 | ldhAC | ldAA16 | addAHl | adcAHl | subHl | sbcAHl |
      andHl | xorHl | orHl | cpHl | bitHl =>
    exact memRead_completes h fun r h => finish_completes h (by decide) (Keeps.refl r.2)
  case ldHlR | ldHlD8 | ldBcA | ldDeA | ldHlIncA | ldHlDecA | ldhA8A | ldhCA | ldA16A =>
    exact memWrite_completes h fun u h => finish_completes h (by decide) (Keeps.refl u)
  case ldA16Sp =>
    obtain ⟨u, hu, h⟩ := andThen_eq_next h
    exact finish_completes h (by decide) (memWriteWord_keeps hu).1
  case incHl | decHl | rlcHl | rrcHl | rlHl | rrHl | slaHl | sraHl | swapHl | srlHl | resHl | setHl =>
    exact modifyByte_completes h (by decide)
  case pushRp2 | pushAf | callA16 | rst =>
    exact push16_completes h fun u h => finish_completes h (by decide) (Keeps.refl u)
  case popRp2 | popAf | ret =>
    exact pop16_completes h fun r h => finish_completes h (by decide) (Keeps.refl r.2)
  case jpCcA16 | jrCcE8 =>
    obtain h | h := ite_eq_iff.1 h
    all_goals exact finish_completes h.2 (by decide) (Keeps.refl s)
  case callCcA16 =>
    obtain ⟨-, h⟩ | ⟨-, h⟩ := ite_eq_iff.1 h
    · exact push16_completes h fun u h => finish_completes h (by decide) (Keeps.refl u)
    · exact finish_completes h (by decide) (Keeps.refl s)
  case retCc =>
    obtain ⟨-, h⟩ | ⟨-, h⟩ := ite_eq_iff.1 h
    · exact pop16_completes h fun r h => finish_completes h (by decide) (Keeps.refl r.2)
    · exact finish_completes h (by decide) (Keeps.refl s)
  all_goals exact finish_completes h (by decide) (Keeps.refl s)

/-! ### The CPU's part of a step -/

/-- An interrupt check keeps what an access keeps, but for the interrupt state. -/
theorem interruptCheck_keeps {s : State} {r : Bool × State} (h : interruptCheck s = .next r) :
    ∃ q, Keeps (s.withIrq q) r.2 := by
  unfold interruptCheck at h
  dsimp only at h
  split at h
  · cases h; exact ⟨_, Keeps.refl _⟩
  · obtain ⟨u, hu, h⟩ := andThen_eq_next h
    obtain ⟨v, hv, hu⟩ := andThen_eq_next hu
    cases h; cases hu
    exact ⟨_, (push16_keeps hv).1.withRegs _⟩

theorem execute_completes {s t : State} (h : execute s = .next t) : ∃ q, Completes (s.withIrq q) t := by
  obtain ⟨r, hr, h⟩ := andThen_eq_next h
  exact ⟨_, (exec_completes h).after ((fetchInstr_keeps hr).withIrq _)⟩

/-- The CPU's part of a step takes an interrupt, idles or runs an instruction (60 R340); each completes from some
interrupt state. -/
theorem cpuStep_completes {s t : State} (h : cpuStep s = .next t) : ∃ q, Completes (s.withIrq q) t := by
  obtain ⟨r, hr, h⟩ := andThen_eq_next h
  obtain ⟨q, hk⟩ := interruptCheck_keeps hr
  split at h
  · exact ⟨q, finish_completes h (by decide) hk⟩
  split at h
  · exact ⟨q, finish_completes h (by decide) hk⟩
  · obtain ⟨p, hc⟩ := execute_completes h
    exact ⟨p, hc.after (hk.withIrq p)⟩

/-! ### The parameters -/

@[simp] theorem startStep_cfg (s : State) : (startStep s).cfg = s.cfg := by rw [startStep_eq]

@[simp] theorem finishStep_cfg (s : State) : (finishStep s).cfg = s.cfg := by
  obtain ⟨-, -, -, hcfg, -⟩ := busRun_keeps s.cycles s
  exact hcfg

theorem cpuStep_cfg {s t : State} (h : cpuStep s = .next t) : t.cfg = s.cfg := by
  obtain ⟨_, ⟨hcfg, -⟩, -⟩ := cpuStep_completes h
  exact hcfg

/-- Settles O15: the start of a step, the CPU's part and the devices' advance each keep the parameters (00 R7). -/
theorem stepKeepsParameters : Obligations.StepKeepsParameters := by
  intro s t h
  obtain ⟨u, hu, h⟩ := andThen_eq_next h
  cases h
  rw [finishStep_cfg, cpuStep_cfg hu, startStep_cfg]

end Sys2Proof.Machine
end

section
/-! The invariant of a run (10 R42, R57; 60 R353, R411): the CPU's part of a step keeps the forms of memory, the pixel
buffer and the PPU, and the devices' advance keeps them too and sets the rest. -/

namespace Sys2Proof.Machine

/-! ### The devices' advance -/

/-- After the divider's loop its accumulator is below 256, whatever it was before (10 R42). -/
theorem busRun_divAcc_lt (c : Nat) (s : State) : (busRun c s).timer.divAcc < 256 := by
  change (timerRun c (ppuRun c s).timer).divAcc < 256
  rw [timerRun_divAcc]
  exact Nat.mod_lt _ (by decide)

/-- The latch, the last part of the advance, takes the three one-shot flags back (60 R353). -/
theorem busRun_requests (c : Nat) (s : State) :
    (busRun c s).timer.reqTimer = false ∧ (busRun c s).ppu.reqVblank = false ∧ (busRun c s).ppu.reqStat = false :=
  ⟨rfl, rfl, rfl⟩

/-- The end of a step makes the invariant of the three forms alone. -/
theorem finishStep_inv {s : State} (hmem : s.mem.wf) (hfb : s.fb.wf) (hppu : s.ppu.inPlace) : (finishStep s).Inv := by
  obtain ⟨-, hm, -⟩ := busRun_keeps s.cycles s
  obtain ⟨hf, hp⟩ := busRun_form s.cycles s
  exact ⟨hm ▸ hmem, hf hfb, busRun_divAcc_lt s.cycles s, hp hppu, busRun_requests s.cycles s⟩

/-! ### The CPU's part -/

/-- The CPU's part of a step does not write the pixel buffer and keeps the forms of memory and of the PPU. -/
theorem cpuStep_forms {s t : State} (h : cpuStep s = .next t) :
    t.fb = s.fb ∧ (s.mem.wf → t.mem.wf) ∧ (s.ppu.inPlace → t.ppu.inPlace) := by
  obtain ⟨_, ⟨-, hfb, -, -, -, -, -, hmem, hppu, -⟩, -⟩ := cpuStep_completes h
  exact ⟨hfb, hmem, hppu⟩

/-! ### The step -/

/-- Settles O11: the start of a step touches none of the three forms, the CPU's part keeps them, and the devices'
advance makes the invariant of them. -/
theorem stepKeepsInvariant : Obligations.StepKeepsInvariant := by
  rintro s t ⟨hmem, hfb, -, hppu, -⟩ h
  obtain ⟨u, hu, h⟩ := andThen_eq_next h
  cases h
  rw [startStep_eq] at hu
  obtain ⟨hf, hm, hp⟩ := cpuStep_forms hu
  exact finishStep_inv (hm hmem) (hf ▸ hfb) (hp hppu)

end Sys2Proof.Machine
end

section
/-! Which flags an instruction can change (10 R35). -/

namespace Sys2Proof.Machine

/-! ### Flags that a mask leaves alone -/

/-- From the flags `f` to the flags `g`, no flag changes that the mask `w` does not list. -/
def FlagsKept (w f g : Flags) : Prop :=
  (w.z = false → g.z = f.z) ∧ (w.n = false → g.n = f.n) ∧ (w.h = false → g.h = f.h) ∧ (w.c = false → g.c = f.c)

theorem FlagsKept.of_eq {w f g : Flags} (h : g = f) : FlagsKept w f g := by
  subst h; exact ⟨fun _ => rfl, fun _ => rfl, fun _ => rfl, fun _ => rfl⟩

/-- A mask that lists all four flags asks for nothing. -/
theorem flagsKept_all (f g : Flags) : FlagsKept { z := true, n := true, h := true, c := true } f g :=
  ⟨nofun, nofun, nofun, nofun⟩

/-- A mask that lists all but the carry asks for the carry. -/
theorem flagsKept_allButC {f g : Flags} (h : g.c = f.c) :
    FlagsKept { z := true, n := true, h := true, c := false } f g :=
  ⟨nofun, nofun, nofun, fun _ => h⟩

/-- A mask that lists N, H and C asks for Z. -/
theorem flagsKept_allButZ {f g : Flags} (h : g.z = f.z) :
    FlagsKept { z := false, n := true, h := true, c := true } f g :=
  ⟨fun _ => h, nofun, nofun, nofun⟩

/-! ### The shapes of an instruction's meaning -/

section
variable {w : Flags} {s t : State} {n : Nat}

theorem finish_flags {u : State} (h : finish n u = .next t) (hu : FlagsKept w s.regs.f u.regs.f) :
    FlagsKept w s.regs.f t.regs.f := by
  cases h; exact hu

theorem memRead_flags {a : Addr} {k : Byte × State → Res State} (h : andThen (memRead a s) k = .next t)
    (hk : ∀ r, k r = .next t → FlagsKept w r.2.regs.f t.regs.f) : FlagsKept w s.regs.f t.regs.f := by
  obtain ⟨r, hr, h⟩ := andThen_eq_next h
  obtain ⟨-, rfl⟩ := memRead_cases hr
  exact afterRead_regs a s ▸ hk _ h

theorem memWrite_flags {a : Addr} {v : Byte} {k : State → Res State} (h : andThen (memWrite a v s) k = .next t)
    (hk : ∀ u, k u = .next t → FlagsKept w u.regs.f t.regs.f) : FlagsKept w s.regs.f t.regs.f := by
  obtain ⟨u, hu, h⟩ := andThen_eq_next h
  exact (memWrite_keeps hu).2 ▸ hk u h

theorem push16_flags {v : Word} {k : State → Res State} (h : andThen (push16 v s) k = .next t)
    (hk : ∀ u, k u = .next t → FlagsKept w u.regs.f t.regs.f) : FlagsKept w s.regs.f t.regs.f := by
  obtain ⟨u, hu, h⟩ := andThen_eq_next h
  have hf := hk u h
  rwa [(push16_keeps hu).2] at hf

theorem pop16_flags {k : Word × State → Res State} (h : andThen (pop16 s) k = .next t)
    (hk : ∀ r, k r = .next t → FlagsKept w r.2.regs.f t.regs.f) : FlagsKept w s.regs.f t.regs.f := by
  obtain ⟨r, hr, h⟩ := andThen_eq_next h
  have hf := hk r h
  rwa [(pop16_keeps hr).2] at hf

theorem modifyReg_flags {r : Reg} {f : Byte → Flags → Byte × Flags} (h : modifyReg r f n s = .next t)
    (hf : ∀ v g, FlagsKept w g (f v g).2) : FlagsKept w s.regs.f t.regs.f :=
  finish_flags h (hf _ _)

theorem modifyByte_flags {a : Addr} {f : Byte → Flags → Byte × Flags} (h : modifyByte a f n s = .next t)
    (hf : ∀ v g, FlagsKept w g (f v g).2) : FlagsKept w s.regs.f t.regs.f := by
  refine memRead_flags h fun r h => ?_
  obtain ⟨u, -, h⟩ := andThen_eq_next h
  exact finish_flags h (hf _ _)

theorem callTo_flags {a : Addr} (h : callTo a n s = .next t) : FlagsKept w s.regs.f t.regs.f :=
  push16_flags h fun _ h => finish_flags h (.of_eq rfl)

theorem returnTo_flags (h : returnTo n s = .next t) : FlagsKept w s.regs.f t.regs.f :=
  pop16_flags h fun _ h => finish_flags h (.of_eq rfl)

end

@[simp] theorem putStackPair_f (p : StackPair) (v : Word) (g : Regs) : (putStackPair p v g).f = g.f := by
  cases p <;> rfl

theorem execReti_flags {w : Flags} {s t : State} (h : execReti s = .next t) : FlagsKept w s.regs.f t.regs.f := by
  obtain ⟨u, hu, h⟩ := andThen_eq_next h
  obtain ⟨r, hr, hu⟩ := andThen_eq_next hu
  cases hu
  exact finish_flags h (.of_eq (by simp [(pop16_keeps hr).2]))

/-! ### Every instruction -/

/-- Settles O17: an instruction whose row lists all four flags has nothing to keep; the others are the writers of some
flags, each with the flags it passes on, and those that write none, by the shapes of their meanings. -/
theorem flagWriters : Obligations.FlagWriters := by
  intro i s t h
  change FlagsKept (mayWrite i) s.regs.f t.regs.f
  cases i <;> dsimp only [exec] at h
  case stop | undefD3 | undefDB | undefDD | undefE3 | undefE4 | undefEB | undefEC | undefED | undefF4 | undefFC |
      undefFD => cases h
  case prefixCb | addAR | addAHl | addAD8 | adcAR | adcAHl | adcAD8 | subR | subHl | subD8 | sbcAR | sbcAHl | sbcAD8 |
      andR | andHl | andD8 | xorR | xorHl | xorD8 | orR | orHl | orD8 | cpR | cpHl | cpD8 | addSpE8 | ldHlSpE8 |
      rlca | rrca | rla | rra | rlcR | rlcHl | rrcR | rrcHl | rlR | rlHl | rrR | rrHl | slaR | slaHl | sraR | sraHl |
      swapR | swapHl | srlR | srlHl | popAf => exact flagsKept_all _ _
  -- the writers of some flags
  case incR | decR => exact modifyReg_flags h fun _ _ => flagsKept_allButC rfl
  case incHl | decHl => exact modifyByte_flags h fun _ _ => flagsKept_allButC rfl
  case bitR => exact finish_flags h (flagsKept_allButC rfl)
  case bitHl => exact memRead_flags h fun _ h => finish_flags h (flagsKept_allButC rfl)
  case scf | ccf | addHlRp => exact finish_flags h (flagsKept_allButZ rfl)
  case cpl => exact finish_flags h ⟨fun _ => rfl, nofun, nofun, fun _ => rfl⟩
  case daa => exact modifyReg_flags h fun _ _ => ⟨nofun, fun _ => rfl, nofun, nofun⟩
  -- no flags: registers only, an access, a call, a return, or a condition that selects between two of these
  case nop | halt | di | ei | ldRR | ldRD8 | ldRpD16 | ldSpHl | incRp | decRp | resR | setR | jpA16 | jpHl | jrE8 =>
    exact finish_flags h (.of_eq (by simp))
  case ldRHl | ldABc | ldADe | ldAHlInc | ldAHlDec | ldhAA8 | ldhAC | ldAA16 =>
    exact memRead_flags h fun _ h => finish_flags h (.of_eq (by simp))
  case ldHlR | ldHlD8 | ldBcA | ldDeA | ldHlIncA | ldHlDecA | ldhA8A | ldhCA | ldA16A =>
    exact memWrite_flags h fun _ h => finish_flags h (.of_eq (by simp))
  case ldA16Sp =>
    obtain ⟨u, hu, h⟩ := andThen_eq_next h
    exact finish_flags h (.of_eq (by rw [(memWriteWord_keeps hu).2]))
  case resHl | setHl => exact modifyByte_flags h fun _ _ => .of_eq rfl
  case pushRp2 | pushAf => exact push16_flags h fun _ h => finish_flags h (.of_eq rfl)
  case popRp2 => exact pop16_flags h fun _ h => finish_flags h (.of_eq (by simp))
  case callA16 | rst => exact callTo_flags h
  case ret => exact returnTo_flags h
  case reti => exact execReti_flags h
  case callCcA16 =>
    obtain ⟨-, h⟩ | ⟨-, h⟩ := ite_eq_iff.1 h
    · exact callTo_flags h
    · exact finish_flags h (.of_eq rfl)
  case retCc =>
    obtain ⟨-, h⟩ | ⟨-, h⟩ := ite_eq_iff.1 h
    · exact returnTo_flags h
    · exact finish_flags h (.of_eq rfl)
  case jpCcA16 | jrCcE8 =>
    obtain h | h := ite_eq_iff.1 h
    all_goals exact finish_flags h.2 (.of_eq rfl)

end Sys2Proof.Machine
end

section
/-! The router by address (20 R80 to R84): which addresses a range of the map holds, and for each kind of address the
read and the write that the device behind it answers. -/

namespace Sys2Proof.Machine

/-! ### The map by its bounds (20 R80; 10 R63) -/

theorem region_wram {a : Addr} (h : 0xC000 ≤ a.toNat) (h' : a.toNat ≤ 0xDFFF) : region a = .wram := by
  unfold region; simp (disch := omega) only [if_neg, if_pos]

theorem region_mirror {a : Addr} (h : 0xE000 ≤ a.toNat) (h' : a.toNat ≤ 0xFDFF) : region a = .echo := by
  unfold region; simp (disch := omega) only [if_neg, if_pos]

theorem region_unmapped {a : Addr} (h : 0xFEA0 ≤ a.toNat) (h' : a.toNat ≤ 0xFEFF) : region a = .unmapped := by
  unfold region; simp (disch := omega) only [if_neg, if_pos]

theorem region_io {a : Addr} (h : 0xFF00 ≤ a.toNat) (h' : a.toNat ≤ 0xFF7F) : region a = .io := by
  unfold region; simp (disch := omega) only [if_neg, if_pos]

theorem io_bounds {a : Addr} (h : region a = .io) : 0xFF00 ≤ a.toNat ∧ a.toNat ≤ 0xFF7F := by
  simp only [region, ite_eq_iff, reduceCtorEq, and_false, false_or, or_false] at h
  omega

theorem deviceAt_apu {a : Addr} (h : 0xFF10 ≤ a.toNat) (h' : a.toNat ≤ 0xFF3F) : deviceAt a = some .apu := by
  have hi : ioReg a = .apu := by unfold ioReg; simp (disch := omega) only [if_neg, if_pos]
  simp only [deviceAt, region_io (a := a) (by omega) (by omega), hi]

/-! ### Accesses that answer (20 R105) -/

theorem readable_of_not_io {a : Addr} (h : region a ≠ .io) (s : State) : Readable s a := by
  unfold Readable tolerates; split
  · exact absurd ‹_› h
  · rfl

theorem readable_register {a : Addr} (h : ioReg a ≠ .unowned) (s : State) : Readable s a := by
  unfold Readable tolerates; split
  · exact if_neg h
  · rfl

/-- A write of a byte to any address that answers, but the one that starts the OAM copy. -/
theorem memWrite_poke {a : Addr} {s : State} (h : Readable s a) (hne : a ≠ 0xFF46#16) (v : Byte) :
    memWrite a v s = .next (poke a v s) := by
  rw [memWrite, if_pos h, if_neg hne]

/-- A byte is read back where a read after the write gives it and is no read of a free value. -/
theorem write_then_read {a : Addr} {s : State} {v : Byte} (h : Readable s a) (hne : a ≠ 0xFF46#16)
    (hs : steady s.cfg a = true) (hp : peek a (poke a v s) = v) :
    ∃ u, memWrite a v s = .next u ∧ memRead a u = .next (v, u) := by
  have hr : Readable (poke a v s) a := by rwa [Readable, poke_cfg]
  have ha : afterRead a (poke a v s) = poke a v s := afterRead_steady (by rwa [poke_cfg])
  exact ⟨_, memWrite_poke h hne v, by rw [memRead_next hr, hp, ha]⟩

/-! ### Ports (20 R100 to R103) -/

/-- The owners of a port's addresses. -/
theorem deviceAt_cases {a : Addr} {d : Device} (h : deviceAt a = some d) :
    (region a = .rom ∧ d = .cart) ∨ (region a = .cartRam ∧ d = .cart) ∨
    (region a = .io ∧ ((ioReg a = .joyp ∧ d = .joypad) ∨ (ioReg a = .serial ∧ d = .serial) ∨
      (ioReg a = .apu ∧ d = .apu))) := by
  unfold deviceAt at h
  cases hr : region a <;> simp only [hr] at h
  case rom | cartRam => simp_all
  case io => cases hi : ioReg a <;> simp_all
  all_goals cases h

section
variable {a : Addr} {d : Device} (h : deviceAt a = some d)
include h

theorem readable_port (s : State) : Readable s a := by
  obtain ⟨hr, -⟩ | ⟨hr, -⟩ | ⟨-, ⟨hi, -⟩ | ⟨hi, -⟩ | ⟨hi, -⟩⟩ := deviceAt_cases h
  · exact readable_of_not_io (by simp [hr]) s
  · exact readable_of_not_io (by simp [hr]) s
  all_goals exact readable_register (by simp [hi]) s

theorem steady_port {cfg : Config} (ho : isOpen cfg d = false) : steady cfg a = true := by
  obtain ⟨hr, rfl⟩ | ⟨hr, rfl⟩ | ⟨hr, ⟨hi, rfl⟩ | ⟨hi, rfl⟩ | ⟨hi, rfl⟩⟩ := deviceAt_cases h
  all_goals simp only [steady, *, Bool.not_false]

theorem peek_port (s : State) : peek a s = portRead d a s := by
  obtain ⟨hr, rfl⟩ | ⟨hr, rfl⟩ | ⟨hr, ⟨hi, rfl⟩ | ⟨hi, rfl⟩ | ⟨hi, rfl⟩⟩ := deviceAt_cases h
  all_goals simp only [peek, ioRead, *]

theorem afterRead_port (s : State) : afterRead a s = portNote d (.read a) s := by
  obtain ⟨hr, rfl⟩ | ⟨hr, rfl⟩ | ⟨hr, ⟨hi, rfl⟩ | ⟨hi, rfl⟩ | ⟨hi, rfl⟩⟩ := deviceAt_cases h
  all_goals simp only [afterRead, *]

theorem poke_port (v : Byte) (s : State) : poke a v s = portWrite d a v s := by
  obtain ⟨hr, rfl⟩ | ⟨hr, rfl⟩ | ⟨hr, ⟨hi, rfl⟩ | ⟨hi, rfl⟩ | ⟨hi, rfl⟩⟩ := deviceAt_cases h
  all_goals simp only [poke, ioPoke, *]

theorem port_ne_dma : a ≠ 0xFF46#16 := by
  rintro rfl; cases h

theorem memRead_port (s : State) : memRead a s = .next (portRead d a s, portNote d (.read a) s) := by
  rw [memRead_next (readable_port h s), peek_port h, afterRead_port h]

theorem memWrite_port (v : Byte) (s : State) : memWrite a v s = .next (portWrite d a v s) := by
  rw [memWrite_poke (readable_port h s) (port_ne_dma h), poke_port h]

theorem portReads_at {model : PortModel} {s : State} (hd : d ≠ .cart) (ho : isOpen s.cfg d = (model == .any)) :
    PortReads d model a s :=
  portReads_of (readable_port h s) (peek_port h s) (afterRead_port h s) hd ho

theorem portWrites_at {model : PortModel} {s : State} {v : Byte} (hd : d ≠ .cart)
    (ho : isOpen s.cfg d = (model == .any)) : PortWrites d model a v s :=
  portWrites_of (readable_port h s) (port_ne_dma h) (poke_port h v s) hd ho

/-- A byte store reads the last byte written. -/
theorem peek_poke_port {s : State} {v : Byte} (hd : d ≠ .cart) (ho : isOpen s.cfg d = false) :
    peek a (poke a v s) = v := by
  rw [peek_port h, poke_port h]
  cases d with
  | cart => exact absurd rfl hd
  | joypad | serial | apu => simp [portRead, portWrite, portStored, ho]

end

/-! ### Video memory (20 R92) -/

theorem blocked_iff (s : State) :
    blocked s = true ↔
      s.cfg.vramOamBlocking = true ∧ s.ppu.lcdc.getLsbD 7 = true ∧ s.ppu.mode = .pixelTransfer := by
  simp [blocked, bitOf, and_assoc]

section
variable {a : Addr} (h : region a = .vram ∨ region a = .oam)
include h

theorem readable_video (s : State) : Readable s a :=
  readable_of_not_io (by obtain h | h := h <;> simp [h]) s

theorem steady_video (cfg : Config) : steady cfg a = true := by
  obtain h | h := h <;> simp only [steady, h]

theorem video_ne_dma : a ≠ 0xFF46#16 := by
  rintro rfl; revert h; decide

theorem peek_video (s : State) : peek a s = if blocked s then 0xFF else s.mem.get a.toNat := by
  obtain h | h := h <;> simp only [peek, h]

theorem poke_video (v : Byte) (s : State) :
    poke a v s = if blocked s then s else s.withMem (s.mem.set a.toNat v) := by
  obtain h | h := h <;> simp only [poke, h]

theorem memRead_video (s : State) :
    memRead a s = .next (if blocked s then 0xFF else s.mem.get a.toNat, s) := by
  rw [memRead_next (readable_video h s), peek_video h, afterRead_steady (steady_video h s.cfg)]

theorem memWrite_video (v : Byte) (s : State) :
    memWrite a v s = .next (if blocked s then s else s.withMem (s.mem.set a.toNat v)) := by
  rw [memWrite_poke (readable_video h s) (video_ne_dma h), poke_video h]

end

/-! ### Addresses that nobody owns (20 R105) -/

/-- The unowned addresses of the I/O page by their bounds. -/
theorem ioReg_unowned {a : Addr}
    (h : a = 0xFF03 ∨ (0xFF08 ≤ a.toNat ∧ a.toNat ≤ 0xFF0E) ∨ (0xFF4C ≤ a.toNat ∧ a.toNat ≤ 0xFF7F)) :
    region a = .io ∧ ioReg a = .unowned := by
  obtain rfl | ⟨h, h'⟩ | ⟨h, h'⟩ := h
  · decide
  all_goals
    refine ⟨region_io (by omega) (by omega), ?_⟩
    unfold ioReg; simp (disch := omega) only [if_neg]

/-- The spec value of `TOLERATED_IO` lists every one of them. -/
theorem mem_everyUnownedIo {a : Addr} (hr : region a = .io) (ho : ioReg a = .unowned) : a ∈ everyUnownedIo := by
  have hb := io_bounds hr
  have hu : isUnownedIo a = true := by
    simp only [ioReg, ite_eq_iff, reduceCtorEq, and_false, false_or] at ho
    simp only [isUnownedIo, BitVec.le_def, BitVec.toNat_ofNat, Nat.reducePow, Nat.reduceMod, Bool.or_eq_true,
      beq_iff_eq, ← BitVec.toNat_inj, Bool.and_eq_true, decide_eq_true_eq]
    omega
  refine List.mem_filter.2 ⟨List.mem_map.2 ⟨a.toNat - 0xFF00, List.mem_range.2 (by omega), ?_⟩, hu⟩
  rw [Nat.add_sub_cancel' hb.1, BitVec.ofNat_toNat, BitVec.setWidth_eq]

section
variable {a : Addr} (h : region a = .io ∧ ioReg a = .unowned)
include h

theorem tolerates_unowned_iff (cfg : Config) : tolerates cfg a = true ↔ a ∈ cfg.toleratedIo := by
  simp only [tolerates, h.1, if_pos h.2, List.contains_iff_mem]

theorem memRead_unowned (s : State) :
    memRead a s = if a ∈ s.cfg.toleratedIo then .next (0xFF, s) else .fault (.unimplementedIo a .read s.regs) := by
  have hp : peek a s = 0xFF := by simp only [peek, ioRead, h]
  have ha : afterRead a s = s := by simp only [afterRead, h]
  simp only [memRead, tolerates_unowned_iff h, hp, ha]

theorem memWrite_unowned (v : Byte) (s : State) :
    memWrite a v s =
      if a ∈ s.cfg.toleratedIo then .next s else .fault (.unimplementedIo a (.write v) s.regs) := by
  have hp : poke a v s = s := by simp only [poke, ioPoke, h]
  have hne : a ≠ 0xFF46#16 := by rintro rfl; revert h; decide
  simp only [memWrite, tolerates_unowned_iff h, if_neg hne, hp]

end

end Sys2Proof.Machine
end

section
/-! OAM DMA (20 R106, R107): the copy one transfer at a time. -/

namespace Sys2Proof.Machine

/-! ### One transfer -/

/-- Transfer `i` of a copy from `base`: a router read and a router write. -/
def oamTransfer (base : Addr) (i : Nat) (s : State) : State :=
  poke (0xFE00#16 + BitVec.ofNat 16 i) (peek (base + BitVec.ofNat 16 i) s) (afterRead (base + BitVec.ofNat 16 i) s)

/-- A copy that completes starts with its first transfer. -/
theorem oamDmaLast_first {m : Nat} {base : Addr} {s u : State} (h : oamDmaLast (m + 1) base s = .next u) :
    oamDmaLast m base (oamTransfer base (159 - m) s) = .next u := by
  obtain ⟨r, hr, h⟩ := andThen_eq_next h
  obtain ⟨-, rfl⟩ := memRead_cases hr
  exact h

theorem oamTransfer_cfg (base : Addr) (i : Nat) (s : State) : (oamTransfer base i s).cfg = s.cfg := by
  simp [oamTransfer]

section
variable {i : Nat} (hi : i < 160) (base : Addr) (s : State)
include hi

theorem oamTransfer_eq :
    oamTransfer base i s =
      if blocked s then afterRead (base + BitVec.ofNat 16 i) s
      else (afterRead (base + BitVec.ofNat 16 i) s).withMem
        (s.mem.set (0xFE00 + i) (peek (base + BitVec.ofNat 16 i) s)) := by
  obtain ⟨ha, hr⟩ := oam_addr hi
  rw [storageAddr_of_not_echo (by rw [hr]; decide)] at ha
  simp [oamTransfer, poke_video (.inr hr), ha, blocked]

theorem oamTransfer_dma : (oamTransfer base i s).dma = s.dma := by
  rw [oamTransfer_eq hi]; split <;> simp

theorem oamTransfer_blocked : blocked (oamTransfer base i s) = blocked s := by
  rw [oamTransfer_eq hi]; split <;> simp [blocked]

/-- A transfer changes its own byte of OAM and no other, and none while blocked. -/
theorem oamTransfer_get_other {k : Nat} (h : blocked s = true ∨ k ≠ 0xFE00 + i) :
    (oamTransfer base i s).mem.get k = s.mem.get k := by
  rw [oamTransfer_eq hi]; split
  · simp
  · exact Memory.get_set_ne _ _ (h.resolve_left ‹_›).symm

theorem oamTransfer_get {s : State} (h : blocked s = false) :
    (oamTransfer base i s).mem.get (0xFE00 + i) = peek (base + BitVec.ofNat 16 i) s := by
  simp [oamTransfer_eq hi, h]

/-- A steady read of any other byte gives the same after a transfer. -/
theorem oamTransfer_peek {b : Addr} (hs : steady s.cfg b = true) (hb : storageAddr b ≠ 0xFE00 + i) :
    peek b (oamTransfer base i s) = peek b s := by
  have ha : peek b (afterRead (base + BitVec.ofNat 16 i) s) = peek b s := peek_steady hs (by rw [afterRead_eq])
  rw [oamTransfer_eq hi]; split
  · exact ha
  · rw [peek_withMem (by rw [afterRead_mem, Memory.get_set_ne _ _ hb.symm]), ha]

end

/-! ### The whole copy -/

theorem oamDmaLast_dma {n : Nat} (hn : n ≤ 160) {base : Addr} {s u : State} (h : oamDmaLast n base s = .next u) :
    u.dma = s.dma := by
  induction n generalizing s with
  | zero => cases h; rfl
  | succ m ih => rw [ih (by omega) (oamDmaLast_first h), oamTransfer_dma (by omega)]

/-- The last `n` transfers leave the bytes of OAM before theirs, and every byte while blocked. -/
theorem oamDmaLast_get_other {n : Nat} (hn : n ≤ 160) {base : Addr} {s u : State}
    (h : oamDmaLast n base s = .next u) {j : Nat} (hj : blocked s = true ∨ j < 160 - n) :
    u.mem.get (0xFE00 + j) = s.mem.get (0xFE00 + j) := by
  induction n generalizing s with
  | zero => cases h; rfl
  | succ m ih =>
    rw [ih (by omega) (oamDmaLast_first h), oamTransfer_get_other (by omega)]
    · exact hj.imp_right fun h => by omega
    · rw [oamTransfer_blocked (by omega)]
      exact hj.imp_right fun h => by omega

theorem oamSource {v : Byte} {i : Nat} (hi : i < 160) :
    (mkWord v 0 + BitVec.ofNat 16 i).toNat = v.toNat * 256 + i := by
  have := v.isLt
  rw [BitVec.toNat_add, mkWord_toNat, BitVec.toNat_ofNat]
  simp only [BitVec.ofNat_eq_ofNat, BitVec.toNat_ofNat]
  omega

/-- The source of a transfer is stored in no byte of OAM but its own destination, in which it is stored when the copy
is of OAM itself. -/
theorem oamSource_ne {v : Byte} {i j : Nat} (hi : i < 160) (hj : j < 160) (hij : i ≠ j) :
    storageAddr (mkWord v 0 + BitVec.ofNat 16 j) ≠ 0xFE00 + i := by
  have := oamSource (v := v) hj
  unfold storageAddr; split <;> omega

/-- While not blocked the last `n` transfers put into their bytes of OAM what router reads of their sources give before
the first of them: no transfer before its own changes what a steady source reads as. -/
theorem oamDmaLast_get {n : Nat} (hn : n ≤ 160) {v : Byte} {s u : State} (h : oamDmaLast n (mkWord v 0) s = .next u)
    (hb : blocked s = false) {j : Nat} (hj : j < 160) (hjn : 160 - n ≤ j)
    (hs : steady s.cfg (mkWord v 0 + BitVec.ofNat 16 j) = true) :
    u.mem.get (0xFE00 + j) = peek (mkWord v 0 + BitVec.ofNat 16 j) s := by
  induction n generalizing s with
  | zero => omega
  | succ m ih =>
    have hm : 159 - m < 160 := by omega
    have h := oamDmaLast_first h
    obtain rfl | hne := eq_or_ne (159 - m) j
    · rw [oamDmaLast_get_other (by omega) h (.inr (by omega)), oamTransfer_get hj _ hb]
    · rw [ih (by omega) h (by rwa [oamTransfer_blocked hm]) (by omega) (by rwa [oamTransfer_cfg]),
        oamTransfer_peek hm _ _ hs (oamSource_ne hm hj hne)]

/-- Settles O28: the write stores the byte, then 160 transfers run, each into its own byte of OAM. -/
theorem oamDmaCopies : Obligations.OamDmaCopies := by
  intro s v h
  obtain ⟨u, hu⟩ := memWrite_next h
  obtain ⟨hframe, hregs, -⟩ := memWrite_frame hu
  have hdma : oamDma v (s.withDma v) = .next u := by rwa [memWrite, if_pos h.1] at hu
  refine ⟨u, hu, oamDmaLast_dma le_rfl hdma, hregs, hframe, fun i hi => ⟨fun hb => ?_, fun hb hs => ?_⟩⟩
  · exact oamDmaLast_get_other le_rfl hdma (.inl hb)
  · have hsrc : BitVec.ofNat 16 (v.toNat * 256 + i) = mkWord v 0 + BitVec.ofNat 16 i := by
      rw [← oamSource hi, BitVec.ofNat_toNat, BitVec.setWidth_eq]
    rw [hsrc] at hs ⊢
    exact oamDmaLast_get le_rfl hdma hb hi (by omega) hs

end Sys2Proof.Machine
end

section
/-! The address map (20 R83 to R92, R100): read-back, the mirror, the unmapped range, blocking and the cartridge. -/

namespace Sys2Proof.Machine

/-! ### Read-back -/

@[simp] theorem writeLcdc_lcdc (v : Byte) (p : Ppu) : (writeLcdc v p).lcdc = v := by
  unfold writeLcdc lcdOff lcdOn; dsimp only; split_ifs <;> rfl

/-- The registers of the I/O page that hold a byte written and are no port (20 R93, R94): `TIMA`, `TMA`, `LCDC`, `SCY`,
`SCX`, `LYC`, the palettes, `WY` and `WX`. -/
def byteRegisters : List Addr :=
  [0xFF05, 0xFF06, 0xFF40, 0xFF42, 0xFF43, 0xFF45, 0xFF47, 0xFF48, 0xFF49, 0xFF4A, 0xFF4B]

theorem byteRegister_owned : ∀ a ∈ byteRegisters, ioReg a ≠ .unowned ∧ a ≠ 0xFF46#16 :=
  List.forall_iff_forall_mem.1 (by decide)

theorem steady_byteRegister (cfg : Config) : ∀ a ∈ byteRegisters, steady cfg a = true := by
  simp only [byteRegisters, List.forall_mem_cons]
  exact ⟨rfl, rfl, rfl, rfl, rfl, rfl, rfl, rfl, rfl, rfl, rfl, List.forall_mem_nil _⟩

theorem peek_poke_byteRegister (v : Byte) (s : State) : ∀ a ∈ byteRegisters, peek a (poke a v s) = v := by
  simp only [byteRegisters, List.forall_mem_cons]
  refine ⟨rfl, rfl, ?lcdc, rfl, rfl, ?lyc, rfl, rfl, rfl, rfl, rfl, List.forall_mem_nil _⟩
  case lcdc => exact writeLcdc_lcdc v s.ppu
  case lyc => exact compareLine_lyc { s.ppu with lyc := v }

theorem ram_write_then_read {a : Addr} (h : isRam a = true) (v : Byte) (s : State) :
    ∃ u, memWrite a v s = .next u ∧ memRead a u = .next (v, u) :=
  ⟨_, memWrite_ram h v s, by rw [memRead_ram h, State.withMem_mem, Memory.get_set_self]⟩

theorem port_write_then_read {a : Addr} {d : Device} (h : deviceAt a = some d) (hd : d ≠ .cart) {s : State} (v : Byte)
    (ho : isOpen s.cfg d = false) : ∃ u, memWrite a v s = .next u ∧ memRead a u = .next (v, u) :=
  write_then_read (readable_port h s) (port_ne_dma h) (steady_port h ho) (peek_poke_port h hd ho)

/-- Settles O20, by the kind of address: storage, `IE`, a register of the I/O page, a byte store. -/
theorem writeThenRead : Obligations.WriteThenRead := by
  intro s a v h
  obtain hram | hie | ⟨hvideo, hb⟩ | hreg | ⟨hc, rfl⟩ | ⟨hc, rfl | rfl⟩ | ⟨hc, hlo, hhi⟩ := h
  · exact ram_write_then_read hram v s
  · have hne : a ≠ 0xFF46#16 := by rintro rfl; revert hie; decide
    exact write_then_read (readable_of_not_io (by simp [hie]) s) hne (by simp only [steady, hie])
      (by simp only [peek, poke, hie]; rfl)
  · refine write_then_read (readable_video hvideo s) (video_ne_dma hvideo) (steady_video hvideo s.cfg) ?_
    have hb' : blocked (s.withMem (s.mem.set a.toNat v)) = false := hb
    simp [poke_video hvideo, peek_video hvideo, hb, hb']
  · obtain ⟨howned, hne⟩ := byteRegister_owned a hreg
    exact write_then_read (readable_register howned s) hne (steady_byteRegister s.cfg a hreg)
      (peek_poke_byteRegister v s a hreg)
  · exact port_write_then_read (d := .joypad) rfl nofun v (by simp [isOpen, hc])
  · exact port_write_then_read (d := .serial) rfl nofun v (by simp [isOpen, hc])
  · exact port_write_then_read (d := .serial) rfl nofun v (by simp [isOpen, hc])
  · exact port_write_then_read (deviceAt_apu hlo hhi) nofun v (by simp [isOpen, hc])

/-! ### The mirror -/

/-- The address 0x2000 below a mirror address (20 R89). -/
theorem mirror_below {a : Addr} (h : 0xE000 ≤ a.toNat) (h' : a.toNat ≤ 0xFDFF) :
    region (a - 0x2000) = .wram ∧ storageAddr (a - 0x2000) = storageAddr a := by
  have hn : (a - 0x2000).toNat = a.toNat - 0x2000 :=
    BitVec.toNat_sub_of_le (by rw [BitVec.le_def]; exact le_trans (by decide) h)
  have hw : region (a - 0x2000) = .wram := region_wram (by omega) (by omega)
  exact ⟨hw, by rw [storageAddr_of_not_echo (by rw [hw]; decide), hn, storageAddr, if_pos (region_mirror h h')]⟩

/-- A byte of the top 512 bytes of working RAM is stored for its own address alone. -/
theorem storageAddr_ne_topRam {a b : Addr} (h : 0xDE00 ≤ a.toNat) (h' : a.toNat ≤ 0xDFFF) (hne : b ≠ a) :
    a.toNat ≠ storageAddr b := by
  have hb : b.toNat ≠ a.toNat := fun hh => hne (BitVec.eq_of_toNat_eq hh)
  unfold storageAddr; split
  · have := region_echo ‹_›; omega
  · exact hb.symm

/-- Settles O21: a mirror address and the one 0x2000 below it are plain RAM with one storage address; an address in the
top 512 bytes shares its storage with no other. -/
theorem mirrorSharesWorkingRam : Obligations.MirrorSharesWorkingRam := by
  refine ⟨fun s a v h h' => ?_, fun s u a b v h h' hne hu => ?_⟩
  · obtain ⟨hw, hst⟩ := mirror_below h h'
    have ha : isRam a = true := by simp [isRam, region_mirror h h']
    have hb : isRam (a - 0x2000) = true := by simp only [isRam, hw]; rfl
    exact ⟨by rw [memRead_ram ha, memRead_ram hb, hst], by rw [memWrite_ram ha, memWrite_ram hb, hst], hw⟩
  · have hr : region a = .wram := region_wram (by omega) h'
    rw [memWrite_ram (by simp [isRam, hr]), storageAddr_of_not_echo (by simp [hr])] at hu
    cases hu
    exact peek_withMem (Memory.get_set_ne _ _ (storageAddr_ne_topRam h h' hne))

/-! ### The unmapped range, blocking and the cartridge -/

/-- Settles O22: the range is no part of the I/O page, so its accesses answer, and no device stands behind it. -/
theorem unmappedRangeIsInert : Obligations.UnmappedRangeIsInert := by
  intro s a v h h'
  have hr := region_unmapped h h'
  have ht : Readable s a := readable_of_not_io (by simp [hr]) s
  have hne : a ≠ 0xFF46#16 := by rintro rfl; revert hr; decide
  rw [memRead_next ht, memWrite_poke ht hne]
  simp only [peek, afterRead, poke, hr, and_self]

/-- Settles O23: the two cases are `blocked` and its negation. -/
theorem pixelTransferBlocksVideoMemory : Obligations.PixelTransferBlocksVideoMemory := by
  intro s a v h
  rw [← blocked_iff, memRead_video h, memWrite_video h]
  refine ⟨fun hb => ?_, fun hb => ?_⟩
  · simp only [if_pos hb, and_self]
  · rw [if_neg hb, if_neg hb]; exact ⟨rfl, rfl⟩

/-- Settles O24: both ranges are the cartridge's port. -/
theorem cartridgeRangesForward : Obligations.CartridgeRangesForward := by
  intro s a v h
  have hd : deviceAt a = some .cart := by obtain h | h := h <;> simp only [deviceAt, h]
  rw [memRead_port hd, memWrite_port hd]
  refine ⟨fun hc => ?_, fun hc => ?_⟩
  · have ho : isOpen s.cfg .cart = false := by simp [isOpen, hc]
    rw [portWrite, portRead, portNote_closed ho (.read a), ho]
    exact ⟨rfl, rfl⟩
  · have ho : isOpen s.cfg .cart = true := by simp [isOpen, hc]
    rw [portWrite, portRead, portNote, portNote, ho]
    exact ⟨rfl, rfl⟩

end Sys2Proof.Machine
end

section
/-! The I/O page (20 R93, R94, R101 to R105): every address of it, read and written. -/

namespace Sys2Proof.Machine

/-! ### The registers with bits without state -/

theorem tacRead_tac (s : State) : (tacRead s).extractLsb' 0 3 = s.timer.tac := BitVec.extractLsb'_append_eq_right

theorem iflagRead_request (s : State) : (iflagRead s).extractLsb' 0 5 = s.irq.request :=
  BitVec.extractLsb'_append_eq_right

theorem statRead_fields (s : State) :
    (statRead s).extractLsb' 3 4 = s.ppu.statArm ∧
    (statRead s).getLsbD 2 = decide (s.ppu.ly = s.ppu.lyc.toNat) ∧
    (statRead s).extractLsb' 0 2 = modeNumber s.ppu.mode := by
  refine ⟨?arm, ?compare, BitVec.extractLsb'_append_eq_right⟩
  case arm =>
    rw [statRead, BitVec.extractLsb'_append_eq_of_le (by decide), BitVec.extractLsb'_append_eq_of_le (by decide)]
    exact BitVec.extractLsb'_append_eq_right
  case compare =>
    rw [statRead, BitVec.getLsbD_append, BitVec.getLsbD_append, if_neg (by decide), if_pos (by decide)]
    simp [beq_eq_decide]

/-- Settles O25: a port is read through its device, a register as `ioRead` gives it, with the bits it holds, and an
address that nobody owns by `TOLERATED_IO`. -/
theorem ioRegisterReads : Obligations.IoRegisterReads := by
  intro s
  have hreg : ∀ {a : Addr}, ioReg a ≠ .unowned → memRead a s = .next (peek a s, afterRead a s) :=
    fun h => memRead_next (readable_register h s)
  obtain ⟨harm, hcompare, hmode⟩ := statRead_fields s
  refine ⟨portReads_at rfl nofun rfl, portReads_at rfl nofun rfl, portReads_at rfl nofun rfl,
    fun a h h' => portReads_at (deviceAt_apu h h') nofun rfl, hreg (by decide), hreg (by decide), hreg (by decide),
    hreg (by decide), hreg (by decide), hreg (by decide), hreg (by decide), hreg (by decide), hreg (by decide),
    hreg (by decide), hreg (by decide), hreg (by decide), hreg (by decide), hreg (by decide), ?drawn,
    tacRead_tac s, iflagRead_request s, harm, hcompare, hmode,
    fun a h => memRead_unowned (ioReg_unowned h) s⟩
  case drawn =>
    simp only [List.forall_mem_cons]
    exact ⟨hreg (by decide), hreg (by decide), hreg (by decide), List.forall_mem_nil _⟩

/-! ### The writes with a side effect -/

theorem writeLyc_eq (v : Byte) (p : Ppu) :
    writeLyc v p =
      { p with lyc := v, reqStat := p.reqStat || (decide (p.ly = v.toNat) && p.statArm.getLsbD 3) } := by
  unfold writeLyc compareLine; dsimp only; split <;> simp_all

theorem writeLcdc_off {v : Byte} {p : Ppu} (h : p.lcdc.getLsbD 7 = true) (hv : v.getLsbD 7 = false) :
    writeLcdc v p = { p with lcdc := v, ly := 0, dot := 0, mode := .hblank } := by
  simp only [writeLcdc, bitOf, h, hv]; rfl

theorem writeLcdc_on {v : Byte} {p : Ppu} (h : p.lcdc.getLsbD 7 = false) (hv : v.getLsbD 7 = true) :
    writeLcdc v p = { p with lcdc := v, mode := .oamScan } := by
  simp only [writeLcdc, bitOf, h, hv]; rfl

theorem writeLcdc_same {v : Byte} {p : Ppu} (h : p.lcdc.getLsbD 7 = v.getLsbD 7) :
    writeLcdc v p = { p with lcdc := v } := by
  simp only [writeLcdc, bitOf, h]; cases v.getLsbD 7 <;> rfl

/-- Settles O26: a port takes the write through its device, a register stores its bits as `ioPoke` says, and an address
that nobody owns answers by `TOLERATED_IO`. -/
theorem ioRegisterWrites : Obligations.IoRegisterWrites := by
  intro s v
  have hreg : ∀ {a : Addr}, ioReg a ≠ .unowned → a ≠ 0xFF46#16 → memWrite a v s = .next (poke a v s) :=
    fun h hne => memWrite_poke (readable_register h s) hne v
  have hlcdc : memWrite 0xFF40 v s = .next (s.withPpu (writeLcdc v s.ppu)) := hreg (by decide) (by decide)
  refine ⟨portWrites_at rfl nofun rfl, portWrites_at rfl nofun rfl, portWrites_at rfl nofun rfl,
    hreg (by decide) (by decide), hreg (by decide) (by decide), hreg (by decide) (by decide), ?tac, ?iflag,
    fun a h h' => portWrites_at (deviceAt_apu h h') nofun rfl, fun h hv => ?off, fun h hv => ?on, fun h => ?same,
    hreg (by decide) (by decide), hreg (by decide) (by decide), hreg (by decide) (by decide),
    hreg (by decide) (by decide), ?lyc, rfl, hreg (by decide) (by decide), hreg (by decide) (by decide),
    hreg (by decide) (by decide), hreg (by decide) (by decide), hreg (by decide) (by decide),
    fun a h => memWrite_unowned (ioReg_unowned h) v s⟩
  case tac => rw [BitVec.setWidth_eq_extractLsb' (by decide)]; exact hreg (by decide) (by decide)
  case iflag => rw [BitVec.setWidth_eq_extractLsb' (by decide)]; exact hreg (by decide) (by decide)
  case off => rw [hlcdc, writeLcdc_off h hv]; rfl
  case on => rw [hlcdc, writeLcdc_on h hv]; rfl
  case same => rw [hlcdc, writeLcdc_same h]; rfl
  case lyc => rw [← writeLyc_eq]; exact hreg (by decide) (by decide)

/-! ### The addresses that nobody owns -/

/-- Settles O27: the two accesses differ by membership in `TOLERATED_IO` alone, whose spec value lists every unowned
address of the page. -/
theorem unownedIoAddresses : Obligations.UnownedIoAddresses := by
  refine ⟨fun s a v h => ?_, fun s hs a => ?_⟩
  · have hu := ioReg_unowned h
    rw [memRead_unowned hu, memWrite_unowned hu]
    exact ⟨fun ht => ⟨if_pos ht, if_pos ht⟩, fun ht => ⟨if_neg ht, if_neg ht⟩⟩
  · by_cases ho : ioReg a = .unowned
    · by_cases hr : region a = .io
      · exact (tolerates_unowned_iff ⟨hr, ho⟩ s.cfg).2 (hs ▸ mem_everyUnownedIo hr ho)
      · exact readable_of_not_io hr s
    · exact readable_register ho s

end Sys2Proof.Machine
end

section
/-! The encoding (30): a byte and its slices, the rows that the decoder gives, and that the decoder and the encoder undo
each other. -/

namespace Sys2Proof.Machine

/-! ### A byte and its slices (30 R132, R133) -/

theorem xyz_toNat (x : BitVec 2) (y z : BitVec 3) : (xyz x y z).toNat = (x.toNat * 8 + y.toNat) * 8 + z.toNat := by
  unfold xyz
  rw [BitVec.toNat_append, BitVec.toNat_append, ← Nat.shiftLeft_add_eq_or_of_lt z.isLt,
    ← Nat.shiftLeft_add_eq_or_of_lt y.isLt, Nat.shiftLeft_eq, Nat.shiftLeft_eq]

theorem xyz_toNat_div (x : BitVec 2) (y z : BitVec 3) : (xyz x y z).toNat / 64 = x.toNat := by
  have hy := y.isLt; have hz := z.isLt
  rw [xyz_toNat]; omega

theorem xyz_toNat_mod (x : BitVec 2) (y z : BitVec 3) : (xyz x y z).toNat % 8 = z.toNat := by
  have hz := z.isLt
  rw [xyz_toNat]; omega

@[simp] theorem sliceOf_xyz_group (x : BitVec 2) (y z : BitVec 3) : sliceOf (xyz x y z) 6 2 = x.toNat := by
  have hx := x.isLt
  rw [sliceOf, show 2 ^ 6 = 64 from rfl, xyz_toNat_div]; omega

@[simp] theorem sliceOf_xyz_middle (x : BitVec 2) (y z : BitVec 3) : sliceOf (xyz x y z) 3 3 = y.toNat := by
  have hy := y.isLt; have hz := z.isLt
  rw [sliceOf, xyz_toNat]; omega

@[simp] theorem sliceOf_xyz_low (x : BitVec 2) (y z : BitVec 3) : sliceOf (xyz x y z) 0 3 = z.toNat := by
  rw [sliceOf, Nat.pow_zero, Nat.div_one, show 2 ^ 3 = 8 from rfl, xyz_toNat_mod]

/-- Every byte is put together from its slices. -/
theorem exists_xyz (op : Byte) : ∃ x y z, op = xyz x y z := by
  refine ⟨BitVec.ofNat 2 (sliceOf op 6 2), BitVec.ofNat 3 (sliceOf op 3 3), BitVec.ofNat 3 (sliceOf op 0 3), ?_⟩
  apply BitVec.eq_of_toNat_eq
  have := op.isLt
  simp only [xyz_toNat, BitVec.toNat_ofNat, sliceOf]
  omega

/-- The four groups of a page. -/
theorem group_cases {P : BitVec 2 → Prop} (zero : P 0) (one : P 1) (two : P 2) (three : P 3) (x : BitVec 2) :
    P x := by
  have : x = 0 ∨ x = 1 ∨ x = 2 ∨ x = 3 := by revert x; decide
  rcases this with rfl | rfl | rfl | rfl <;> assumption

/-- The eight values of a 3-bit slice. -/
theorem slice_cases {P : BitVec 3 → Prop} (zero : P 0) (one : P 1) (two : P 2) (three : P 3) (four : P 4) (five : P 5)
    (six : P 6) (seven : P 7) (y : BitVec 3) : P y := by
  have : y = 0 ∨ y = 1 ∨ y = 2 ∨ y = 3 ∨ y = 4 ∨ y = 5 ∨ y = 6 ∨ y = 7 := by revert y; decide
  rcases this with rfl | rfl | rfl | rfl | rfl | rfl | rfl | rfl <;> assumption

@[simp] theorem regOf?_code (r : Reg) : regOf? r.code.toNat = some r := by cases r <;> rfl

@[simp] theorem regOf?_hl : regOf? 6 = none := rfl

/-- An operand index stands for the byte at `HL` or for a register (10 R27). -/
theorem operand_cases {P : BitVec 3 → Prop} (hl : P 6) (reg : ∀ r : Reg, P r.code) (z : BitVec 3) : P z := by
  cases z using slice_cases
  case six => exact hl
  case zero => exact reg .b
  case one => exact reg .c
  case two => exact reg .d
  case three => exact reg .e
  case four => exact reg .h
  case five => exact reg .l
  case seven => exact reg .a

/-! ### The rows of the 0xCB page (30 R143, 44 R249) -/

theorem decodeCb_rotR (y : BitVec 3) (r : Reg) :
    decodeCb (xyz 0 y r.code) = rotRegInstr (rotOpOf y.toNat) r := by simp [decodeCb]
theorem decodeCb_rotHl (y : BitVec 3) : decodeCb (xyz 0 y 6) = rotHlInstr (rotOpOf y.toNat) := by simp [decodeCb]
theorem decodeCb_bitR (b : BitVec 3) (r : Reg) : decodeCb (xyz 1 b r.code) = .bitR b r := by simp [decodeCb]
theorem decodeCb_bitHl (b : BitVec 3) : decodeCb (xyz 1 b 6) = .bitHl b := by simp [decodeCb]
theorem decodeCb_resR (b : BitVec 3) (r : Reg) : decodeCb (xyz 2 b r.code) = .resR b r := by simp [decodeCb]
theorem decodeCb_resHl (b : BitVec 3) : decodeCb (xyz 2 b 6) = .resHl b := by simp [decodeCb]
theorem decodeCb_setR (b : BitVec 3) (r : Reg) : decodeCb (xyz 3 b r.code) = .setR b r := by simp [decodeCb]
theorem decodeCb_setHl (b : BitVec 3) : decodeCb (xyz 3 b 6) = .setHl b := by simp [decodeCb]

/-! ### Decoding what was encoded -/

/-- A row whose operand is a word gives it back from its two bytes (30 R136). -/
theorem decode_withWord {op : Byte} {f : Word → Instr} (hl : instrLength op = 3)
    (hf : ∀ b1 b2, decodeBytes op b1 b2 = f (mkWord b2 b1)) (w : Word) (rest : List Byte) :
    decode (withWord op w ++ rest) = .ok (f w, rest) := by
  simp only [decode, withWord, List.cons_append, List.nil_append, hl, hf, mkWord_hi8_lo8]

/-- 0xCB and a second byte are the row of the 0xCB page. -/
theorem decode_cb {op2 : Byte} {i : Instr} (h : decodeCb op2 = i) (rest : List Byte) :
    decode ([0xCB, op2] ++ rest) = .ok (i, rest) := h ▸ rfl

theorem decode_rst (t : BitVec 3) (rest : List Byte) : decode ([xyz 3 t 7] ++ rest) = .ok (.rst t, rest) := by
  cases t using slice_cases <;> rfl

/-- Settles O1, by the place of the operands: a word, a second byte of the 0xCB page, an index field of the opcode byte,
a byte behind it, or none. -/
theorem decodeAfterEncode : Obligations.DecodeAfterEncode := by
  intro i rest h
  cases i
  case prefixCb => cases h
  -- a word behind the opcode byte
  case ldA16A | ldAA16 | ldA16Sp | jpA16 | callA16 => exact decode_withWord rfl (fun _ _ => rfl) _ rest
  case ldRpD16 p w => cases p <;> exact decode_withWord rfl (fun _ _ => rfl) w rest
  case jpCcA16 cc a | callCcA16 cc a => cases cc <;> exact decode_withWord rfl (fun _ _ => rfl) a rest
  -- the 0xCB page
  case rlcR | rrcR | rlR | rrR | slaR | sraR | swapR | srlR => exact decode_cb (decodeCb_rotR _ _) rest
  case bitR b rs => exact decode_cb (decodeCb_bitR b rs) rest
  case resR b rs => exact decode_cb (decodeCb_resR b rs) rest
  case setR b rs => exact decode_cb (decodeCb_setR b rs) rest
  case bitHl b => exact decode_cb (decodeCb_bitHl b) rest
  case resHl b => exact decode_cb (decodeCb_resHl b) rest
  case setHl b => exact decode_cb (decodeCb_setHl b) rest
  -- an index in the opcode byte
  case ldRR rd rs => cases rd <;> cases rs <;> rfl
  case ldRHl r | ldHlR r | ldRD8 r n | addAR r | adcAR r | subR r | sbcAR r | andR r | xorR r | orR r | cpR r | incR r |
      decR r => cases r <;> rfl
  case pushRp2 p | popRp2 p | addHlRp p | incRp p | decRp p => cases p <;> rfl
  case jrCcE8 cc _ | retCc cc => cases cc <;> rfl
  case rst t => exact decode_rst t rest
  -- a fixed opcode byte, with a byte behind it or none
  all_goals rfl

theorem decode_of_encode {i : Instr} {bytes : List Byte} (hi : WellFormed i) (hb : encode i ++ [] = bytes) :
    decode bytes = .ok (i, []) := hb ▸ decodeAfterEncode i [] hi

/-- Settles O3: each word is the encoding of its instruction, so that O1 decodes it. -/
theorem sampleWordsDecode : Obligations.SampleWordsDecode := by
  refine ⟨?_, ?_, ?_, ?_, ?_, ?_, ?_, ?_, ?_, ?_, ?_, ?_, ?_⟩
  all_goals exact decode_of_encode rfl rfl

/-! ### Encoding what was decoded -/

theorem withWord_mkWord (op b1 b2 : Byte) : withWord op (mkWord b2 b1) = [op, b1, b2] := by
  rw [withWord, lo8_mkWord, hi8_mkWord]

/-- `i` is an instruction whose encoding is the opcode byte `op` and those of the bytes `b1` and `b2` that its length
takes in. -/
abbrev RowOf (op b1 b2 : Byte) (i : Instr) : Prop := WellFormed i ∧ encode i = [op, b1, b2].take (instrLength op)

theorem rowOf_decodeCb (op2 b2 : Byte) : RowOf 0xCB op2 b2 (decodeCb op2) := by
  obtain ⟨x, y, z, rfl⟩ := exists_xyz op2
  cases z using operand_cases <;> cases x using group_cases
  case hl.zero => rw [decodeCb_rotHl]; cases y using slice_cases <;> exact ⟨rfl, rfl⟩
  case reg.zero => rw [decodeCb_rotR]; cases y using slice_cases <;> exact ⟨rfl, rfl⟩
  all_goals
    simp only [decodeCb_bitR, decodeCb_bitHl, decodeCb_resR, decodeCb_resHl, decodeCb_setR, decodeCb_setHl]
    exact ⟨rfl, rfl⟩

theorem rowOf_decodeX0 (y z : BitVec 3) (b1 b2 : Byte) : RowOf (xyz 0 y z) b1 b2 (decodeX0 y.toNat z.toNat b1 b2) := by
  cases z using slice_cases <;> cases y using slice_cases
  case zero.one | one.zero | one.two | one.four | one.six => exact ⟨rfl, withWord_mkWord _ b1 b2⟩
  all_goals exact ⟨rfl, rfl⟩

theorem instrLength_x1 (y z : BitVec 3) : instrLength (xyz 1 y z) = 1 := by simp [instrLength]
theorem instrLength_x2 (y z : BitVec 3) : instrLength (xyz 2 y z) = 1 := by simp [instrLength]

theorem rowOf_decodeX1 (y z : BitVec 3) (b1 b2 : Byte) : RowOf (xyz 1 y z) b1 b2 (decodeX1 y.toNat z.toNat) := by
  rw [RowOf, instrLength_x1]
  cases y using operand_cases <;> cases z using operand_cases
  all_goals simp only [decodeX1, regOf?_code]; exact ⟨rfl, rfl⟩

theorem rowOf_decodeX2 (y z : BitVec 3) (b1 b2 : Byte) : RowOf (xyz 2 y z) b1 b2 (decodeX2 y.toNat z.toNat) := by
  rw [RowOf, instrLength_x2]
  cases z using operand_cases
  case hl => cases y using slice_cases <;> exact ⟨rfl, rfl⟩
  case reg r => rw [decodeX2, regOf?_code]; cases y using slice_cases <;> exact ⟨rfl, rfl⟩

theorem rowOf_decodeX3 (y z : BitVec 3) (b1 b2 : Byte) : RowOf (xyz 3 y z) b1 b2 (decodeX3 y.toNat z.toNat b1 b2) := by
  cases z using slice_cases <;> cases y using slice_cases
  case three.one => exact rowOf_decodeCb b1 b2
  case two.zero | two.one | two.two | two.three | two.five | two.seven | three.zero | four.zero | four.one | four.two |
      four.three | five.one => exact ⟨rfl, withWord_mkWord _ b1 b2⟩
  all_goals exact ⟨rfl, rfl⟩

/-- What the decoder gives is a row of the bytes it was given. -/
theorem rowOf_decodeBytes (op b1 b2 : Byte) : RowOf op b1 b2 (decodeBytes op b1 b2) := by
  obtain ⟨x, y, z, rfl⟩ := exists_xyz op
  cases x using group_cases <;> simp only [decodeBytes, sliceOf_xyz_group, sliceOf_xyz_middle, sliceOf_xyz_low]
  case zero => exact rowOf_decodeX0 y z b1 b2
  case one => exact rowOf_decodeX1 y z b1 b2
  case two => exact rowOf_decodeX2 y z b1 b2
  case three => exact rowOf_decodeX3 y z b1 b2

/-- Bytes that decode begin with an opcode byte and as many more bytes as it asks for. -/
theorem decode_eq_ok {bytes rest : List Byte} {i : Instr} (h : decode bytes = .ok (i, rest)) :
    ∃ op b1 b2, i = decodeBytes op b1 b2 ∧ bytes = [op, b1, b2].take (instrLength op) ++ rest := by
  unfold decode at h
  split at h
  · cases h
  next op tail =>
    split at h
    next hl => cases h; exact ⟨op, 0, 0, rfl, by rw [hl]; rfl⟩
    next b1 _ hl => cases h; exact ⟨op, b1, 0, rfl, by rw [hl]; rfl⟩
    next b1 b2 _ hl => cases h; exact ⟨op, b1, b2, rfl, by rw [hl]; rfl⟩
    · cases h

/-- Settles O2: what decodes is a row of the decoder, and a row is encoded by the bytes it was read from. -/
theorem encodeAfterDecode : Obligations.EncodeAfterDecode := by
  intro bytes rest i h
  obtain ⟨op, b1, b2, rfl, rfl⟩ := decode_eq_ok h
  obtain ⟨hwf, henc⟩ := rowOf_decodeBytes op b1 b2
  exact ⟨hwf, by rw [henc]⟩

/-! ### Every opcode byte -/

theorem instrLength_cases (op : Byte) : instrLength op = 1 ∨ instrLength op = 2 ∨ instrLength op = 3 := by
  simp only [instrLength]
  repeat' split
  all_goals decide

/-- Three bytes are always enough (30 R145). -/
theorem decode_three (op b1 b2 : Byte) (rest : List Byte) :
    ∃ c1 c2, decode (op :: b1 :: b2 :: rest) =
      .ok (decodeBytes op c1 c2, (op :: b1 :: b2 :: rest).drop (instrLength op)) := by
  rcases instrLength_cases op with hl | hl | hl
  · exact ⟨0, 0, by simp only [decode, hl]; rfl⟩
  · exact ⟨b1, 0, by simp only [decode, hl]; rfl⟩
  · exact ⟨b1, b2, by simp only [decode, hl]; rfl⟩

/-- The opcode bytes of `STOP` and of the eleven undefined instructions (30 R144, 46 R318). -/
def faultingBytes : List Byte := [0x10, 0xD3, 0xDB, 0xDD, 0xE3, 0xE4, 0xEB, 0xEC, 0xED, 0xF4, 0xFC, 0xFD]

/-- An instruction that faults is encoded by the byte it faults with. -/
theorem faultingByte_eq_some {i : Instr} {op : Byte} (h : faultingByte i = some op) :
    op ∈ faultingBytes ∧ encode i = [op] := by
  cases i <;> cases h <;> exact ⟨by decide, rfl⟩

theorem faultingByte_decodeBytes {op : Byte} (h : op ∈ faultingBytes) (b1 b2 : Byte) :
    faultingByte (decodeBytes op b1 b2) = some op := by
  simp only [faultingBytes, List.mem_cons, List.not_mem_nil, or_false] at h
  rcases h with rfl | rfl | rfl | rfl | rfl | rfl | rfl | rfl | rfl | rfl | rfl | rfl <;> rfl

theorem faultingByte_decodeBytes_eq_none {op : Byte} (h : op ∉ faultingBytes) (b1 b2 : Byte) :
    faultingByte (decodeBytes op b1 b2) = none := by
  refine Option.eq_none_iff_forall_ne_some.2 fun v hv => ?_
  obtain ⟨hmem, henc⟩ := faultingByte_eq_some hv
  rw [(rowOf_decodeBytes op b1 b2).2] at henc
  rcases instrLength_cases op with hl | hl | hl <;> rw [hl] at henc <;> cases henc
  exact h hmem

/-- Settles O4: the row of three bytes is that of the first, and a faulting row is encoded by its own byte. -/
theorem everyOpcodeByteDecodes : Obligations.EveryOpcodeByteDecodes := by
  intro op b1 b2 rest
  obtain ⟨c1, c2, hd⟩ := decode_three op b1 b2 rest
  exact ⟨_, hd, fun h => faultingByte_decodeBytes h c1 c2, fun h => faultingByte_decodeBytes_eq_none h c1 c2⟩

end Sys2Proof.Machine
end

section
/-! The accesses of the 8-bit loads (40) and the 0xCB page (30 R135, 44 R249) as the machine runs it. -/

namespace Sys2Proof.Machine

/-! ### Page 0xFF and the step of `HL` (30 R136, R137) -/

/-- An offset stays in page 0xFF. -/
theorem page0xFF_toNat (n : Byte) : (page0xFF n).toNat = 0xFF00 + n.toNat := by
  have := n.isLt
  simp only [page0xFF, zext16, BitVec.toNat_add, BitVec.toNat_setWidth, BitVec.toNat_ofNat]
  omega

/-- A load into `A` that puts the word `w` in `HL` changes these three registers and no flag. -/
theorem sameBut_loadStep (w : Word) (v : Byte) (g : Regs) :
    SameBut [.a, .h, .l] g (putPair .hl w { g with a := v }) := by
  refine ⟨fun r hr => ?_, rfl, rfl⟩
  cases r
  case a | h | l => simp at hr
  all_goals rfl

/-! ### Loads and stores -/

theorem loadReg_a_loadsByte {i : Instr} {addr : State → Addr} {n : Nat}
    (h : ∀ s, exec i s = loadReg .a (addr s) n s) : LoadsByte i addr n fun g v k => k = { g with a := v } :=
  loadsByte_of (putReg .a) (fun s hs => by rw [h, loadReg_next hs]) fun _ _ => rfl

/-- A load into `A` through `HL` that steps it, by `d` modulo 65536. -/
theorem loadStep_loadsByte {i : Instr} {n d : Nat} (step : Word → Word)
    (hd : ∀ w, (step w).toNat = (w.toNat + d) % 65536)
    (h : ∀ s, exec i s = withByte s.hl s fun v t => finish n ((t.setA v).setHl (step t.hl))) :
    LoadsByte i State.hl n fun g v k => k.a = v ∧ k.f = g.f ∧ SameBut [.a, .h, .l] g k ∧
      pairValue .hl k = (pairValue .hl g + d) % 65536 := by
  refine loadsByte_of (fun v g => putPair .hl (step (getPair .hl g)) { g with a := v }) (fun s hs => ?_) fun v g =>
    ⟨rfl, rfl, sameBut_loadStep _ v g, ?_⟩
  · have hhl : (afterRead s.hl s).hl = getPair .hl s.regs := by rw [State.hl, afterRead_regs]; rfl
    rw [h, withByte_next hs, finish_eq, hhl, State.setA, afterRead_regs]; rfl
  · rw [pairValue_eq, getPair_putPair, hd, pairValue_eq]

/-- Settles O40: a load of one register by the rule of `loadReg`; the two that step `HL` add 1 and 65535 to it. -/
theorem loadsFromMemory : Obligations.LoadsFromMemory := by
  refine ⟨page0xFF_toNat, fun rd => ?_, loadReg_a_loadsByte fun _ => rfl, loadReg_a_loadsByte fun _ => rfl,
    loadStep_loadsByte (· + 1) (fun w => ?_) fun _ => rfl, loadStep_loadsByte (· - 1) (fun w => ?_) fun _ => rfl,
    fun _ => loadReg_a_loadsByte fun _ => rfl, loadReg_a_loadsByte fun _ => rfl,
    fun _ => loadReg_a_loadsByte fun _ => rfl⟩
  · exact loadsByte_of (putReg rd) (fun s hs => loadReg_next hs rd 8) fun v g =>
      ⟨getReg_putReg rd v g, putReg_f rd v g, sameBut_putReg rd v g⟩
  · exact BitVec.toNat_add w 1
  · rw [BitVec.toNat_sub, Nat.add_comm]; rfl

theorem storeByte_storesByte {i : Instr} {addr : State → Addr} {val : State → Byte} {n : Nat}
    (h : ∀ s, exec i s = storeByte (addr s) (val s) n s) : StoresByte i addr val n id :=
  storesByte_of fun s u hu hr => by rw [h, storeByte, hu, andThen_next, finish_eq, id, withRegs_same hr]

/-- A store of `A` through `HL` that steps it. -/
theorem storeStep_storesByte {i : Instr} {n : Nat} (step : Word → Word)
    (h : ∀ s, exec i s = andThen (memWrite s.hl s.regs.a s) fun t => finish n (t.setHl (step t.hl))) :
    StoresByte i State.hl (fun s => s.regs.a) n fun g => putPair .hl (step (mkWord g.h g.l)) g :=
  storesByte_of fun s u hu hr => by
    rw [h, hu, andThen_next, finish_eq, State.setHl, State.setPair, State.hl, hr]

/-- Settles O41: a plain store is the router's write and the end of the instruction; the two that step `HL` change it
after the write. -/
theorem storesToMemory : Obligations.StoresToMemory :=
  ⟨page0xFF_toNat, fun _ => storeByte_storesByte fun _ => rfl, fun _ => storeByte_storesByte fun _ => rfl,
    storeByte_storesByte fun _ => rfl, storeByte_storesByte fun _ => rfl, storeStep_storesByte (· + 1) fun _ => rfl,
    storeStep_storesByte (· - 1) fun _ => rfl, fun _ => storeByte_storesByte fun _ => rfl,
    storeByte_storesByte fun _ => rfl, fun _ => storeByte_storesByte fun _ => rfl⟩

/-! ### The 0xCB page -/

/-- 0xCB runs the row that its second byte decodes to. -/
theorem exec_prefixCb (op2 : Byte) (s : State) : exec (.prefixCb op2) s = exec (decodeCb op2) s := by
  change execPrefixCb op2 s = _
  unfold execPrefixCb decodeCb
  dsimp only
  generalize regOf? (sliceOf op2 0 3) = target, rotOpOf (sliceOf op2 3 3) = o, sliceOf op2 6 2 = x
  match x, target with
  | 0, some _ | 0, none => cases o <;> rfl
  | 1, some _ | 1, none | 2, some _ | 2, none | _ + 3, some _ | _ + 3, none => rfl

/-- A row with a register operand touches registers only and lasts 8 cycles. -/
theorem exec_decodeCb_reg (x : BitVec 2) (y : BitVec 3) (r : Reg) (s : State) :
    ∃ t, exec (decodeCb (xyz x y r.code)) s = .next t ∧ RegsOnly s t ∧ t.cycles = 8 := by
  cases x using group_cases
  case zero => rw [decodeCb_rotR]; cases rotOpOf y.toNat <;> exact ⟨_, rfl, regsOnly_withRegs s _ 8, rfl⟩
  case one => rw [decodeCb_bitR]; exact ⟨_, rfl, regsOnly_withRegs s _ 8, rfl⟩
  case two => rw [decodeCb_resR]; exact ⟨_, rfl, regsOnly_withRegs s _ 8, rfl⟩
  case three => rw [decodeCb_setR]; exact ⟨_, rfl, regsOnly_withRegs s _ 8, rfl⟩

/-- `BIT` on the byte at `HL` reads it and writes nothing. -/
theorem exec_bitHl (b : BitVec 3) {s : State} (h : Readable s s.hl) :
    ∃ t, exec (.bitHl b) s = .next t ∧ ReadsOnly [s.hl] s t ∧ t.cycles = 12 := by
  refine ⟨_, ?_, readsOnly_one s.hl s { s.regs with f := bitFlags b (peek s.hl s) s.regs.f } 12, rfl⟩
  simp only [exec, execBitHl, withByte_next h, State.setFlags, afterRead_regs, finish_eq]

theorem exec_rotHlInstr (o : RotOp) (s : State) : exec (rotHlInstr o) s = modifyByte s.hl (rotate o) 16 s := by
  cases o <;> rfl

/-- A row with the byte at `HL` other than `BIT` reads it and then writes it. -/
theorem exec_decodeCb_hl {x : BitVec 2} (hx : x ≠ 1) (y : BitVec 3) :
    ∃ f, ∀ s, exec (decodeCb (xyz x y 6)) s = modifyByte s.hl f 16 s := by
  cases x using group_cases
  case zero => exact ⟨rotate (rotOpOf y.toNat), fun s => by rw [decodeCb_rotHl, exec_rotHlInstr]⟩
  case one => exact absurd rfl hx
  case two => exact ⟨fun v f => (resBit y v, f), fun s => by rw [decodeCb_resHl]; rfl⟩
  case three => exact ⟨fun v f => (setBit y v, f), fun s => by rw [decodeCb_setHl]; rfl⟩

/-- An instruction whose meaning is a read-modify-write of the byte at `HL`, where every byte can be stored there. -/
theorem exec_frame_of_modifyByte {f : Byte → Flags → Byte × Flags} {n : Nat} {s : State} {i : Instr}
    (h : ∀ s, exec i s = modifyByte s.hl f n s) (hr : Readable s s.hl) (hs : ∀ v, Storable s s.hl v) :
    ∃ t, exec i s = .next t ∧ MemFrame [s.hl] [s.hl] s t ∧ t.cycles = n ∧
      t.regs = { s.regs with f := t.regs.f } := by
  obtain ⟨u, t, -, he, rfl, hf⟩ := modifiesByteAtHl_of f h (fun _ _ => rfl) (fun _ _ => rfl) s hr (hs _)
  exact ⟨_, he, hf, rfl, rfl⟩

/-- Settles O60: by the operand of the row that the second byte selects: a register, or the byte at `HL`, which `BIT`
only reads. -/
theorem prefixRunsSecondPage : Obligations.PrefixRunsSecondPage := by
  intro op2 s
  rw [exec_prefixCb]
  obtain ⟨x, y, z, rfl⟩ := exists_xyz op2
  rw [xyz_toNat_mod, xyz_toNat_div]
  refine ⟨rfl, fun hz => ?reg, fun hz hx hr => ?bit, fun hz hx hr hs => ?modify⟩
  case reg =>
    cases z using operand_cases
    case hl => exact absurd rfl hz
    case reg r => exact exec_decodeCb_reg x y r s
  case bit =>
    obtain rfl : z = 6 := BitVec.eq_of_toNat_eq hz
    obtain rfl : x = 1 := BitVec.eq_of_toNat_eq hx
    rw [decodeCb_bitHl]
    exact exec_bitHl y hr
  case modify =>
    obtain rfl : z = 6 := BitVec.eq_of_toNat_eq hz
    obtain ⟨f, hf⟩ := exec_decodeCb_hl (fun h => hx (congrArg BitVec.toNat h)) y
    exact exec_frame_of_modifyByte hf hr hs

end Sys2Proof.Machine
end

section
/-! The 8-bit loads from a register or an immediate byte (40 R160, R163). -/

namespace Sys2Proof.Machine

/-- An instruction that puts the byte `value` of the register file in `rd` and ends changes `rd` only. -/
theorem changesRegisters_setReg {i : Instr} {rd : Reg} {n : Nat} {value : Regs → Byte}
    (h : ∀ s, exec i s = finish n (s.setReg rd (value s.regs))) :
    ChangesRegisters i n fun g k => getReg rd k = value g ∧ k.f = g.f ∧ SameBut [rd] g k :=
  changesRegisters_of (fun g => putReg rd (value g) g) h fun g =>
    ⟨getReg_putReg rd (value g) g, putReg_f rd (value g) g, sameBut_putReg rd (value g) g⟩

/-- Settles O39: both forms put a byte in one register, `LD r,r'` that of `rs` and `LD r,d8` its own. -/
theorem registerLoads : Obligations.RegisterLoads :=
  ⟨fun _ rs => changesRegisters_setReg (value := getReg rs) fun _ => rfl,
    fun _ n => changesRegisters_setReg (value := fun _ => n) fun _ => rfl⟩

end Sys2Proof.Machine
end

section
/-! The 16-bit loads and the stack (41): what a push leaves, a pop of plain RAM, and the instructions made of them. -/

namespace Sys2Proof.Machine

/-! ### A push and a pop (41 R193, R198) -/

/-- A pop of two bytes of plain RAM moves `SP` and changes nothing else. -/
theorem pop16_ram {s : State} (h : isRam s.regs.sp = true) (h' : isRam (s.regs.sp + 1) = true) :
    pop16 s = .next (mkWord (peek (s.regs.sp + 1) s) (peek s.regs.sp s), s.setSp (s.regs.sp + 2)) := by
  rw [pop16_next (readable_of_isRam h s) (readable_of_isRam h' s), afterRead_steady (steady_of_isRam h s.cfg),
    afterRead_steady (steady_of_isRam h' s.cfg)]

/-- A push to plain RAM completes, with the word at the new `SP`. -/
theorem push16_ram {s : State} (h : isRam (s.regs.sp - 2) = true) (h' : isRam (s.regs.sp - 2 + 1) = true) (w : Word) :
    ∃ u, push16 w s = .next u ∧ u.regs = { s.regs with sp := s.regs.sp - 2 } ∧
      peek (s.regs.sp - 2) u = lo8 w ∧ peek (s.regs.sp - 2 + 1) u = hi8 w := by
  have hu : push16 w s = .next _ := memWriteWord_ram h h' w (s.setSp (s.regs.sp - 2))
  exact ⟨_, hu, (push16_keeps hu).2, memWriteWord_holds hu h h'⟩

/-- Settles O29: the push leaves the word at the new `SP`, where the pop, which only reads plain RAM, finds it. -/
theorem pushThenPop : Obligations.PushThenPop := by
  intro s w h h'
  obtain ⟨u, hu, hregs, hlo, hhi⟩ := push16_ram h h' w
  have hsp : u.regs.sp = s.regs.sp - 2 := by rw [hregs]
  refine ⟨u, hu, hregs, hlo, hhi, ?_⟩
  rw [pop16_ram (hsp ▸ h) (hsp ▸ h'), hsp, hlo, hhi, mkWord_hi8_lo8, BitVec.sub_add_cancel]

/-! ### `LD` of a word (41 R190 to R192) -/

/-- An instruction whose meaning is a word write stores the word and changes no register. -/
theorem storesWord_of_memWriteWord {i : Instr} {a : Addr} {w : Word} {n : Nat} {s : State}
    (h : exec i s = andThen (memWriteWord a w s) fun t => finish n t) (hs : StorableWord s a w) :
    ∃ u t, memWriteWord a w s = .next u ∧ exec i s = .next t ∧ t = { u with regs := s.regs, cycles := n } ∧
      MemFrame [] [a, a + 1] s t ∧ HoldsWord a w t := by
  obtain ⟨u, hu⟩ := memWriteWord_next hs
  have hregs : u.withRegs s.regs = u := withRegs_same (memWriteWord_keeps hu).2
  refine ⟨u, (u.withRegs s.regs).withCycles n, hu, ?_, rfl, (memWriteWord_frame hu).1.regs_left,
    (memWriteWord_holds hu).regs_left⟩
  rw [h, hu, andThen_next, finish_eq, hregs]

/-- Settles O42: two of the forms write one pair of the register file, the third is a word write. -/
theorem sixteenBitLoads : Obligations.SixteenBitLoads := by
  refine ⟨fun p w => ?_, ?_, fun a s hs => storesWord_of_memWriteWord rfl hs⟩
  · exact changesRegisters_of (putPair p w) (fun _ => rfl) fun g =>
      ⟨by rw [pairValue_eq, getPair_putPair], putPair_f p w g, sameButPair_putPair p w g⟩
  · exact changesRegisters_of (fun g => { g with sp := getPair .hl g }) (fun _ => rfl) fun g =>
      ⟨rfl, (pairValue_eq .hl g).symm⟩

/-! ### `PUSH` (41 R194, R195) -/

/-- An instruction whose meaning is a push moves `SP` and changes no other register. -/
theorem pushesWord_of_push16 {i : Instr} {word : State → Word} {n : Nat}
    (h : ∀ s, exec i s = andThen (push16 (word s) s) fun t => finish n t) :
    PushesWord i word n fun g => { g with sp := g.sp - 2 } :=
  pushesWord_of fun s u hu hregs => by rw [h, hu, andThen_next, finish_eq, withRegs_same hregs]

/-- Settles O43: both forms are a push, of the pair or of `AF`, whose byte view of the flags has the
low nibble 0. -/
theorem pushes : Obligations.Pushes :=
  ⟨fun _ => pushesWord_of_push16 fun _ => rfl, fun _ => ⟨rfl, rfl, rfl⟩, pushesWord_of_push16 fun _ => rfl⟩

/-! ### `POP` (41 R196, R197) -/

/-- An instruction whose meaning is a pop and then a write `put` of the word to the register file. -/
theorem popsWord_of_pop16 {i : Instr} {n : Nat} {post : Regs → Byte → Byte → Regs → Prop}
    (put : Word → Regs → Regs)
    (h : ∀ s, exec i s = andThen (pop16 s) fun r => finish n (r.2.withRegs (put r.1 r.2.regs)))
    (hp : ∀ lo hi g, post g lo hi (put (mkWord hi lo) { g with sp := g.sp + 2 })) : PopsWord i n id post := by
  refine popsWord_of (fun lo hi g => put (mkWord hi lo) { g with sp := g.sp + 2 })
    (fun s lo hi t ht hregs hirq => ?_) hp
  rw [h, ht, andThen_next, finish_eq, State.setSp, hregs, id, ← hirq]
  rfl

/-- Settles O44: each form is a pop and a write of one pair, which splits the word into its bytes. -/
theorem pops : Obligations.Pops := by
  refine ⟨popsWord_of_pop16 (putStackPair .bc) (fun _ => rfl) ?bc,
    popsWord_of_pop16 (putStackPair .de) (fun _ => rfl) ?de,
    popsWord_of_pop16 (putStackPair .hl) (fun _ => rfl) ?hl, popsWord_of_pop16 putAf (fun _ => rfl) ?af⟩
  case bc | de | hl => intro lo hi g; simp only [putStackPair, hi8_mkWord, lo8_mkWord]
  case af => intro lo hi g; simp only [putAf, flagsOfByte, bitOf, hi8_mkWord, lo8_mkWord]

end Sys2Proof.Machine
end

section
/-! The 8-bit arithmetic and logic (42): each operation with its flags on the numbers of the bytes, the accumulator
forms made of them, and what the decimal adjust does with packed BCD. -/

namespace Sys2Proof.Machine

/-! ### Bytes as numbers -/

theorem byte_beq_zero (v : Byte) : (v == 0) = decide (v.toNat = 0) := by
  simp only [beq_eq_decide, ← BitVec.toNat_inj]; rfl

/-! ### Addition and subtraction (42 R200, R201) -/

theorem add8_r_toNat (a v : Byte) (cin : Nat) : (add8 a v cin).r.toNat = (a.toNat + v.toNat + cin) % 256 :=
  BitVec.toNat_ofNat _ 8

theorem add8_r (a v : Byte) (cin : Nat) : (add8 a v cin).r = BitVec.ofNat 8 ((a.toNat + v.toNat + cin) % 256) :=
  BitVec.eq_of_toNat_eq (by simp [add8_r_toNat])

theorem arithFlags_add8 (a v : Byte) (cin : Nat) :
    arithFlags (add8 a v cin) false =
      { z := decide ((a.toNat + v.toNat + cin) % 256 = 0), n := false
        h := decide (16 ≤ a.toNat % 16 + v.toNat % 16 + cin), c := decide (256 ≤ a.toNat + v.toNat + cin) } := by
  rw [arithFlags, byte_beq_zero, add8_r_toNat]; rfl

theorem carryIn_le_one (f : Flags) : carryIn f ≤ 1 := Bool.toNat_le f.c

section
variable (a v : Byte) {cin : Nat} (hc : cin ≤ 1)
include hc

theorem sub8_r_toNat : (sub8 a v cin).r.toNat = (a.toNat + 512 - v.toNat - cin) % 256 := by
  have := v.isLt
  simp only [sub8, BitVec.toNat_ofInt]
  omega

theorem sub8_r : (sub8 a v cin).r = BitVec.ofNat 8 (a.toNat + 512 - v.toNat - cin) :=
  BitVec.eq_of_toNat_eq (by simp [sub8_r_toNat a v hc])

theorem arithFlags_sub8 :
    arithFlags (sub8 a v cin) true =
      { z := decide ((a.toNat + 512 - v.toNat - cin) % 256 = 0), n := true
        h := decide (a.toNat % 16 < v.toNat % 16 + cin), c := decide (a.toNat < v.toNat + cin) } := by
  rw [arithFlags, byte_beq_zero, sub8_r_toNat a v hc]; rfl

end

/-- Settles O45: both operations are the addition, with the carry in 0 or the carry flag. -/
theorem addAndAdc : Obligations.AddAndAdc := by
  refine ⟨accumulatorForms_of .add (fun _ _ => rfl) (fun _ => rfl) (fun _ _ => rfl) fun g v => ?_,
    accumulatorForms_of .adc (fun _ _ => rfl) (fun _ => rfl) (fun _ _ => rfl) fun g v => ?_⟩
  · simp only [alu, add8_r, arithFlags_add8]
  · simp only [alu, add8_r, arithFlags_add8, carryIn]

/-- Settles O46: the three operations are the subtraction, `CP` without its result. -/
theorem subSbcAndCp : Obligations.SubSbcAndCp := by
  refine ⟨accumulatorForms_of .sub (fun _ _ => rfl) (fun _ => rfl) (fun _ _ => rfl) fun g v => ?_,
    accumulatorForms_of .sbc (fun _ _ => rfl) (fun _ => rfl) (fun _ _ => rfl) fun g v => ?_,
    accumulatorForms_of .cp (fun _ _ => rfl) (fun _ => rfl) (fun _ _ => rfl) fun g v => ?_⟩
  · simp only [alu, sub8_r _ _ (Nat.zero_le 1), arithFlags_sub8 _ _ (Nat.zero_le 1)]
  · simp only [alu, sub8_r _ _ (carryIn_le_one _), arithFlags_sub8 _ _ (carryIn_le_one _)]; rfl
  · simp only [alu, arithFlags_sub8 _ _ (Nat.zero_le 1)]

/-! ### Logic (42 R217 to R225) -/

theorem logicFlags_eq (r : Byte) (h : Bool) :
    logicFlags r h = { z := decide (r.toNat = 0), n := false, h := h, c := false } := by
  rw [logicFlags, byte_beq_zero]

/-- Settles O47: each bit of the result is the operation of the two bits. -/
theorem andXorOr : Obligations.AndXorOr :=
  ⟨accumulatorForms_of .and (fun _ _ => rfl) (fun _ => rfl) (fun _ _ => rfl) fun _ _ =>
      ⟨fun _ _ => BitVec.getLsbD_and, by simp only [alu, logicFlags_eq]⟩,
    accumulatorForms_of .xor (fun _ _ => rfl) (fun _ => rfl) (fun _ _ => rfl) fun _ _ =>
      ⟨fun _ _ => BitVec.getLsbD_xor, by simp only [alu, logicFlags_eq]⟩,
    accumulatorForms_of .or (fun _ _ => rfl) (fun _ => rfl) (fun _ _ => rfl) fun _ _ =>
      ⟨fun _ _ => BitVec.getLsbD_or, by simp only [alu, logicFlags_eq]⟩⟩

/-! ### `INC` and `DEC` (42 R229 to R232) -/

theorem incByte_value (v : Byte) (f : Flags) : (incByte v f).1 = BitVec.ofNat 8 (v.toNat + 1) :=
  BitVec.eq_of_toNat_eq (by simp [incByte])

theorem decByte_value (v : Byte) (f : Flags) : (decByte v f).1 = BitVec.ofNat 8 (v.toNat + 255) :=
  BitVec.eq_of_toNat_eq (by simp [decByte, BitVec.toNat_sub, Nat.add_comm])

theorem incByte_flags (v : Byte) (f : Flags) :
    (incByte v f).2 = { z := decide (v = 0xFF), n := false, h := decide (v.toNat % 16 = 15), c := f.c } := by
  have hz : (v + 1 == 0) = decide (v = 0xFF) := decide_eq_decide.2 (by bv_omega)
  rw [incByte, hz, beq_eq_decide]

theorem decByte_flags (v : Byte) (f : Flags) :
    (decByte v f).2 = { z := decide (v = 0x01), n := true, h := decide (v.toNat % 16 = 0), c := f.c } := by
  have hz : (v - 1 == 0) = decide (v = 0x01) := decide_eq_decide.2 (by bv_omega)
  rw [decByte, hz, beq_eq_decide]

/-- Settles O48: all four are a read-modify-write by the increment or the decrement. -/
theorem incrementAndDecrementBytes : Obligations.IncrementAndDecrementBytes :=
  ⟨fun _ => modifiesRegister_of incByte (fun _ => rfl) incByte_value incByte_flags,
    fun _ => modifiesRegister_of decByte (fun _ => rfl) decByte_value decByte_flags,
    modifiesByteAtHl_of incByte (fun _ => rfl) incByte_value incByte_flags,
    modifiesByteAtHl_of decByte (fun _ => rfl) decByte_value decByte_flags⟩

/-! ### `DAA`, `CPL`, `SCF` and `CCF` (42 R233 to R236) -/

/-- Whether `DAA` corrects the low digit (42 R233). -/
def adjustsLow (a : Byte) (f : Flags) : Bool := f.h || (!f.n && decide (9 < a.toNat % 16))

/-- Whether `DAA` corrects the high digit (42 R233). -/
def adjustsHigh (a : Byte) (f : Flags) : Bool := f.c || (!f.n && decide (0x99 < a.toNat))

/-- The correction of `DAA` as a number, a sum of the corrections of the digits (42 R233). -/
def adjustment (a : Byte) (f : Flags) : Nat := (if adjustsLow a f then 6 else 0) + if adjustsHigh a f then 0x60 else 0

theorem daaAdjust_eq (a : Byte) (f : Flags) :
    daaAdjust a f = (if adjustsLow a f then 0x06 else 0x00) ||| (if adjustsHigh a f then 0x60 else 0x00) := rfl

theorem daaAdjust_toNat (a : Byte) (f : Flags) : (daaAdjust a f).toNat = adjustment a f := by
  rw [daaAdjust_eq, adjustment]
  cases adjustsLow a f <;> cases adjustsHigh a f <;> rfl

theorem adjustment_le (a : Byte) (f : Flags) : adjustment a f ≤ 0x66 := by
  rw [adjustment]
  cases adjustsLow a f <;> cases adjustsHigh a f <;> decide

theorem adjustment_high_iff (a : Byte) (f : Flags) : 0x60 ≤ adjustment a f ↔ adjustsHigh a f = true := by
  rw [adjustment]
  cases adjustsLow a f <;> cases adjustsHigh a f <;> decide

/-- The number that `DAA` gives. -/
def adjusted (a : Byte) (f : Flags) : Nat :=
  if f.n then (a.toNat + 256 - adjustment a f) % 256 else (a.toNat + adjustment a f) % 256

theorem daaByte_toNat (a : Byte) (f : Flags) : (daaByte a f).1.toNat = adjusted a f := by
  have hle := adjustment_le a f
  unfold daaByte adjusted
  dsimp only
  split
  · rw [BitVec.toNat_sub, daaAdjust_toNat]; omega
  · rw [BitVec.toNat_add, daaAdjust_toNat]

theorem daaByte_value (a : Byte) (f : Flags) : (daaByte a f).1 = BitVec.ofNat 8 (adjusted a f) := by
  rw [← daaByte_toNat, BitVec.ofNat_toNat, BitVec.setWidth_eq]

theorem daaByte_flags (a : Byte) (f : Flags) :
    (daaByte a f).2 = { z := decide (adjusted a f = 0), n := f.n, h := false, c := adjustsHigh a f } := by
  have hz : ((daaByte a f).1 == 0) = decide (adjusted a f = 0) := by rw [byte_beq_zero, daaByte_toNat]
  have hc : decide ((daaAdjust a f).toNat ≥ 0x60) = adjustsHigh a f := by
    simp [daaAdjust_toNat, adjustment_high_iff]
  rw [← hz, ← hc]; rfl

/-- The complement of a byte is its distance to 255. -/
theorem not_eq_ofNat (v : Byte) : ~~~v = BitVec.ofNat 8 (255 - v.toNat) :=
  BitVec.eq_of_toNat_eq (by rw [BitVec.toNat_not, BitVec.toNat_ofNat]; omega)

/-- Settles O49: each is an update of `A` and the flags. -/
theorem accumulatorAdjusters : Obligations.AccumulatorAdjusters := by
  refine ⟨changesRegisters_of (fun g => { g with a := (daaByte g.a g.f).1, f := (daaByte g.a g.f).2 })
      (fun _ => rfl) fun g => ?daa,
    changesRegisters_of (fun g => { g with a := ~~~g.a, f := { g.f with n := true, h := true } })
      (fun _ => rfl) fun g => ?cpl,
    changesRegisters_of _ (fun _ => rfl) fun _ => rfl, changesRegisters_of _ (fun _ => rfl) fun _ => rfl⟩
  case daa => rw [daaByte_value, daaByte_flags]; rfl
  case cpl => rw [not_eq_ofNat]

/-! ### Packed BCD (42 R233) -/

/-- Packed BCD holds the two decimal digits in the two nibbles. -/
theorem bcd_digits {t u : Nat} (ht : t < 10) (hu : u < 10) : (bcd (10 * t + u)).toNat = 16 * t + u := by
  rw [bcd, BitVec.toNat_ofNat]; omega

/-- The numbers below 100 are those of two decimal digits. -/
theorem exists_digits {n : Nat} (h : n < 100) : ∃ t u, t < 10 ∧ u < 10 ∧ n = 10 * t + u :=
  ⟨n / 10, n % 10, by omega, by omega, by omega⟩

/-- A sum of digits `P` and `Q` that may carry, packed by sixteens: 6 at each carry makes it the packed BCD. -/
theorem bcd_carry {P Q : Nat} (hP : P ≤ 18) (hQ : Q ≤ 19) :
    (bcd ((10 * P + Q) % 100)).toNat =
      (16 * P + Q + ((if 10 ≤ Q then 6 else 0) + if 100 ≤ 10 * P + Q then 0x60 else 0)) % 256 := by
  have hdigits : (10 * P + Q) % 100 = 10 * ((P + Q / 10) % 10) + Q % 10 := by omega
  rw [hdigits, bcd_digits (Nat.mod_lt _ (by decide)) (Nat.mod_lt _ (by decide))]
  have hcarry : 100 ≤ 10 * P + Q ↔ 10 ≤ P + Q / 10 := by omega
  simp only [hcarry]
  by_cases hhigh : 10 ≤ P + Q / 10
  · rw [if_pos hhigh, Nat.mod_eq_sub_mod hhigh, Nat.mod_eq_of_lt (a := P + Q / 10 - 10) (by omega)]
    split <;> omega
  · rw [if_neg hhigh, Nat.mod_eq_of_lt (a := P + Q / 10) (by omega)]
    split <;> omega

section
variable {t u t' u' cin : Nat} (ht : t < 10) (hu : u < 10) (ht' : t' < 10) (hu' : u' < 10) (hc : cin ≤ 1)
include ht hu ht' hu' hc

/-- After an addition the corrections are the carries of the decimal digits. -/
theorem adjusts_add8_bcd :
    let r := add8 (bcd (10 * t + u)) (bcd (10 * t' + u')) cin
    adjustsLow r.r (arithFlags r false) = decide (10 ≤ u + u' + cin) ∧
      adjustsHigh r.r (arithFlags r false) = decide (100 ≤ 10 * t + u + (10 * t' + u') + cin) := by
  simp only [adjustsLow, adjustsHigh, arithFlags_add8, add8_r_toNat, bcd_digits ht hu, bcd_digits ht' hu',
    Bool.not_false, Bool.true_and, ← Bool.decide_or, decide_eq_decide]
  omega

/-- After a subtraction the corrections are the borrows of the decimal digits. -/
theorem adjusts_sub8_bcd :
    let r := sub8 (bcd (10 * t + u)) (bcd (10 * t' + u')) cin
    adjustsLow r.r (arithFlags r true) = decide (u < u' + cin) ∧
      adjustsHigh r.r (arithFlags r true) = decide (10 * t + u < 10 * t' + u' + cin) := by
  simp only [adjustsLow, adjustsHigh, arithFlags_sub8 _ _ hc, bcd_digits ht hu, bcd_digits ht' hu', Bool.not_true,
    Bool.false_and, Bool.or_false, decide_eq_decide]
  omega

theorem daaByte_add8_bcd :
    let n := 10 * t + u + (10 * t' + u') + cin
    let r := add8 (bcd (10 * t + u)) (bcd (10 * t' + u')) cin
    (daaByte r.r (arithFlags r false)).1 = bcd (n % 100) ∧
      (daaByte r.r (arithFlags r false)).2.c = decide (100 ≤ n) := by
  intro n r
  obtain ⟨hlow, hhigh⟩ := adjusts_add8_bcd ht hu ht' hu' hc
  have hn : n = 10 * (t + t') + (u + u' + cin) := by omega
  refine ⟨BitVec.eq_of_toNat_eq ?_, by rw [daaByte_flags, hhigh]⟩
  rw [daaByte_toNat, adjusted, if_neg (by simp [arithFlags]), adjustment, hlow, hhigh, add8_r_toNat, bcd_digits ht hu,
    bcd_digits ht' hu', hn, bcd_carry (by omega) (by omega)]
  simp only [decide_eq_true_eq, ← hn]
  split <;> split <;> omega

/-- A difference of digits is a sum with the complement of the subtrahend (9 for the tens, 10 for the ones): where the
sum carries, the difference does not borrow. -/
theorem daaByte_sub8_bcd :
    let r := sub8 (bcd (10 * t + u)) (bcd (10 * t' + u')) cin
    (daaByte r.r (arithFlags r true)).1 = bcd ((10 * t + u + 200 - (10 * t' + u') - cin) % 100) ∧
      (daaByte r.r (arithFlags r true)).2.c = decide (10 * t + u < 10 * t' + u' + cin) := by
  intro r
  obtain ⟨hlow, hhigh⟩ := adjusts_sub8_bcd ht hu ht' hu' hc
  have hn : (10 * t + u + 200 - (10 * t' + u') - cin) % 100 = (10 * (t + 9 - t') + (u + 10 - u' - cin)) % 100 := by
    omega
  have hlow' : u < u' + cin ↔ ¬ 10 ≤ u + 10 - u' - cin := by omega
  have hhigh' : 10 * t + u < 10 * t' + u' + cin ↔ ¬ 100 ≤ 10 * (t + 9 - t') + (u + 10 - u' - cin) := by omega
  refine ⟨BitVec.eq_of_toNat_eq ?_, by rw [daaByte_flags, hhigh]⟩
  rw [daaByte_toNat, adjusted, if_pos (by simp [arithFlags]), adjustment, hlow, hhigh, sub8_r_toNat _ _ hc,
    bcd_digits ht hu, bcd_digits ht' hu', hn, bcd_carry (by omega) (by omega)]
  simp only [decide_eq_true_eq, hlow', hhigh', ite_not]
  split <;> split <;> omega

end

/-- Settles O50: `DAA` corrects each digit exactly where the decimal digits carry or borrow. -/
theorem decimalAdjustGivesBcd : Obligations.DecimalAdjustGivesBcd := by
  intro x y f hx hy
  obtain ⟨t, u, ht, hu, rfl⟩ := exists_digits hx
  obtain ⟨t', u', ht', hu', rfl⟩ := exists_digits hy
  refine ⟨fun o ho => ?_, fun o ho => ?_⟩
  · obtain rfl | rfl : o = .add ∨ o = .adc := by simpa using ho
    · exact daaByte_add8_bcd ht hu ht' hu' (Nat.zero_le 1)
    · exact daaByte_add8_bcd ht hu ht' hu' (carryIn_le_one f)
  · obtain rfl | rfl : o = .sub ∨ o = .sbc := by simpa using ho
    · exact daaByte_sub8_bcd ht hu ht' hu' (Nat.zero_le 1)
    · exact daaByte_sub8_bcd ht hu ht' hu' (carryIn_le_one f)

end Sys2Proof.Machine
end

section
/-! The 16-bit arithmetic (43): the sums of words, and the instructions made of them. -/

namespace Sys2Proof.Machine

/-! ### Sums of words (43 R240, R243) -/

theorem addHl_toNat (a b : Word) (f : Flags) : (addHl a b f).1.toNat = (a.toNat + b.toNat) % 65536 :=
  BitVec.toNat_ofNat _ _

theorem addHl_flags (a b : Word) (f : Flags) :
    (addHl a b f).2 =
      { z := f.z, n := false, h := decide (4096 ≤ a.toNat % 4096 + b.toNat % 4096),
        c := decide (65536 ≤ a.toNat + b.toNat) } := rfl

theorem addSpSigned_toNat (sp : Word) (e : Byte) :
    ((addSpSigned sp e).1.toNat : Int) = ((sp.toNat : Int) + e.toInt) % 65536 := by
  have hnonneg : 0 ≤ ((sp.toNat : Int) + e.toInt) % 65536 := Int.emod_nonneg _ (by decide)
  exact (congrArg Nat.cast (BitVec.toNat_ofInt _)).trans (Int.toNat_of_nonneg hnonneg)

theorem addSpSigned_flags (sp : Word) (e : Byte) :
    (addSpSigned sp e).2 =
      { z := false, n := false, h := decide (16 ≤ sp.toNat % 16 + e.toNat % 16),
        c := decide (256 ≤ sp.toNat % 256 + e.toNat) } := rfl

/-! ### Instructions that write a pair -/

theorem sameBut_putHl_flags (w : Word) (f : Flags) (g : Regs) :
    SameBut [.h, .l] g { putPair .hl w g with f := f } := by
  obtain ⟨hreg, hsp, hpc⟩ : SameBut [.h, .l] g (putPair .hl w g) := sameButPair_putPair .hl w g
  exact ⟨fun r hr => (getReg_flags r _ f).trans (hreg r hr), hsp, hpc⟩

/-- An instruction that puts the sum of a pair and `d`, modulo 65536, back in the pair. -/
theorem changesRegisters_stepPair {i : Instr} {p : Pair} {n d : Nat} (step : Word → Word)
    (hd : ∀ w, (step w).toNat = (w.toNat + d) % 65536)
    (h : ∀ s, exec i s = finish n (s.setPair p (step (getPair p s.regs)))) :
    ChangesRegisters i n fun g k => pairValue p k = (pairValue p g + d) % 65536 ∧ k.f = g.f ∧ SameButPair p g k :=
  changesRegisters_of (fun g => putPair p (step (getPair p g)) g) h fun g =>
    ⟨by rw [pairValue_eq, getPair_putPair, hd, pairValue_eq], putPair_f p _ g, sameButPair_putPair p _ g⟩

/-- An instruction that puts a word in `HL` and sets the flags. -/
theorem changesRegisters_setHlFlags {i : Instr} {n : Nat} {post : Regs → Regs → Prop} (sum : Regs → Word × Flags)
    (h : ∀ s, exec i s = finish n ((s.setHl (sum s.regs).1).setFlags (sum s.regs).2))
    (hp : ∀ g k, pairValue .hl k = (sum g).1.toNat → k.f = (sum g).2 → SameBut [.h, .l] g k → post g k) :
    ChangesRegisters i n post :=
  changesRegisters_of (fun g => { putPair .hl (sum g).1 g with f := (sum g).2 }) h fun g =>
    hp g _ ((pairValue_eq .hl _).trans (congrArg BitVec.toNat (getPair_putPair .hl (sum g).1 g))) rfl
      (sameBut_putHl_flags _ _ g)

/-- Settles O51: `ADD HL,rp` and `LD HL,SP+e8` put a sum in `HL` and set the flags, `INC` and `DEC` step a pair by 1
and by 65535, and `ADD SP,e8` writes only `SP` and the flags. -/
theorem sixteenBitArithmetic : Obligations.SixteenBitArithmetic := by
  refine ⟨fun p => ?addHl, fun p => ?inc, fun p => ?dec, fun e => ?addSp, fun e => ?ldHl⟩
  case addHl =>
    refine changesRegisters_setHlFlags (fun g => addHl (getPair .hl g) (getPair p g) g.f) (fun _ => rfl)
      fun g k hsum hflags hsame => ?_
    rw [addHl_toNat] at hsum
    rw [addHl_flags] at hflags
    simp only [pairValue_eq _ g]
    exact ⟨hsum, hsame, hflags⟩
  case inc => exact changesRegisters_stepPair (· + 1) (fun w => BitVec.toNat_add w 1) fun _ => rfl
  case dec =>
    refine changesRegisters_stepPair (· - 1) (fun w => ?_) fun _ => rfl
    rw [BitVec.toNat_sub, Nat.add_comm]; rfl
  case addSp =>
    exact changesRegisters_of (fun g => { g with sp := (addSpSigned g.sp e).1, f := (addSpSigned g.sp e).2 })
      (fun _ => rfl) fun g => ⟨addSpSigned_toNat g.sp e, by rw [addSpSigned_flags]⟩
  case ldHl =>
    refine changesRegisters_setHlFlags (fun g => addSpSigned g.sp e) (fun _ => rfl) fun g k hsum hflags hsame => ?_
    exact ⟨hsum ▸ addSpSigned_toNat g.sp e, hflags.trans (addSpSigned_flags g.sp e), hsame⟩

end Sys2Proof.Machine
end

section
/-! The rotates, shifts and bit instructions (44): each transform on the numbers of the bytes, and the instructions made
of them. -/

namespace Sys2Proof.Machine

/-! ### Bits of a byte as numbers -/

theorem byte_eq_ofNat {x : Byte} {n : Nat} (h : x.toNat = n) : x = BitVec.ofNat 8 n := by
  rw [← h, BitVec.ofNat_toNat, BitVec.setWidth_eq]

theorem bitOf_seven (v : Byte) : bitOf v 7 = decide (v.toNat ≥ 128) := BitVec.msb_eq_decide v

theorem bitOf_zero (v : Byte) : bitOf v 0 = decide (v.toNat % 2 = 1) := Nat.testBit_zero v.toNat

theorem bitOf_seven_toNat (v : Byte) : (bitOf v 7).toNat = v.toNat / 128 :=
  (Nat.toNat_testBit v.toNat 7).trans (Nat.mod_eq_of_lt (by omega))

theorem bitOf_zero_toNat (v : Byte) : (bitOf v 0).toNat = v.toNat % 2 :=
  (Nat.toNat_testBit v.toNat 0).trans (by rw [Nat.pow_zero, Nat.div_one])

/-- Bytes with no bit in common are joined by adding them. -/
theorem or_toNat_of_disjoint {x y : Byte} (h : x &&& y = 0) : (x ||| y).toNat = x.toNat + y.toNat := by
  rw [← BitVec.add_eq_or_of_and_eq_zero x y h, BitVec.toNat_add_of_and_eq_zero h]

/-- The bits of `x` outside and inside a mask make up `x`. -/
theorem and_not_toNat_add_and (x mask : Byte) : (x &&& ~~~mask).toNat + (x &&& mask).toNat = x.toNat := by
  have hdisjoint : x &&& ~~~mask &&& (x &&& mask) = 0 := by
    ext i
    cases hm : mask[i] <;> simp [hm]
  have hjoin : x &&& ~~~mask ||| x &&& mask = x := by
    ext i
    cases hm : mask[i] <;> simp [hm]
  rw [← or_toNat_of_disjoint hdisjoint, hjoin]

/-- Setting the bits of a mask adds it to the bits outside. -/
theorem or_toNat_eq_and_not_add (x mask : Byte) : (x ||| mask).toNat = (x &&& ~~~mask).toNat + mask.toNat := by
  have hdisjoint : x &&& ~~~mask &&& mask = 0 := by
    ext i
    simp
  have hjoin : x &&& ~~~mask ||| mask = x ||| mask := by
    ext i
    cases hm : mask[i] <;> simp [hm]
  rw [← or_toNat_of_disjoint hdisjoint, hjoin]

/-! ### The transforms (44 R248) -/

theorem shiftLeft_one (v : Byte) : v <<< 1 = BitVec.ofNat 8 (v.toNat * 2 % 256) :=
  byte_eq_ofNat (by rw [BitVec.toNat_shiftLeft, Nat.shiftLeft_eq])

theorem shiftRight_one (v : Byte) : v >>> 1 = BitVec.ofNat 8 (v.toNat / 2) :=
  byte_eq_ofNat (by rw [BitVec.toNat_ushiftRight, Nat.shiftRight_eq_div_pow])

/-- A shift to the left that brings the bit `c` in at the bottom. -/
theorem shiftLeft_one_or (v : Byte) {c : Bool} {n : Nat} (hc : c.toNat = n) :
    v <<< 1 ||| (BitVec.ofBool c).setWidth 8 = BitVec.ofNat 8 (v.toNat * 2 % 256 + n) := by
  have hdisjoint : v <<< 1 &&& (BitVec.ofBool c).setWidth 8 = 0 := by
    ext i hi
    cases i <;> simp
  refine byte_eq_ofNat ?_
  rw [or_toNat_of_disjoint hdisjoint, ← hc]
  cases c <;> simp [Nat.shiftLeft_eq]

/-- A shift to the right that brings the bit `c` in at the top. -/
theorem shiftRight_one_or (v : Byte) {c : Bool} {n : Nat} (hc : c.toNat = n) :
    v >>> 1 ||| (BitVec.ofBool c).setWidth 8 <<< 7 = BitVec.ofNat 8 (v.toNat / 2 + n * 128) := by
  have hdisjoint : v >>> 1 &&& (BitVec.ofBool c).setWidth 8 <<< 7 = 0 := by
    ext i hi
    obtain h | rfl : i < 7 ∨ i = 7 := by omega
    · simp [h]
    · simp
  refine byte_eq_ofNat ?_
  rw [or_toNat_of_disjoint hdisjoint, ← hc]
  cases c <;> simp [Nat.shiftRight_eq_div_pow]

/-- The top bit that `SRA` keeps is the one it brings in. -/
theorem and_0x80 (v : Byte) : v &&& (0x80 : Byte) = (BitVec.ofBool (bitOf v 7)).setWidth 8 <<< 7 := by
  refine (BitVec.and_twoPow v 7).trans ?_
  rw [bitOf]
  cases v.getLsbD 7 <;> rfl

theorem swapNibbles (v : Byte) : v <<< 4 ||| v >>> 4 = BitVec.ofNat 8 (v.toNat % 16 * 16 + v.toNat / 16) := by
  have hdisjoint : v <<< 4 &&& v >>> 4 = 0 := by
    ext i hi
    by_cases h : i < 4
    · simp [h]
    · simp [BitVec.getLsbD_of_ge v (4 + i) (by omega)]
  refine byte_eq_ofNat ?_
  rw [or_toNat_of_disjoint hdisjoint, BitVec.toNat_shiftLeft, BitVec.toNat_ushiftRight, Nat.shiftLeft_eq,
    Nat.shiftRight_eq_div_pow]
  omega

/-- The mask of `SWAP` covers every bit that the shift left can leave. -/
theorem rotResult_swap (v : Byte) (cy : Bool) : rotResult .swap v cy = v <<< 4 ||| v >>> 4 := by
  change v <<< 4 &&& BitVec.allOnes 8 <<< 4 ||| v >>> 4 = _
  rw [← BitVec.shiftLeft_and_distrib, BitVec.and_allOnes]

theorem rotResult_eq (o : RotOp) (v : Byte) (f : Flags) : rotResult o v f.c = rotatedValue o v f := by
  cases o
  case rlc => exact shiftLeft_one_or v (bitOf_seven_toNat v)
  case rrc => exact shiftRight_one_or v (bitOf_zero_toNat v)
  case rl => exact shiftLeft_one_or v rfl
  case rr => exact shiftRight_one_or v rfl
  case sla => exact shiftLeft_one v
  case sra => exact (congrArg (v >>> 1 ||| ·) (and_0x80 v)).trans (shiftRight_one_or v (bitOf_seven_toNat v))
  case swap => exact (rotResult_swap v f.c).trans (swapNibbles v)
  case srl => exact shiftRight_one v

theorem rotCarry_eq (o : RotOp) (v : Byte) : rotCarry o v = shiftedOut o v := by
  cases o
  case rlc | rl | sla => exact bitOf_seven v
  case rrc | rr | sra | srl => exact bitOf_zero v
  case swap => rfl

theorem rotate_flags (o : RotOp) (v : Byte) (f : Flags) : (rotate o v f).2 = rotatedFlags o v f := by
  rw [rotate, byte_beq_zero, rotResult_eq, rotCarry_eq, rotatedFlags]

/-! ### The instructions of the transforms (44 R250 to R269) -/

theorem rotateA_modifiesRegister {i : Instr} {o : RotOp} (h : ∀ s, exec i s = modifyReg .a (rotateA o) 4 s) :
    ModifiesRegister i .a 4 (rotatedValue o) fun v _ => { z := false, n := false, h := false, c := shiftedOut o v } :=
  modifiesRegister_of (rotateA o) h (rotResult_eq o) fun v _ => by rw [rotateA, rotCarry_eq]

/-- Settles O52: each is a transform of `A` with Z forced to 0. -/
theorem accumulatorRotates : Obligations.AccumulatorRotates :=
  ⟨rotateA_modifiesRegister fun _ => rfl, rotateA_modifiesRegister fun _ => rfl,
    rotateA_modifiesRegister fun _ => rfl, rotateA_modifiesRegister fun _ => rfl⟩

theorem rotate_modifiesRegister {i : Instr} {r : Reg} {o : RotOp} (h : ∀ s, exec i s = modifyReg r (rotate o) 8 s) :
    ModifiesRegister i r 8 (rotatedValue o) (rotatedFlags o) :=
  modifiesRegister_of (rotate o) h (rotResult_eq o) (rotate_flags o)

/-- Settles O53: each is a transform of one register. -/
theorem registerRotates : Obligations.RegisterRotates := fun _ =>
  ⟨rotate_modifiesRegister fun _ => rfl, rotate_modifiesRegister fun _ => rfl, rotate_modifiesRegister fun _ => rfl,
    rotate_modifiesRegister fun _ => rfl, rotate_modifiesRegister fun _ => rfl, rotate_modifiesRegister fun _ => rfl,
    rotate_modifiesRegister fun _ => rfl, rotate_modifiesRegister fun _ => rfl⟩

theorem rotHlInstr_modifiesByteAtHl (o : RotOp) :
    ModifiesByteAtHl (rotHlInstr o) 16 (rotatedValue o) (rotatedFlags o) :=
  modifiesByteAtHl_of (rotate o) (exec_rotHlInstr o) (rotResult_eq o) (rotate_flags o)

/-- Settles O54: each is the row of its transform on the byte at `HL`. -/
theorem memoryRotates : Obligations.MemoryRotates :=
  ⟨rotHlInstr_modifiesByteAtHl .rlc, rotHlInstr_modifiesByteAtHl .rrc, rotHlInstr_modifiesByteAtHl .rl,
    rotHlInstr_modifiesByteAtHl .rr, rotHlInstr_modifiesByteAtHl .sla, rotHlInstr_modifiesByteAtHl .sra,
    rotHlInstr_modifiesByteAtHl .swap, rotHlInstr_modifiesByteAtHl .srl⟩

/-! ### One bit of a byte (44 R272 to R275) -/

section
variable (b : BitVec 3) (v : Byte)

/-- The byte whose only bit is `b`. -/
theorem bitMask_toNat : ((1 : Byte) <<< b.toNat).toNat = 2 ^ b.toNat :=
  (BitVec.toNat_twoPow 8 b.toNat).trans (Nat.mod_eq_of_lt (Nat.pow_lt_pow_right Nat.one_lt_two b.isLt))

theorem and_bitMask_toNat : (v &&& (1 : Byte) <<< b.toNat).toNat = if v.getLsbD b.toNat then 2 ^ b.toNat else 0 := by
  rw [← bitMask_toNat]
  exact (congrArg BitVec.toNat (BitVec.and_twoPow v b.toNat)).trans (apply_ite BitVec.toNat _ _ _)

/-- A byte is what `RES` leaves of it and the bit that `RES` clears. -/
theorem resBit_toNat_add : (resBit b v).toNat + (if v.getLsbD b.toNat then 2 ^ b.toNat else 0) = v.toNat := by
  rw [← and_bitMask_toNat]
  exact and_not_toNat_add_and v _

/-- `SET` adds the bit to what `RES` leaves. -/
theorem setBit_toNat : (setBit b v).toNat = (resBit b v).toNat + 2 ^ b.toNat := by
  rw [← bitMask_toNat]
  exact or_toNat_eq_and_not_add v _

theorem resBit_eq : resBit b v = BitVec.ofNat 8 (v.toNat - if v.getLsbD b.toNat then 2 ^ b.toNat else 0) :=
  byte_eq_ofNat (Nat.eq_sub_of_add_eq (resBit_toNat_add b v))

theorem setBit_eq : setBit b v = BitVec.ofNat 8 (v.toNat + if v.getLsbD b.toNat then 0 else 2 ^ b.toNat) := by
  refine byte_eq_ofNat ?_
  rw [setBit_toNat, ← resBit_toNat_add b v]
  split <;> rfl

end

/-- An instruction that changes a register by `change` and keeps the flags. -/
theorem setReg_modifiesRegister {i : Instr} {r : Reg} {n : Nat} {change result : Byte → Byte}
    (h : ∀ s, exec i s = finish n (s.setReg r (change (s.reg r)))) (hresult : ∀ v, change v = result v) :
    ModifiesRegister i r n (fun v _ => result v) fun _ f => f := by
  obtain rfl := funext hresult
  exact changesRegisters_setReg (value := fun g => change (getReg r g)) h

/-- Settles O55: `BIT` writes the flags alone; `RES` and `SET` change a register or the byte at `HL` and keep them. -/
theorem bitInstructions : Obligations.BitInstructions := by
  refine fun b => ⟨fun rs => ?bitR, ?bitHl, fun rs => ?resR, ?resHl, fun rs => ?setR, ?setHl⟩
  case bitR => exact changesRegisters_of _ (fun _ => rfl) fun _ => rfl
  case bitHl =>
    refine loadsByte_of (fun v g => { g with f := bitFlags b v g.f }) (fun s hs => ?_) fun _ _ => rfl
    simp only [exec, execBitHl, withByte_next hs, State.setFlags, afterRead_regs, finish_eq]
  case resR => exact setReg_modifiesRegister (fun _ => rfl) (resBit_eq b)
  case resHl =>
    exact modifiesByteAtHl_of (fun v f => (resBit b v, f)) (fun _ => rfl) (fun v _ => resBit_eq b v) fun _ _ => rfl
  case setR => exact setReg_modifiesRegister (fun _ => rfl) (setBit_eq b)
  case setHl =>
    exact modifiesByteAtHl_of (fun v f => (setBit b v, f)) (fun _ => rfl) (fun v _ => setBit_eq b v) fun _ _ => rfl

end Sys2Proof.Machine
end

section
/-! The jumps, calls and returns (45): the target of a relative jump, the instructions that act on a condition, and the
push and the pop of `PC`. -/

namespace Sys2Proof.Machine

/-! ### Conditions (45 R286) -/

/-- The end of an instruction that does nothing else. -/
theorem finish_unchanged (n : Nat) (s : State) :
    ∃ t, finish n s = .next t ∧ RegsOnly s t ∧ t.cycles = n ∧ t.regs = s.regs :=
  ⟨_, finish_eq n s, regsOnly_withRegs s s.regs n, rfl, rfl⟩

/-- An instruction that updates the register file by `f` in `n` cycles where its condition holds, and else
ends in `m`. -/
theorem changesRegistersIf_of {i : Instr} {cc : Cond} {n m : Nat} {taken : Prop} {post : Regs → Regs → Prop}
    {s : State} (f : Regs → Regs)
    (h : exec i s = if condHolds cc s.regs.f then finish n (s.withRegs (f s.regs)) else finish m s)
    (htaken : taken ↔ condHolds cc s.regs.f = true) (hp : ∀ g, post g (f g)) :
    ∃ t, exec i s = .next t ∧ RegsOnly s t ∧ (taken → t.cycles = n ∧ post s.regs t.regs) ∧
      (¬ taken → t.cycles = m ∧ t.regs = s.regs) := by
  by_cases hcc : condHolds cc s.regs.f = true
  · exact ⟨_, h.trans (if_pos hcc), regsOnly_withRegs s _ n, fun _ => ⟨rfl, hp s.regs⟩,
      fun hn => absurd (htaken.2 hcc) hn⟩
  · exact ⟨_, h.trans (if_neg hcc), regsOnly_withRegs s s.regs m, fun ht => absurd (htaken.1 ht) hcc,
      fun _ => ⟨rfl, rfl⟩⟩

/-! ### Jumps (45 R290 to R294) -/

/-- The displacement of a relative jump is added as that of `ADD SP,e8` is. -/
theorem add_sext16 (w : Word) (e : Byte) : w + sext16 e = (addSpSigned w e).1 := by
  rw [addSpSigned, BitVec.ofInt_add, BitVec.ofInt_natCast, BitVec.ofNat_toNat, BitVec.setWidth_eq]
  rfl

theorem add_sext16_toNat (w : Word) (e : Byte) :
    ((w + sext16 e).toNat : Int) = ((w.toNat : Int) + e.toInt) % 65536 := by
  rw [add_sext16, addSpSigned_toNat]

/-- Settles O56: each jump is an update of `PC`, the conditional ones where the condition of their index holds. -/
theorem jumps : Obligations.Jumps := by
  unfold Obligations.Jumps
  intro holds relative
  have holds_iff : ∀ c < 4, ∀ f, holds c f ↔ condHolds (condOf c) f = true := by
    intro c hc f
    interval_cases c <;> simp [holds, condOf, condHolds]
  have relative_add (e : Byte) (g : Regs) : relative e g { g with pc := g.pc + sext16 e } :=
    ⟨add_sext16_toNat g.pc e, rfl⟩
  refine ⟨fun a => ?jp, ?jpHl, fun e => ?jr, fun s c hc => ⟨fun a => ?jpCc, fun e => ?jrCc⟩⟩
  case jp => exact changesRegisters_of (fun g => { g with pc := a }) (fun _ => rfl) fun _ => rfl
  case jpHl =>
    exact changesRegisters_of (fun g => { g with pc := getPair .hl g }) (fun _ => rfl) fun g =>
      ⟨rfl, (pairValue_eq .hl g).symm⟩
  case jr =>
    exact changesRegisters_of (fun g => { g with pc := g.pc + sext16 e }) (fun _ => rfl) (relative_add e)
  case jpCc =>
    exact changesRegistersIf_of (post := fun g k => k = { g with pc := a }) (fun g => { g with pc := a }) rfl
      (holds_iff c hc _) fun _ => rfl
  case jrCc =>
    exact changesRegistersIf_of (fun g => { g with pc := g.pc + sext16 e }) rfl (holds_iff c hc _) (relative_add e)

/-! ### Calls (45 R295, R296, R310) -/

/-- An instruction whose meaning is a call of `a` pushes `PC` and enters `a`. -/
theorem pushesWord_of_callTo {i : Instr} {a : Addr} {n : Nat} (h : ∀ s, exec i s = callTo a n s) :
    PushesWord i (fun s => s.regs.pc) n fun g => { g with sp := g.sp - 2, pc := a } :=
  pushesWord_of fun s u hu hregs => by rw [h, callTo, hu, andThen_next, finish_eq, State.setPc, hregs]

theorem callA16_pushesWord (a : Addr) :
    PushesWord (.callA16 a) (fun s => s.regs.pc) 24 fun g => { g with sp := g.sp - 2, pc := a } :=
  pushesWord_of_callTo fun _ => rfl

theorem exec_callCcA16_taken {cc : Cond} {s : State} (h : condHolds cc s.regs.f = true) (a : Addr) :
    exec (.callCcA16 cc a) s = exec (.callA16 a) s := if_pos h

theorem exec_callCcA16_untaken {cc : Cond} {s : State} (h : condHolds cc s.regs.f = false) (a : Addr) :
    exec (.callCcA16 cc a) s = finish 12 s := if_neg (Bool.eq_false_iff.mp h)

/-- Settles O57: `CALL` and `RST` are a call, and `CALL cc` is `CALL` where its condition holds. -/
theorem calls : Obligations.Calls := by
  refine ⟨callA16_pushesWord, fun t => pushesWord_of_callTo fun _ => rfl,
    fun cc a s => ⟨fun h => ?same, fun h hs => ?taken, fun h => ?untaken⟩⟩
  case same => exact exec_callCcA16_taken h a
  case taken =>
    obtain ⟨u, t, -, ht, rfl, hframe, -⟩ := callA16_pushesWord a s hs
    exact ⟨_, (exec_callCcA16_taken h a).trans ht, rfl, rfl, hframe⟩
  case untaken =>
    rw [exec_callCcA16_untaken h]
    exact finish_unchanged 12 s

/-! ### Returns (45 R297 to R299) -/

/-- A return whose two bytes are readable takes `PC` from the stack and changes no other register but `SP`. -/
theorem returnTo_next {s : State} (h : Readable s s.regs.sp) (h' : Readable s (s.regs.sp + 1)) (n : Nat) :
    ∃ t, returnTo n s = .next t ∧ t.cycles = n ∧ ReadsOnly [s.regs.sp, s.regs.sp + 1] s t ∧
      t.regs = { s.regs with
        sp := s.regs.sp + 2, pc := mkWord (peek (s.regs.sp + 1) (afterRead s.regs.sp s)) (peek s.regs.sp s) } := by
  refine ⟨_, ?_, rfl, readsOnly_two s.regs.sp (s.regs.sp + 1) s _ n, rfl⟩
  rw [returnTo, pop16_next h h', andThen_next, finish_eq, State.setPc, State.setSp, afterRead_regs, afterRead_regs]
  rfl

/-- `RETI` is a return that also schedules the enable. -/
theorem reti_popsWord :
    PopsWord .reti 16 (fun q => { q with imeDelay := 2 }) fun g lo hi k =>
      k = { g with sp := g.sp + 2, pc := mkWord hi lo } := by
  refine popsWord_of (fun lo hi g => { g with sp := g.sp + 2, pc := mkWord hi lo })
    (fun s lo hi t ht hregs hirq => ?_) fun _ _ _ => rfl
  rw [exec, execReti, returnFromInterrupt, ht, ← hregs, ← hirq]
  rfl

theorem exec_retCc_taken {cc : Cond} {s : State} (h : condHolds cc s.regs.f = true) :
    exec (.retCc cc) s = returnTo 20 s := if_pos h

theorem exec_retCc_untaken {cc : Cond} {s : State} (h : condHolds cc s.regs.f = false) :
    exec (.retCc cc) s = finish 8 s := if_neg (Bool.eq_false_iff.mp h)

/-- Settles O58: `RET` is a return, `RETI` one that schedules the enable, and `RET cc` one where its condition holds. -/
theorem returns : Obligations.Returns := by
  refine ⟨fun s h h' => returnTo_next h h' 16, reti_popsWord,
    fun cc s => ⟨fun hcc h h' => ?taken, fun hcc => ?untaken⟩⟩
  case taken =>
    rw [exec_retCc_taken hcc]
    exact returnTo_next h h' 20
  case untaken =>
    rw [exec_retCc_untaken hcc]
    exact finish_unchanged 8 s

end Sys2Proof.Machine
end

section
/-! The system instructions (46), and how an instruction can end: with a next state, with F1 for the twelve bytes that
stand for no instruction, or with F2 at an address that does not answer (60 R361, R362); never with a refusal. -/

namespace Sys2Proof.Machine

/-! ### The interrupt state (46 R315 to R323) -/

theorem irqAfter_ime {i : Instr} (h : i ≠ .di) (q : Irq) : (irqAfter i q).ime = q.ime := by
  cases i
  case di => exact absurd rfl h
  all_goals rfl

theorem irqAfter_imeDelay {i : Instr} (hdi : i ≠ .di) (hei : i ≠ .ei) (hreti : i ≠ .reti) (q : Irq) :
    (irqAfter i q).imeDelay = q.imeDelay := by
  cases i
  case di => exact absurd rfl hdi
  case ei => exact absurd rfl hei
  case reti => exact absurd rfl hreti
  all_goals rfl

theorem irqAfter_halted {i : Instr} (h : i ≠ .halt) (q : Irq) : (irqAfter i q).halted = q.halted := by
  cases i
  case halt => exact absurd rfl h
  all_goals rfl

@[simp] theorem irqAfter_enable (i : Instr) (q : Irq) : (irqAfter i q).enable = q.enable := by
  unfold irqAfter; split <;> rfl

@[simp] theorem irqAfter_request (i : Instr) (q : Irq) : (irqAfter i q).request = q.request := by
  unfold irqAfter; split <;> rfl

/-- Settles O16: an instruction that completes leaves the interrupt state that `irqAfter` says, which differs from the
old one for `HALT`, `DI`, `EI` and `RETI` only. -/
theorem interruptStateWriters : Obligations.InterruptStateWriters := by
  intro i s t h
  obtain ⟨⟨-, -, hime, hdelay, hhalted, -⟩, -⟩ := exec_completes h
  exact ⟨fun hdi hei hreti => ⟨hime.trans (irqAfter_ime hdi _), hdelay.trans (irqAfter_imeDelay hdi hei hreti _)⟩,
    fun hhalt => hhalted.trans (irqAfter_halted hhalt _), fun hdi => hime.trans (irqAfter_ime hdi _)⟩

/-- The four system instructions set the interrupt state and do nothing else, in 4 cycles. -/
theorem exec_system {i : Instr} (hi : i ∈ [Instr.nop, .halt, .di, .ei]) (s : State) :
    exec i s = .next ((s.withIrq (irqAfter i s.irq)).withCycles 4) := by
  simp only [List.mem_cons, List.not_mem_nil, or_false] at hi
  obtain rfl | rfl | rfl | rfl := hi
  all_goals rfl

/-- Settles O59: no byte of memory shows the fields of the interrupt state that these instructions set. -/
theorem systemInstructions : Obligations.SystemInstructions := by
  refine fun s => ⟨rfl, rfl, rfl, rfl, fun i hi t h => ?_⟩
  rw [exec_system hi] at h
  cases h
  refine ⟨rfl, fun b => ?_⟩
  rw [peek_withCycles]
  exact peek_withIrq (fun _ => irqAfter_enable i s.irq) fun _ _ => irqAfter_request i s.irq

/-! ### Outcomes that are no fault of the instruction -/

/-- The outcome of a run of accesses and register updates: a next value, or F2 at an address that does not answer under
the parameters `cfg` (20 R105, 60 R362). -/
inductive Answers (cfg : Config) {α : Type} : Res α → Prop where
  | next (x : α) : Answers cfg (.next x)
  | unanswered {a : Addr} (h : tolerates cfg a = false) (dir : IoDir) (g : Regs) :
    Answers cfg (.fault (.unimplementedIo a dir g))

namespace Answers
variable {cfg : Config} {α β : Type} {r : Res α}

protected theorem andThen {k : α → Res β} (h : Answers cfg r) (hk : ∀ x, r = .next x → Answers cfg (k x)) :
    Answers cfg (andThen r k) := by
  cases h with
  | next x => exact hk x rfl
  | unanswered h dir g => exact .unanswered h dir g

/-- Where every address answers, the outcome is a next value. -/
theorem exists_next (h : Answers cfg r) (hall : ∀ a, tolerates cfg a = true) : ∃ x, r = .next x := by
  cases h with
  | next x => exact ⟨x, rfl⟩
  | @unanswered a h => simp [hall a] at h

theorem ne_refused (h : Answers cfg r) (q : Refusal) : r ≠ .refused q := by
  rintro rfl; cases h

theorem ne_unimplementedOpcode (h : Answers cfg r) (op : Byte) (g : Regs) :
    r ≠ .fault (.unimplementedOpcode op g) := by
  rintro rfl; cases h

end Answers

/-! ### Accesses (20 R83, R84, R105) -/

section
variable (a : Addr) (v : Byte) (w : Word) (s : State)

theorem memRead_answers : Answers s.cfg (memRead a s) := by
  unfold memRead
  split
  next => exact .next _
  next h => exact .unanswered (Bool.eq_false_iff.2 h) _ _

theorem memRead_cfg {a : Addr} {s : State} {r : Byte × State} (h : memRead a s = .next r) : r.2.cfg = s.cfg := by
  obtain ⟨-, rfl⟩ := memRead_cases h
  exact afterRead_cfg a s

theorem oamDmaLast_answers (n : Nat) : Answers s.cfg (oamDmaLast n a s) := by
  induction n generalizing s with
  | zero => exact .next s
  | succ m ih =>
    refine (memRead_answers _ s).andThen fun r hr => ?_
    rw [← memRead_cfg hr, ← poke_cfg]
    exact ih _

theorem memWrite_answers : Answers s.cfg (memWrite a v s) := by
  unfold memWrite
  split
  next =>
    split
    next => exact poke_cfg a v s ▸ oamDmaLast_answers _ _ 160
    next => exact .next _
  next h => exact .unanswered (Bool.eq_false_iff.2 h) _ _

theorem memWrite_cfg {a : Addr} {v : Byte} {s u : State} (h : memWrite a v s = .next u) : u.cfg = s.cfg := by
  obtain ⟨⟨hcfg, -⟩, -⟩ := memWrite_keeps h
  exact hcfg

theorem memReadWord_answers : Answers s.cfg (memReadWord a s) :=
  (memRead_answers a s).andThen fun lo hlo =>
    Answers.andThen (memRead_cfg hlo ▸ memRead_answers (a + 1) lo.2) fun _ _ => .next _

theorem memWriteWord_answers : Answers s.cfg (memWriteWord a w s) :=
  (memWrite_answers a (lo8 w) s).andThen fun u hu => memWrite_cfg hu ▸ memWrite_answers (a + 1) (hi8 w) u

theorem push16_answers : Answers s.cfg (push16 w s) := memWriteWord_answers _ w (s.setSp (s.regs.sp - 2))

theorem pop16_answers : Answers s.cfg (pop16 s) := (memReadWord_answers s.regs.sp s).andThen fun _ _ => .next _

theorem modifyByte_answers (f : Byte → Flags → Byte × Flags) (n : Nat) : Answers s.cfg (modifyByte a f n s) :=
  (memRead_answers a s).andThen fun r hr =>
    Answers.andThen (memRead_cfg hr ▸ memWrite_answers a (f r.1 r.2.regs.f).1 r.2) fun _ _ => .next _

theorem callTo_answers (n : Nat) : Answers s.cfg (callTo a n s) :=
  (push16_answers s.regs.pc s).andThen fun _ _ => .next _

theorem returnTo_answers (n : Nat) : Answers s.cfg (returnTo n s) := (pop16_answers s).andThen fun _ _ => .next _

theorem fetch8_answers : Answers s.cfg (fetch8 s) := (memRead_answers s.regs.pc s).andThen fun _ _ => .next _

end

/-! ### Every instruction -/

/-- The prefix runs a row with a register operand, `BIT` on the byte at `HL`, or a read-modify-write of it. -/
theorem execPrefixCb_answers (op2 : Byte) (s : State) : Answers s.cfg (execPrefixCb op2 s) := by
  change Answers s.cfg (exec (.prefixCb op2) s)
  rw [exec_prefixCb]
  obtain ⟨x, y, z, rfl⟩ := exists_xyz op2
  cases z using operand_cases
  case reg r =>
    obtain ⟨t, ht, -⟩ := exec_decodeCb_reg x y r s
    exact ht ▸ .next t
  case hl =>
    by_cases hx : x = 1
    · subst hx
      rw [decodeCb_bitHl]
      exact (memRead_answers s.hl s).andThen fun _ _ => .next _
    · obtain ⟨f, hf⟩ := exec_decodeCb_hl hx y
      exact hf s ▸ modifyByte_answers s.hl s f 16

/-- An instruction other than `STOP` and the undefined bytes completes or meets an address that does not answer. The
cases are the shapes of its meaning. -/
theorem exec_answers {i : Instr} (h : faultingByte i = none) (s : State) : Answers s.cfg (exec i s) := by
  cases i <;> dsimp only [exec]
  case stop | undefD3 | undefDB | undefDD | undefE3 | undefE4 | undefEB | undefEC | undefED | undefF4 | undefFC |
      undefFD => cases h
  case prefixCb op2 => exact execPrefixCb_answers op2 s
  case ldRHl | ldABc | ldADe | ldAHlInc | ldAHlDec | ldhAA8 | ldhAC | ldAA16 | addAHl | adcAHl | subHl | sbcAHl |
      andHl | xorHl | orHl | cpHl | bitHl => exact (memRead_answers _ s).andThen fun _ _ => .next _
  case ldHlR | ldHlD8 | ldBcA | ldDeA | ldHlIncA | ldHlDecA | ldhA8A | ldhCA | ldA16A =>
    exact (memWrite_answers _ _ s).andThen fun _ _ => .next _
  case ldA16Sp => exact (memWriteWord_answers _ _ s).andThen fun _ _ => .next _
  case incHl | decHl | rlcHl | rrcHl | rlHl | rrHl | slaHl | sraHl | swapHl | srlHl | resHl | setHl =>
    exact modifyByte_answers _ s _ _
  case pushRp2 | pushAf => exact (push16_answers _ s).andThen fun _ _ => .next _
  case popRp2 | popAf => exact (pop16_answers s).andThen fun _ _ => .next _
  case callA16 | rst => exact callTo_answers _ s _
  case ret => exact returnTo_answers s 16
  case reti => exact ((pop16_answers s).andThen fun _ _ => .next _).andThen fun _ _ => .next _
  case jpCcA16 cc a =>
    unfold execJpCcA16
    split <;> exact .next _
  case jrCcE8 cc e =>
    unfold execJrCcE8
    split <;> exact .next _
  case callCcA16 cc a =>
    unfold execCallCcA16
    split
    · exact callTo_answers a s 24
    · exact .next _
  case retCc cc =>
    unfold execRetCc
    split
    · exact returnTo_answers s 20
    · exact .next _
  all_goals exact .next _

/-- `STOP` and the undefined bytes raise F1 with their byte and the register file (46 R318, R321). -/
theorem exec_of_faultingByte {i : Instr} {op : Byte} (h : faultingByte i = some op) (s : State) :
    exec i s = .fault (.unimplementedOpcode op s.regs) := by
  cases i <;> cases h <;> rfl

/-- Settles O19: an instruction without a faulting byte has no outcome F1, and the others have the one with theirs. -/
theorem unimplementedOpcodesFault : Obligations.UnimplementedOpcodesFault := by
  refine ⟨fun s => ?_, fun i s op g h => ?_⟩
  · and_intros
    all_goals exact exec_of_faultingByte rfl s
  · cases hb : faultingByte i with
    | none => exact absurd h ((exec_answers hb s).ne_unimplementedOpcode op g)
    | some byte =>
      rw [exec_of_faultingByte hb s] at h
      cases h
      rfl

/-! ### No refusal (46 R324, 60 R364) -/

/-- The outcome is a next value or a fault. -/
def NotRefused {α : Type} (r : Res α) : Prop := ∀ q, r ≠ .refused q

theorem NotRefused.andThen {α β : Type} {r : Res α} {k : α → Res β} (h : NotRefused r) (hk : ∀ x, NotRefused (k x)) :
    NotRefused (andThen r k) := by
  cases r with
  | next x => exact hk x
  | fault f => exact nofun
  | refused q => exact absurd rfl (h q)

theorem notRefused_next {α : Type} (x : α) : NotRefused (.next x : Res α) := nofun

theorem Answers.notRefused {cfg : Config} {α : Type} {r : Res α} (h : Answers cfg r) : NotRefused r := h.ne_refused

theorem exec_notRefused (i : Instr) (s : State) : NotRefused (exec i s) := by
  cases hb : faultingByte i with
  | none => exact (exec_answers hb s).notRefused
  | some op => rw [exec_of_faultingByte hb s]; exact nofun

theorem fetchInstr_notRefused (s : State) : NotRefused (fetchInstr s) := by
  refine (fetch8_answers s).notRefused.andThen fun op => ?_
  split
  · exact notRefused_next _
  refine (fetch8_answers op.2).notRefused.andThen fun b1 => ?_
  split
  · exact notRefused_next _
  exact (fetch8_answers b1.2).notRefused.andThen fun _ => notRefused_next _

theorem dispatch_notRefused (i : Source) (s : State) : NotRefused (dispatch i s) :=
  (push16_answers _ _).notRefused.andThen fun _ => notRefused_next _

theorem interruptCheck_notRefused (s : State) : NotRefused (interruptCheck s) := by
  unfold interruptCheck
  dsimp only
  split
  · exact notRefused_next _
  · exact (dispatch_notRefused _ _).andThen fun _ => notRefused_next _

theorem cpuStep_notRefused (s : State) : NotRefused (cpuStep s) := by
  refine (interruptCheck_notRefused s).andThen fun r => ?_
  split
  · exact notRefused_next _
  split
  · exact notRefused_next _
  · exact (fetchInstr_notRefused r.2).andThen fun x => exec_notRefused x.1 x.2

/-- Settles O18: the instruction answers, so where every address does it completes; and no part of a step is refused. -/
theorem everyOtherInstructionCompletes : Obligations.EveryOtherInstructionCompletes :=
  ⟨fun _ s hall h => (exec_answers h s).exists_next hall,
    fun s => (cpuStep_notRefused (startStep s)).andThen fun _ => notRefused_next _⟩

end Sys2Proof.Machine
end

section
/-! The start of a step (60 R343, R352) and its interrupt check: the halt release, the gate, and the taking of an
interrupt (60 R345 to R348). -/

namespace Sys2Proof.Machine

/-! ### The start of a step -/

theorem tickImeDelay_eq (q : Irq) :
    tickImeDelay q = { q with ime := (tickImeDelay q).ime, imeDelay := (tickImeDelay q).imeDelay } := by
  unfold tickImeDelay
  repeat' split
  all_goals rfl

theorem tickImeDelay_two {q : Irq} (h : q.imeDelay = 2) : tickImeDelay q = { q with imeDelay := 1 } := if_pos h

theorem tickImeDelay_one {q : Irq} (h : q.imeDelay = 1) : tickImeDelay q = { q with imeDelay := 0, ime := true } := by
  rw [tickImeDelay, if_neg (by rw [h]; decide), if_pos h]

theorem tickImeDelay_zero {q : Irq} (h : q.imeDelay = 0) : tickImeDelay q = q := by
  rw [tickImeDelay, if_neg (by rw [h]; decide), if_neg (by rw [h]; decide)]

/-- Only the last count of the pending enable sets `IME`. -/
theorem tickImeDelay_ime {q : Irq} (h : q.imeDelay ≠ 1) : (tickImeDelay q).ime = q.ime := by
  unfold tickImeDelay
  rw [if_neg h]
  split <;> rfl

/-- The host changes request bits and the count of draws only. -/
theorem hostRequests_eq (s : State) :
    hostRequests s =
      { s with
        irq := { s.irq with request := (hostRequests s).irq.request }, draws := (hostRequests s).draws } := by
  unfold hostRequests
  split <;> rfl

theorem hostRequests_off {s : State} (h : s.cfg.hostIrq = false) : hostRequests s = s :=
  if_neg (Bool.eq_false_iff.1 h)

theorem hostBits_getLsbD (x : BitVec 2) {n : Nat} (h : n < 3) : (x ++ (0 : BitVec 3) : BitVec 5).getLsbD n = false :=
  BitVec.getLsbD_append.trans (by simp [h])

/-- The host sets no request bit but 3 and 4, and clears none (60 R352). -/
theorem hostRequests_getLsbD (s : State) (n : Nat) :
    (n < 3 → (hostRequests s).irq.request.getLsbD n = s.irq.request.getLsbD n) ∧
    (s.irq.request.getLsbD n = true → (hostRequests s).irq.request.getLsbD n = true) := by
  unfold hostRequests
  split
  · refine ⟨fun h => ?_, fun h => ?_⟩
    · rw [State.withDraws_irq, State.withIrq_irq, BitVec.getLsbD_or, hostBits_getLsbD _ h, Bool.or_false]
    · rw [State.withDraws_irq, State.withIrq_irq, BitVec.getLsbD_or, h, Bool.true_or]
  · exact ⟨fun _ => rfl, id⟩

/-- The start of a step is the count of the pending enable, beside the host's requests. -/
theorem startStep_irq (s : State) :
    (startStep s).irq = { tickImeDelay s.irq with request := (hostRequests s).irq.request } := by
  have e : (startStep s).irq = tickImeDelay (hostRequests s).irq := rfl
  rw [e, hostRequests_eq]
  unfold tickImeDelay
  dsimp only
  repeat' split
  all_goals rfl

theorem startStep_ime {s : State} (h : s.irq.imeDelay ≠ 1) : (startStep s).irq.ime = s.irq.ime := by
  rw [startStep_irq]
  exact tickImeDelay_ime h

@[simp] theorem startStep_regs (s : State) : (startStep s).regs = s.regs := by rw [startStep_eq]
@[simp] theorem startStep_mem (s : State) : (startStep s).mem = s.mem := by rw [startStep_eq]

/-! ### The interrupt check -/

theorem pending_eq (q : Irq) : pending q = q.enable.setWidth 5 &&& q.request := by
  rw [pending, BitVec.setWidth_eq_extractLsb' (by decide)]

theorem pending_getLsbD (q : Irq) {n : Nat} (h : n < 5) :
    (pending q).getLsbD n = (q.enable.getLsbD n && q.request.getLsbD n) := by
  simp [pending_eq, h]

@[simp] theorem pending_releaseHalt (q : Irq) : pending (releaseHalt q) = pending q := by rw [releaseHalt_eq]; rfl

/-- Something enabled and requested ends a halt. -/
theorem releaseHalt_of_pending {q : Irq} (h : pending q ≠ 0) : releaseHalt q = { q with halted := false } := by
  rw [releaseHalt_eq, decide_eq_false h, Bool.and_false]

@[simp] theorem releaseHalt_ime (q : Irq) : (releaseHalt q).ime = q.ime := by rw [releaseHalt_eq]

/-- With `IME` 0 or nothing enabled and requested, the check releases the halt and does nothing else (60 R346). -/
theorem interruptCheck_none {s : State} (h : s.irq.ime = false ∨ pending s.irq = 0) :
    interruptCheck s = .next (false, s.withIrq (releaseHalt s.irq)) := by
  obtain h | h := h
  · simp only [interruptCheck, State.withIrq_irq, releaseHalt_ime, h, Bool.false_eq_true, if_false]
  · simp only [interruptCheck, State.withIrq_irq, pending_releaseHalt, lowestSource_eq_none.2 h, ite_self]

/-- With `IME` 1, the lowest source that is enabled and requested is dispatched (60 R347). -/
theorem interruptCheck_some {s : State} {i : Source} (hime : s.irq.ime = true)
    (hi : lowestSource (pending s.irq) = some i) :
    interruptCheck s =
      andThen (dispatch i (s.withIrq (releaseHalt s.irq))) fun t => .next (true, t) := by
  simp only [interruptCheck, State.withIrq_irq, releaseHalt_ime, pending_releaseHalt, hime, hi, if_true]

/-- The check dispatches nothing, or the lowest source (60 R346, R347). -/
theorem interruptCheck_gate (s : State) :
    (s.irq.ime = false ∨ pending s.irq = 0) ∨
      (s.irq.ime = true ∧ pending s.irq ≠ 0 ∧ ∃ i, lowestSource (pending s.irq) = some i) := by
  by_cases hp : pending s.irq = 0
  · exact .inl (.inr hp)
  cases hime : s.irq.ime
  · exact .inl (.inl rfl)
  · exact .inr ⟨rfl, hp, Option.ne_none_iff_exists'.1 fun h => hp (lowestSource_eq_none.1 h)⟩

/-- A dispatch touches the halt only through the release. -/
theorem dispatch_halted {i : Source} {s t : State} (h : dispatch i s = .next t) : t.irq.halted = s.irq.halted := by
  obtain ⟨u, hu, h⟩ := andThen_eq_next h
  cases h
  obtain ⟨-, -, -, -, hhalted, -⟩ := (push16_keeps hu).1
  exact hhalted

/-- After the check the core is halted exactly when it was and nothing is enabled and requested (60 R345). -/
theorem interruptCheck_halted {s : State} {r : Bool × State} (h : interruptCheck s = .next r) :
    r.2.irq.halted = (s.irq.halted && decide (pending s.irq = 0)) := by
  obtain hno | ⟨hime, -, i, hi⟩ := interruptCheck_gate s
  · rw [interruptCheck_none hno] at h
    cases h
    exact congrArg Irq.halted (releaseHalt_eq s.irq)
  · rw [interruptCheck_some hime hi] at h
    obtain ⟨u, hu, h⟩ := andThen_eq_next h
    cases h
    exact (dispatch_halted hu).trans (congrArg Irq.halted (releaseHalt_eq s.irq))

/-- A check that dispatches nothing and leaves no halt is followed by an instruction in the same step (60 R346). -/
theorem step_of_check {s t : State} (h : interruptCheck (startStep s) = .next (false, t)) (hh : t.irq.halted = false) :
    step s = andThen (execute t) fun u => .next (finishStep u) := by
  simp [step, cpuStep, h, hh]

/-- Settles O8: by the gate, the check releases the halt and nothing else, or it dispatches. -/
theorem haltReleaseAndGate : Obligations.HaltReleaseAndGate := by
  refine ⟨fun s => ?_, fun s t => step_of_check⟩
  dsimp only
  rw [← pending_eq]
  refine ⟨fun h => ?_, fun t ht => ?_, fun r t => interruptCheck_halted⟩
  · rw [interruptCheck_none h, releaseHalt_eq]
  · obtain hno | ⟨hime, hp, -⟩ := interruptCheck_gate s
    · rw [interruptCheck_none hno] at ht
      cases ht
    · exact ⟨hime, hp⟩

/-! ### The pending enable -/

theorem irqAfter_ime_off (i : Instr) {q : Irq} (h : q.ime = false) : (irqAfter i q).ime = false := by
  by_cases hdi : i = .di
  · subst hdi; rfl
  · rw [irqAfter_ime hdi, h]

/-- No instruction sets `IME` in its own step (46 R319, R320; 45 R299). -/
theorem execute_ime_off {s t : State} (h : execute s = .next t) (hs : s.irq.ime = false) : t.irq.ime = false := by
  obtain ⟨r, hr, h⟩ := andThen_eq_next h
  obtain ⟨-, -, hfetch, -⟩ := fetchInstr_keeps hr
  obtain ⟨⟨-, -, hexec, -⟩, -⟩ := exec_completes h
  exact hexec.trans (irqAfter_ime_off r.1 (hfetch.trans hs))

@[simp] theorem finishStep_irq_ime (s : State) : (finishStep s).irq.ime = s.irq.ime := by
  obtain ⟨-, -, -, -, -, -, -, hime, -⟩ := busRun_keeps s.cycles s
  exact hime

/-- A step whose start leaves `IME` 0 ends with `IME` 0. -/
theorem step_ime_off {s u : State} (hs : (startStep s).irq.ime = false) (h : step s = .next u) : u.irq.ime = false := by
  obtain ⟨t, ht, h⟩ := andThen_eq_next h
  cases h
  rw [finishStep_irq_ime]
  have hime : ((startStep s).withIrq (releaseHalt (startStep s).irq)).irq.ime = false :=
    (releaseHalt_ime _).trans hs
  simp only [cpuStep, interruptCheck_none (.inl hs), andThen_next, Bool.false_eq_true, if_false] at ht
  split at ht
  · cases ht; exact hime
  · exact execute_ime_off ht hime

/-- Settles O9: by the count of the pending enable; and `IME` is 0 after the start of a step unless the count was 1. -/
theorem enableTakesEffectAfterOneInstruction : Obligations.EnableTakesEffectAfterOneInstruction := by
  intro s
  refine ⟨fun h => ?_, fun h => ?_, fun h => ?_, fun h0 h1 => ?_,
    (startStep s).irq.ime, (startStep s).irq.imeDelay, (hostRequests s).irq.request, (hostRequests s).draws,
    ?_, fun n hn => (hostRequests_getLsbD s n).1 hn, fun n _ => (hostRequests_getLsbD s n).2, fun h => ?_⟩
  · rw [startStep_irq, tickImeDelay_two h]; exact ⟨rfl, rfl⟩
  · rw [startStep_irq, tickImeDelay_one h]; exact ⟨rfl, rfl⟩
  · rw [startStep_irq, tickImeDelay_zero h]; exact ⟨h, rfl⟩
  · have hs : (startStep s).irq.ime = false := (startStep_ime h1).trans h0
    exact ⟨⟨_, interruptCheck_none (.inl hs)⟩, fun u hu => step_ime_off hs hu⟩
  · have e : startStep s = (hostRequests s).withIrq (startStep s).irq := rfl
    rw [e, State.withIrq_irq, startStep_irq, tickImeDelay_eq, hostRequests_eq]
    rfl
  · rw [hostRequests_off h]; exact ⟨rfl, rfl⟩

/-! ### Taking an interrupt -/

theorem exists_source {n : Nat} (h : n < 5) : ∃ i : Source, i.bit = n := by
  interval_cases n
  exacts [⟨.vblank, rfl⟩, ⟨.lcdStat, rfl⟩, ⟨.timer, rfl⟩, ⟨.serial, rfl⟩, ⟨.joypad, rfl⟩]

/-- The lowest set bit is the source selected (60 R347). -/
theorem lowestSource_eq_some {p : BitVec 5} {i : Source} (hi : p.getLsbD i.bit = true)
    (hlow : ∀ m < i.bit, p.getLsbD m = false) : lowestSource p = some i := by
  unfold lowestSource
  cases i <;> simp only [Source.bit] at hi hlow
  all_goals simp (disch := decide) only [hi, hlow, Bool.false_eq_true, if_true, if_false]

theorem clearRequest_eq (i : Source) (r : BitVec 5) : clearRequest i r = r &&& ~~~(1#5 <<< i.bit) := by
  cases i <;> rfl

/-- The interrupt state in which `PC` is pushed: the request of `i` cleared, interrupts disabled, the halt ended. -/
def irqTaken (i : Source) (q : Irq) : Irq :=
  { q with request := clearRequest i q.request, ime := false, imeDelay := 0, halted := false }

/-- A step that takes the interrupt `i`: the push, the vector, 16 cycles, and the devices' advance (60 R348). -/
theorem step_of_dispatch {s u : State} {i : Source} (hime : (startStep s).irq.ime = true)
    (hi : lowestSource (pending (startStep s).irq) = some i)
    (hu : push16 s.regs.pc ((startStep s).withIrq (irqTaken i (startStep s).irq)) = .next u) :
    step s = .next (finishStep ((u.setPc i.vector).withCycles 16)) := by
  have hp : pending (startStep s).irq ≠ 0 := fun h => by rw [lowestSource_eq_none.2 h] at hi; cases hi
  have e : ∀ t : State, pending t.irq ≠ 0 →
      { (t.withIrq (releaseHalt t.irq)).irq with
        request := clearRequest i (t.withIrq (releaseHalt t.irq)).irq.request, ime := false, imeDelay := 0 } =
      irqTaken i t.irq := by
    intro t ht
    rw [State.withIrq_irq, releaseHalt_of_pending ht]
    rfl
  simp only [step, cpuStep, interruptCheck_some hime hi, dispatch, e _ hp, State.withIrq_withIrq, State.withIrq_regs,
    startStep_regs, hu, andThen_next, if_true]

/-- Settles O7: the lowest source is dispatched, which is the push of `PC` with the request, `IME`, `ime_delay` and the
halt cleared, and the jump to the vector. -/
theorem interruptDispatch : Obligations.InterruptDispatch := by
  intro s n s1 q sp hn hime he hr hlow hst
  obtain ⟨i, rfl⟩ := exists_source hn
  have hi : lowestSource (pending s1.irq) = some i := by
    refine lowestSource_eq_some ?_ fun m hm => ?_
    · rw [pending_getLsbD _ hn, he, hr]; rfl
    · rw [pending_getLsbD _ (hm.trans hn), hlow m hm]
  have hq : q = irqTaken i s1.irq := by rw [irqTaken, clearRequest_eq]
  obtain ⟨u, hu⟩ := push16_next (w := s1.regs.pc) (s := s1.withIrq q) hst
  refine ⟨u, (u.setPc i.vector).withCycles 16, hu, ?_, ?_, (push16_frame hu).1.regs_left,
    (memWriteWord_holds hu).regs_left⟩
  · rw [hq, startStep_regs] at hu
    exact step_of_dispatch hime hi hu
  · have hregs := (push16_keeps hu).2
    rw [State.setPc, hregs]
    rfl

end Sys2Proof.Machine
end

section
/-! The rest of a step: the halted period (60 R350), the fetch and the instruction it gives (30 R134), the cycle count
(60 R340), and the devices' advance with the latch (60 R341, R353). -/

namespace Sys2Proof.Machine

/-! ### The halted period -/

/-- A step still halted after the check is the devices' advance of 4 cycles. -/
theorem step_halted {s : State} (hh : (startStep s).irq.halted = true) (hp : pending (startStep s).irq = 0) :
    step s = .next (finishStep ((startStep s).withCycles 4)) := by
  have hq : (startStep s).withIrq (releaseHalt (startStep s).irq) = startStep s := by
    rw [releaseHalt_eq, hp, decide_eq_true rfl, Bool.and_true]; rfl
  simp only [step, cpuStep, interruptCheck_none (.inr hp), hq, hh, andThen_next, Bool.false_eq_true, if_false, if_true]

/-- Settles O6: the devices' advance leaves the registers, memory and the halt alone. -/
theorem haltedStepIdles : Obligations.HaltedStepIdles := by
  intro s hh hp
  obtain ⟨hregs, hmem, -, -, hcycles, -, -, -, -, hhalted, -⟩ := busRun_keeps 4 ((startStep s).withCycles 4)
  exact ⟨_, step_halted hh hp, rfl, hregs.trans (startStep_regs s), hcycles, hmem.trans (startStep_mem s),
    hhalted.trans hh⟩

/-! ### The fetch -/

/-- A byte that is readable and holds no free value is fetched as it is, and the next fetch is of the byte behind. -/
theorem fetch8_steady {s : State} {a : Addr} (hr : Readable s a) (hs : steady s.cfg a = true) :
    fetch8 (s.setPc a) = .next (peek a s, s.setPc (a + 1)) := by
  change andThen (memRead a (s.setPc a)) _ = _
  rw [memRead_next (s := s.setPc a) hr, afterRead_steady (s := s.setPc a) hs]
  rfl

theorem length_encode_decodeBytes (op b1 b2 : Byte) : (encode (decodeBytes op b1 b2)).length = instrLength op := by
  rw [(rowOf_decodeBytes op b1 b2).2, List.length_take]
  rcases instrLength_cases op with hl | hl | hl <;> rw [hl] <;> rfl

/-- Bytes that are readable and hold no free value are fetched as they are, `PC` ends past them, and the rest of the
three bytes is not looked at (30 R131). -/
theorem fetchInstr_steady {s : State} {i : Instr} {rest : List Byte}
    (hd : decode [peek s.regs.pc s, peek (s.regs.pc + 1) s, peek (s.regs.pc + 2) s] = .ok (i, rest))
    (h : ∀ k < (encode i).length, Readable s (s.regs.pc + BitVec.ofNat 16 k) ∧
      steady s.cfg (s.regs.pc + BitVec.ofNat 16 k) = true) :
    fetchInstr s = .next (i, s.setPc (s.regs.pc + BitVec.ofNat 16 (encode i).length)) := by
  have hfetch (k : Nat) (hk : k < (encode i).length) :
      fetch8 (s.setPc (s.regs.pc + BitVec.ofNat 16 k)) =
        .next (peek (s.regs.pc + BitVec.ofNat 16 k) s, s.setPc (s.regs.pc + BitVec.ofNat 16 (k + 1))) := by
    obtain ⟨hr, hs⟩ := h k hk
    rw [fetch8_steady hr hs, BitVec.ofNat_add, ← BitVec.add_assoc]
    rfl
  have hstart : s.setPc (s.regs.pc + BitVec.ofNat 16 0) = s := by rw [BitVec.add_zero]; rfl
  have hpc : s.regs.pc + BitVec.ofNat 16 0 = s.regs.pc := BitVec.add_zero _
  rcases instrLength_cases (peek s.regs.pc s) with hl | hl | hl
  all_goals
    simp only [decode, hl] at hd
    cases hd
    simp only [length_encode_decodeBytes, hl] at hfetch ⊢
    have f0 := hfetch 0 (by decide)
    rw [hstart, hpc] at f0
  · simp [fetchInstr, f0, hl]
  · have f1 := hfetch 1 (by decide)
    simp [fetchInstr, f0, f1, hl]
  · have f1 := hfetch 1 (by decide)
    have f2 := hfetch 2 (by decide)
    simp [fetchInstr, f0, f1, f2, hl]

/-- Settles O5: the check releases the halt and dispatches nothing, so that the step executes an instruction. -/
theorem stepRunsDecodedInstruction : Obligations.StepRunsDecodedInstruction := by
  intro s s1 s2 hno hhalt
  have hq : s1.withIrq (releaseHalt s1.irq) = s2 := by
    have hh : (s1.irq.halted && decide (pending s1.irq = 0)) = false := by
      obtain h | h := hhalt
      · rw [h, Bool.false_and]
      · rw [decide_eq_false h, Bool.and_false]
    rw [releaseHalt_eq, hh]
  have hstep : step s = andThen (execute s2) fun t => .next (finishStep t) :=
    step_of_check (hq ▸ interruptCheck_none hno) rfl
  have hexec : ∀ (i : Instr) (s3 : State), fetchInstr s2 = .next (i, s3) →
      step s = andThen (exec i s3) fun t => .next (finishStep t) := by
    intro i s3 hf
    rw [hstep, execute, hf, andThen_next]
  exact ⟨fun i rest hd _ hr => hexec i _ (fetchInstr_steady hd hr), hexec⟩

/-! ### The cycle count -/

@[simp] theorem finishStep_cycles (s : State) : (finishStep s).cycles = s.cycles := by
  obtain ⟨-, -, -, -, hcycles, -⟩ := busRun_keeps s.cycles s
  exact hcycles

/-- Settles O14: the CPU's part of a step ends with a legal count, which the devices' advance leaves. -/
theorem stepLastsFourToTwentyFourCycles : Obligations.StepLastsFourToTwentyFourCycles := by
  intro s t h
  obtain ⟨u, hu, h⟩ := andThen_eq_next h
  cases h
  obtain ⟨_, -, hlegal⟩ := cpuStep_completes hu
  rwa [finishStep_cycles]

/-! ### The devices' advance and the latch -/

/-- The requests after the latch (60 R353). -/
def latched (s : State) : BitVec 5 := (latchRequests s).irq.request

theorem latchRequests_eq (s : State) :
    latchRequests s =
      { s with
        irq := { s.irq with request := latched s }, timer := { s.timer with reqTimer := false }
        ppu := { s.ppu with reqVblank := false, reqStat := false } } := rfl

/-- The latch sets bit 0, 1, 2 for the VBlank, STAT and timer flag, and no other bit. -/
theorem latched_getLsbD (s : State) :
    (latched s).getLsbD 0 = (s.irq.request.getLsbD 0 || s.ppu.reqVblank) ∧
    (latched s).getLsbD 1 = (s.irq.request.getLsbD 1 || s.ppu.reqStat) ∧
    (latched s).getLsbD 2 = (s.irq.request.getLsbD 2 || s.timer.reqTimer) ∧
    (latched s).getLsbD 3 = s.irq.request.getLsbD 3 ∧ (latched s).getLsbD 4 = s.irq.request.getLsbD 4 := by
  simp only [latched, latchRequests, State.withPpu_irq, State.withTimer_irq, State.withIrq_irq, BitVec.getLsbD_or]
  cases s.timer.reqTimer <;> cases s.ppu.reqStat <;> cases s.ppu.reqVblank <;> simp

theorem finishStep_on {s : State} (h : s.ppu.lcdc.getLsbD 7 = true) :
    finishStep s =
      latchRequests { s with
        ppu := (ppuTicks s.cycles s).ppu, fb := (ppuTicks s.cycles s).fb, timer := timerRun s.cycles s.timer } := by
  have e : ppuRun s.cycles s = ppuTicks s.cycles s := if_pos h
  rw [finishStep, busRun, e, ppuTicks_eq]
  rfl

theorem finishStep_off {s : State} (h : s.ppu.lcdc.getLsbD 7 = false) :
    finishStep s = latchRequests { s with timer := timerRun s.cycles s.timer } := by
  have e : ppuRun s.cycles s = s := if_neg (Bool.eq_false_iff.1 h)
  rw [finishStep, busRun, e]
  rfl

/-- Settles O10: the latch bit by bit; and before it the timer has run, and the PPU where the LCD is on. -/
theorem latchSetsRequests : Obligations.LatchSetsRequests := by
  have high (s : State) : (latched s).getLsbD 3 = s.irq.request.getLsbD 3 ∧
      (latched s).getLsbD 4 = s.irq.request.getLsbD 4 := by
    obtain ⟨-, -, -, h⟩ := latched_getLsbD s
    exact h
  refine ⟨fun s => ⟨latched s, latchRequests_eq s, latched_getLsbD s⟩,
    fun s => ⟨finishStep_on, fun h => ?_, ?_⟩⟩
  · rw [finishStep_off h]; exact ⟨rfl, rfl, rfl⟩
  · cases h : s.ppu.lcdc.getLsbD 7
    · rw [finishStep_off h]
      exact ⟨_, rfl, high _⟩
    · rw [finishStep_on h]
      exact ⟨_, rfl, high _⟩

end Sys2Proof.Machine
end

section
/-! The timer (60 R381 to R384): a run in closed form, and a run split in two. -/

namespace Sys2Proof.Machine

/-! ### Increments of `TIMA` -/

/-- The timer with other counts: `DIV`, `div_acc` and `tima_acc`. -/
def Timer.withCounts (t : Timer) (div : Byte) (divAcc timaAcc : Nat) : Timer :=
  { t with div := div, divAcc := divAcc, timaAcc := timaAcc }

section
variable (t : Timer) (div div' : Byte) (divAcc divAcc' timaAcc timaAcc' : Nat)

@[simp] theorem Timer.withCounts_div : (t.withCounts div divAcc timaAcc).div = div := rfl
@[simp] theorem Timer.withCounts_divAcc : (t.withCounts div divAcc timaAcc).divAcc = divAcc := rfl
@[simp] theorem Timer.withCounts_timaAcc : (t.withCounts div divAcc timaAcc).timaAcc = timaAcc := rfl
@[simp] theorem Timer.withCounts_withCounts :
    (t.withCounts div divAcc timaAcc).withCounts div' divAcc' timaAcc' = t.withCounts div' divAcc' timaAcc' := rfl

theorem timaTick_withCounts :
    timaTick (t.withCounts div divAcc timaAcc) = (timaTick t).withCounts div divAcc timaAcc := by
  unfold timaTick Timer.withCounts
  split <;> rfl

/-- An increment neither reads nor writes the counts. -/
theorem timaTicks_withCounts (k : Nat) :
    timaTicks k (t.withCounts div divAcc timaAcc) = (timaTicks k t).withCounts div divAcc timaAcc := by
  induction k generalizing t with
  | zero => rfl
  | succ k ih => rw [timaTicks, timaTick_withCounts, ih]; rfl

end

theorem timaTick_wrap {t : Timer} (h : t.tima.toNat = 255) :
    (timaTick t).tima = t.tma ∧ (timaTick t).tma = t.tma ∧ (timaTick t).reqTimer = true := by
  rw [timaTick, if_pos (BitVec.eq_of_toNat_eq h)]
  exact ⟨rfl, rfl, rfl⟩

theorem timaTick_step {t : Timer} (h : t.tima.toNat < 255) :
    (timaTick t).tima.toNat = t.tima.toNat + 1 ∧ (timaTick t).tma = t.tma ∧ (timaTick t).reqTimer = t.reqTimer := by
  have hne : t.tima ≠ 0xFF := fun e => by rw [e] at h; exact absurd h (by decide)
  rw [timaTick, if_neg hne]
  refine ⟨?_, rfl, rfl⟩
  change (t.tima + 1).toNat = _
  rw [BitVec.toNat_add]
  exact Nat.mod_eq_of_lt (by change t.tima.toNat + 1 < 256; omega)

/-- While `TIMA` does not pass 0xFF its increments add up. -/
theorem timaTicks_below {k : Nat} {t : Timer} (h : t.tima.toNat + k < 256) :
    (timaTicks k t).tima.toNat = t.tima.toNat + k ∧ (timaTicks k t).reqTimer = t.reqTimer := by
  induction k generalizing t with
  | zero => exact ⟨rfl, rfl⟩
  | succ k ih =>
    obtain ⟨htima, -, hreq⟩ := timaTick_step (t := t) (by omega)
    obtain ⟨h1, h2⟩ := ih (t := timaTick t) (by omega)
    rw [timaTicks, h1, h2, htima, hreq]
    exact ⟨by omega, rfl⟩

/-- A whole round from `m` to 0xFF does not count. -/
theorem mod_round {m k : Nat} (h : 256 ≤ m + k) (hm : m < 256) : (m + k - 256) % (256 - m) = k % (256 - m) := by
  have hk : (m + k - 256) + (256 - m) = k := by omega
  exact (Nat.add_mod_right _ _).symm.trans (congrArg (· % (256 - m)) hk)

/-- Once past 0xFF, `TIMA` goes round from `TMA`, and the request stays (60 R383). -/
theorem timaTicks_past {k : Nat} {t : Timer} (h : 256 ≤ t.tima.toNat + k) :
    (timaTicks k t).tima.toNat = t.tma.toNat + (t.tima.toNat + k - 256) % (256 - t.tma.toNat) ∧
      (timaTicks k t).reqTimer = true := by
  have htma := t.tma.isLt
  induction k generalizing t with
  | zero => have := t.tima.isLt; omega
  | succ k ih =>
    rw [timaTicks]
    by_cases h255 : t.tima.toNat = 255
    · obtain ⟨htima, htmaEq, hreq⟩ := timaTick_wrap h255
      have hk : 255 + (k + 1) - 256 = k := by omega
      rw [h255, hk]
      by_cases hpast : t.tma.toNat + k < 256
      · obtain ⟨h1, h2⟩ := timaTicks_below (t := timaTick t) (by rwa [htima])
        rw [h1, h2, htima, hreq, Nat.mod_eq_of_lt (by omega)]
        exact ⟨rfl, rfl⟩
      · obtain ⟨h1, h2⟩ := ih (t := timaTick t) (by rw [htima]; omega) (by rwa [htmaEq])
        rw [h1, h2, htima, htmaEq, mod_round (by omega) htma]
        exact ⟨rfl, rfl⟩
    · have := t.tima.isLt
      obtain ⟨htima, htmaEq, -⟩ := timaTick_step (t := t) (by omega)
      obtain ⟨h1, h2⟩ := ih (t := timaTick t) (by omega) (by rwa [htmaEq])
      rw [h1, h2, htima, htmaEq, Nat.add_right_comm]
      exact ⟨rfl, rfl⟩

/-! ### A run -/

theorem timerPeriod_pos (tac : BitVec 3) : 0 < timerPeriod tac := by revert tac; decide

theorem timerRun_off {t : Timer} (h : t.tac.getLsbD 2 = false) (n : Nat) :
    timerRun n t =
      t.withCounts (t.div + BitVec.ofNat 8 ((t.divAcc + n) / 256)) ((t.divAcc + n) % 256) t.timaAcc :=
  if_neg (Bool.eq_false_iff.1 h)

/-- An enabled run is as many increments as the counter's accumulator holds periods, and two remainders. -/
theorem timerRun_on {t : Timer} (h : t.tac.getLsbD 2 = true) (n : Nat) :
    timerRun n t =
      (timaTicks ((t.timaAcc + n) / timerPeriod t.tac) t).withCounts
        (t.div + BitVec.ofNat 8 ((t.divAcc + n) / 256)) ((t.divAcc + n) % 256)
        ((t.timaAcc + n) % timerPeriod t.tac) :=
  (if_pos h).trans (timaTicks_withCounts t _ _ _ _)

theorem timerRun_div_toNat (n : Nat) (t : Timer) :
    (timerRun n t).div.toNat = (t.div.toNat + (t.divAcc + n) / 256) % 256 := by
  have e : (timerRun n t).div = t.div + BitVec.ofNat 8 ((t.divAcc + n) / 256) := by
    cases h : t.tac.getLsbD 2
    · rw [timerRun_off h, Timer.withCounts_div]
    · rw [timerRun_on h, Timer.withCounts_div]
  rw [e, BitVec.toNat_add, BitVec.toNat_ofNat, Nat.add_mod_mod]

theorem timerRun_registers (n : Nat) (t : Timer) : (timerRun n t).tma = t.tma ∧ (timerRun n t).tac = t.tac := by
  cases h : t.tac.getLsbD 2
  · rw [timerRun_off h]; exact ⟨rfl, rfl⟩
  · rw [timerRun_on h, timaTicks_eq]; exact ⟨rfl, rfl⟩

/-- Settles O30: a run is the quotients and the remainders of the two accumulators, and the increments of `TIMA` by
whether they pass 0xFF. -/
theorem timerRunClosedForm : Obligations.TimerRunClosedForm := by
  intro n t period k r
  have hp : period = timerPeriod t.tac := by
    dsimp only [period]
    generalize t.tac = tac
    revert tac
    decide
  obtain ⟨htma, htac⟩ := timerRun_registers n t
  refine ⟨timerRun_div_toNat n t, timerRun_divAcc n t, htma, htac, fun h => ?_, fun h => ?_⟩
  · dsimp only [r]
    rw [timerRun_off h]
    exact ⟨rfl, rfl, rfl⟩
  · dsimp only [r, k]
    rw [timerRun_on h, hp]
    exact ⟨rfl, timaTicks_below, timaTicks_past⟩

/-! ### A run split in two -/

theorem add_div_split (a m n : Nat) {p : Nat} (hp : 0 < p) :
    (a + (m + n)) / p = (a + m) / p + ((a + m) % p + n) / p := by
  rw [← Nat.mul_add_div hp, ← Nat.add_assoc (p * _), Nat.div_add_mod, Nat.add_assoc]

theorem add_mod_split (a m n p : Nat) : (a + (m + n)) % p = ((a + m) % p + n) % p := by
  rw [Nat.mod_add_mod, Nat.add_assoc]

/-- Settles O31: the quotients of the two runs add up and the remainders carry over, in the divider and the counter. -/
theorem timerDependsOnSum : Obligations.TimerDependsOnSum := by
  intro m n t
  have hdiv := add_div_split t.divAcc m n (p := 256) (by decide)
  obtain ⟨-, htac⟩ := timerRun_registers m t
  cases h : t.tac.getLsbD 2
  · rw [timerRun_off h, timerRun_off (t := timerRun m t) (by rw [htac, h]), timerRun_off h,
      Timer.withCounts_withCounts, Timer.withCounts_div, Timer.withCounts_divAcc, Timer.withCounts_timaAcc, hdiv,
      add_mod_split, BitVec.ofNat_add, BitVec.add_assoc]
  · have hcount := add_div_split t.timaAcc m n (timerPeriod_pos t.tac)
    rw [timerRun_on h, timerRun_on (t := timerRun m t) (by rw [htac, h]), htac, timerRun_on h, timaTicks_withCounts,
      Timer.withCounts_withCounts, Timer.withCounts_div, Timer.withCounts_divAcc, Timer.withCounts_timaAcc, hdiv,
      hcount, add_mod_split, add_mod_split, timaTicks_add, BitVec.ofNat_add, BitVec.add_assoc]

end Sys2Proof.Machine
end

section
/-! The PPU over a frame (60 R400 to R411): the events of one cycle, the position, and what a run from the start of a
frame has requested and rendered. -/

namespace Sys2Proof.Machine

/-! ### The events of one cycle (60 R401, R407, R408) -/

theorem compareLine_reqStat (p : Ppu) :
    (compareLine p).reqStat = (p.reqStat || (decide (p.ly = p.lyc.toNat) && p.statArm.getLsbD 3)) := by
  unfold compareLine
  by_cases hl : p.ly = p.lyc.toNat <;> cases p.statArm.getLsbD 3 <;> simp [hl]

@[simp] theorem enterMode_reqVblank (m : PpuMode) (b : Nat) (p : Ppu) : (enterMode m b p).reqVblank = p.reqVblank := rfl
@[simp] theorem enterMode_reqStat (m : PpuMode) (b : Nat) (p : Ppu) :
    (enterMode m b p).reqStat = (p.reqStat || p.statArm.getLsbD b) := rfl

theorem compareLine_enterMode_reqStat (m : PpuMode) (b : Nat) (p : Ppu) :
    (compareLine (enterMode m b p)).reqStat =
      (p.reqStat || p.statArm.getLsbD b || (decide (p.ly = p.lyc.toNat) && p.statArm.getLsbD 3)) :=
  compareLine_reqStat _

/-- Within a mode and a line, a cycle makes no request. -/
theorem advanceDot_quiet {p : Ppu} (hdot : p.dot ≠ 455) (hblank : ¬ (p.ly < 144 ∧ p.dot = 251)) :
    (advanceDot p).reqStat = p.reqStat ∧ (advanceDot p).reqVblank = p.reqVblank := by
  unfold advanceDot
  dsimp only
  by_cases hl : p.ly < 144
  · rw [if_pos hl, if_neg (show ¬ p.dot + 1 = 252 by omega), if_neg (show ¬ p.dot + 1 = 456 by omega)]
    split <;> exact ⟨rfl, rfl⟩
  · rw [if_neg hl, if_neg (by omega)]
    exact ⟨rfl, rfl⟩

theorem advanceDot_hblank {p : Ppu} (hl : p.ly < 144) (hdot : p.dot = 251) :
    advanceDot p = enterMode .hblank 0 { p with dot := 252 } := by
  simp only [advanceDot, hdot, if_pos hl]
  rfl

section
variable {p : Ppu} (hdot : p.dot = 455)
include hdot

theorem advanceDot_visibleLine (hl : p.ly < 143) :
    advanceDot p = compareLine (enterMode .oamScan 2 { p with dot := 0, ly := p.ly + 1 }) := by
  simp (disch := omega) only [advanceDot, hdot, if_pos, if_neg, if_true]

theorem advanceDot_vblank (hl : p.ly = 143) :
    advanceDot p = compareLine (enterMode .vblank 1 { p with dot := 0, ly := p.ly + 1, reqVblank := true }) := by
  simp (disch := omega) only [advanceDot, hdot, hl, if_pos, if_neg, if_true]

theorem advanceDot_blankLine (hl : 144 ≤ p.ly) (hl' : p.ly ≠ 153) :
    advanceDot p = compareLine { p with dot := 0, ly := p.ly + 1 } := by
  simp (disch := omega) only [advanceDot, hdot, if_pos, if_neg, if_true]

theorem advanceDot_newFrame (hl : p.ly = 153) :
    advanceDot p = compareLine (enterMode .oamScan 2 { p with dot := 0, ly := 0 }) := by
  simp (disch := omega) only [advanceDot, hdot, hl, if_pos, if_neg, if_true]

end

/-- The events a cycle can be. -/
theorem advanceDot_events (p : Ppu) :
    (p.dot ≠ 455 ∧ ¬ (p.ly < 144 ∧ p.dot = 251)) ∨ (p.ly < 144 ∧ p.dot = 251) ∨
      (p.dot = 455 ∧ (p.ly < 143 ∨ p.ly = 143 ∨ (144 ≤ p.ly ∧ p.ly ≠ 153) ∨ p.ly = 153)) := by
  omega

/-- The VBlank request comes with the first cycle of line 144. -/
theorem advanceDot_reqVblank (p : Ppu) :
    (advanceDot p).reqVblank = (p.reqVblank || decide (p.ly = 143 ∧ p.dot = 455)) := by
  obtain ⟨hdot, hb⟩ | ⟨hl, hdot⟩ | ⟨hdot, hl | hl | ⟨hl, hl'⟩ | hl⟩ := advanceDot_events p
  · rw [(advanceDot_quiet hdot hb).2, decide_eq_false (by omega), Bool.or_false]
  · rw [advanceDot_hblank hl hdot, enterMode_reqVblank, decide_eq_false (by omega), Bool.or_false]
  · rw [advanceDot_visibleLine hdot hl, decide_eq_false (by omega), Bool.or_false]; simp
  · rw [advanceDot_vblank hdot hl, decide_eq_true ⟨hl, hdot⟩, Bool.or_true]; simp
  · rw [advanceDot_blankLine hdot hl hl', decide_eq_false (by omega), Bool.or_false]; simp
  · rw [advanceDot_newFrame hdot hl, decide_eq_false (by omega), Bool.or_false]; simp

/-- The STAT request of one cycle: none within a mode, and at a change of mode or line those of the event. -/
theorem advanceDot_reqStat {p : Ppu} (hl : p.ly < 154) :
    (advanceDot p).reqStat =
      (p.reqStat ||
        (decide (p.ly < 144 ∧ p.dot = 251) && p.statArm.getLsbD 0) ||
        (decide (p.ly = 143 ∧ p.dot = 455) && p.statArm.getLsbD 1) ||
        (decide (p.dot = 455 ∧ (p.ly < 143 ∨ p.ly = 153)) && p.statArm.getLsbD 2) ||
        (decide (p.dot = 455 ∧ (if p.ly = 153 then 0 else p.ly + 1) = p.lyc.toNat) && p.statArm.getLsbD 3)) := by
  obtain ⟨hdot, hb⟩ | ⟨hl, hdot⟩ | ⟨hdot, hl | hl | ⟨hl, hl'⟩ | hl⟩ := advanceDot_events p
  · rw [(advanceDot_quiet hdot hb).1]
    simp (disch := omega) only [decide_eq_false, Bool.false_and, Bool.or_false]
  · rw [advanceDot_hblank hl hdot]
    simp (disch := omega) only [enterMode_reqStat, decide_eq_true, decide_eq_false, Bool.true_and, Bool.false_and,
      Bool.or_false]
  · rw [advanceDot_visibleLine hdot hl, if_neg (by omega)]
    simp (disch := omega) only [compareLine_enterMode_reqStat, hdot, true_and, decide_eq_true, decide_eq_false,
      Bool.true_and, Bool.false_and, Bool.or_false]
  · rw [advanceDot_vblank hdot hl, if_neg (by omega), decide_eq_true (And.intro hl hdot)]
    simp (disch := omega) only [compareLine_enterMode_reqStat, hdot, true_and, decide_eq_false, Bool.true_and,
      Bool.false_and, Bool.or_false]
  · rw [advanceDot_blankLine hdot hl hl', if_neg hl']
    simp (disch := omega) only [compareLine_reqStat, hdot, true_and, decide_eq_false, Bool.false_and, Bool.or_false]
  · rw [advanceDot_newFrame hdot hl, if_pos hl]
    simp (disch := omega) only [compareLine_enterMode_reqStat, hdot, true_and, decide_eq_true, decide_eq_false,
      Bool.true_and, Bool.false_and, Bool.or_false]

/-- Settles O33: the requests of one cycle, and that a cycle changes the position, the mode and the requests only. -/
theorem statEvents : Obligations.StatEvents := by
  intro p hon hin line'
  rw [Ppu.inPlace, if_pos hon] at hin
  obtain ⟨hl, -⟩ := hin
  exact ⟨advanceDot_reqStat hl, advanceDot_reqVblank p, advanceDot_eq p⟩

/-! ### The position (60 R410) -/

theorem position_lt {p : Ppu} (hon : bitOf p.lcdc 7 = true) (hin : p.inPlace) : p.position < 70224 := by
  rw [Ppu.inPlace, if_pos hon] at hin
  obtain ⟨hl, hd, -⟩ := hin
  unfold Ppu.position
  omega

theorem advanceDot_position_mod {p : Ppu} (hon : bitOf p.lcdc 7 = true) (hin : p.inPlace) :
    (advanceDot p).position = (p.position + 1) % 70224 := by
  rw [Ppu.inPlace, if_pos hon] at hin
  obtain ⟨hl, hd, -⟩ := hin
  obtain ⟨hdot, hly⟩ := advanceDot_position hl
  unfold Ppu.position
  rw [hdot, hly]
  by_cases hend : p.dot = 455
  · by_cases hlast : p.ly = 153
    · rw [if_pos hend, if_pos hlast, if_pos hend, hend, hlast]
    · rw [if_pos hend, if_pos hend, if_neg hlast, hend, Nat.mod_eq_of_lt (by omega)]
      omega
  · rw [if_neg hend, if_neg hend, Nat.mod_eq_of_lt (by omega)]
    omega

/-- With the LCD on, the position advances by 1 with every cycle, modulo the length of a frame. -/
theorem ppuTicks_position (k : Nat) {s : State} (hon : bitOf s.ppu.lcdc 7 = true) (hin : s.ppu.inPlace) :
    (ppuTicks k s).ppu.position = (s.ppu.position + k) % 70224 := by
  induction k generalizing s with
  | zero => rw [Nat.add_zero, Nat.mod_eq_of_lt (position_lt hon hin)]; rfl
  | succ k ih =>
    have htick := ppuTick_ppu s
    rw [ppuTicks, ih (by rwa [htick, advanceDot_lcdc]) (by rw [htick]; exact advanceDot_inPlace hon hin), htick,
      advanceDot_position_mod hon hin, Nat.mod_add_mod, Nat.add_assoc, Nat.add_comm 1]

/-! ### A run from the start of a frame -/

/-- The last cycle of a run. -/
theorem ppuTicks_succ (k : Nat) (s : State) : ppuTicks (k + 1) s = ppuTick (ppuTicks k s) := ppuTicks_add k 1 s

/-- A run changes, of the PPU, the position, the mode and the requests only. -/
theorem ppuTicks_ppu_eq (k : Nat) (s : State) :
    (ppuTicks k s).ppu =
      { s.ppu with
        ly := (ppuTicks k s).ppu.ly, dot := (ppuTicks k s).ppu.dot, mode := (ppuTicks k s).ppu.mode
        reqStat := (ppuTicks k s).ppu.reqStat, reqVblank := (ppuTicks k s).ppu.reqVblank } := by
  induction k with
  | zero => rfl
  | succ k ih =>
    rw [ppuTicks_succ, ppuTick_ppu, advanceDot_eq]
    generalize advanceDot (ppuTicks k s).ppu = q
    rw [ih]

/-- A line is composed from memory, the parameters and the PPU registers that a run does not change. -/
theorem composeLine_run (s : State) (ly dot : Nat) (mode : PpuMode) (reqStat reqVblank : Bool) (fb : PixelBuffer)
    (y : Nat) :
    composeLine
      { s with
        ppu := { s.ppu with ly := ly, dot := dot, mode := mode, reqStat := reqStat, reqVblank := reqVblank }, fb := fb }
      y = composeLine s y := rfl

/-- The pixel buffer after a cycle: the line is rendered at its entry into Pixel-Transfer (60 R401). -/
theorem ppuTick_line (s : State) (y : Nat) :
    (ppuTick s).fb.line y =
      if s.ppu.ly < 144 ∧ s.ppu.dot + 1 = 80 ∧ s.ppu.ly = y then composeLine (s.withPpu (advanceDot s.ppu)) y
      else s.fb.line y := by
  unfold ppuTick
  dsimp only
  by_cases h : s.ppu.ly < 144 ∧ s.ppu.dot + 1 = 80
  · rw [if_pos h, renderLine, State.withFb_fb, PixelBuffer.line_setLine, State.withPpu_fb]
    by_cases hy : s.ppu.ly = y
    · rw [if_pos hy, if_pos ⟨h.1, h.2, hy⟩, hy]
    · rw [if_neg hy, if_neg fun ⟨_, _, hy'⟩ => hy hy']
  · rw [if_neg h, if_neg fun ⟨hl, hd, _⟩ => h ⟨hl, hd⟩]
    rfl

section
variable {s : State} (hon : bitOf s.ppu.lcdc 7 = true) (hin : s.ppu.inPlace) (h0 : s.ppu.position = 0)
include hon hin h0

/-- From the start of a frame the line and the dot are the quotient and the remainder of the cycles. -/
theorem frame_position {k : Nat} (hk : k < 70224) :
    (ppuTicks k s).ppu.ly * 456 + (ppuTicks k s).ppu.dot = k ∧ (ppuTicks k s).ppu.dot < 456 := by
  have hpos := ppuTicks_position k hon hin
  rw [h0, Nat.zero_add, Nat.mod_eq_of_lt hk] at hpos
  obtain ⟨hplace, hlcdc⟩ := ppuTicks_inPlace k hon hin
  rw [Ppu.inPlace, if_pos (by rwa [hlcdc])] at hplace
  obtain ⟨-, hdot, -⟩ := hplace
  exact ⟨hpos, hdot⟩

theorem frame_reqVblank (hreq : s.ppu.reqVblank = false) {k : Nat} (hk : k ≤ 70224) :
    (ppuTicks k s).ppu.reqVblank = decide (65664 ≤ k) := by
  induction k with
  | zero => exact hreq
  | succ k ih =>
    obtain ⟨hpos, hdot⟩ := frame_position hon hin h0 (k := k) (by omega)
    rw [ppuTicks_succ, ppuTick_ppu, advanceDot_reqVblank, ih (by omega), ← Bool.decide_or]
    exact decide_eq_decide.2 (by omega)

theorem frame_line {k y : Nat} (hk : k ≤ 70224) (hy : y < 144) :
    (ppuTicks k s).fb.line y = if 456 * y + 80 ≤ k then composeLine s y else s.fb.line y := by
  induction k with
  | zero => rw [if_neg (by omega)]; rfl
  | succ k ih =>
    obtain ⟨hpos, hdot⟩ := frame_position hon hin h0 (k := k) (by omega)
    have hcompose : composeLine ((ppuTicks k s).withPpu (advanceDot (ppuTicks k s).ppu)) y = composeLine s y := by
      rw [ppuTicks_eq, advanceDot_eq, ppuTicks_ppu_eq]
      exact composeLine_run ..
    rw [ppuTicks_succ, ppuTick_line, ih (by omega), hcompose]
    by_cases h : k = 456 * y + 79
    · rw [if_pos (by omega), if_pos (by omega)]
    · rw [if_neg (by omega)]
      exact if_congr (by omega) rfl rfl

end

/-- Settles O32: by the position, every cycle of a frame has its line and its dot. -/
theorem frameLaw : Obligations.FrameLaw :=
  ⟨fun k _ hon hin => ⟨ppuTicks_position k hon hin, (ppuTicks_inPlace k hon hin).1⟩,
    fun _ hon hin h0 => ⟨fun _ hk hreq => frame_reqVblank hon hin h0 hreq hk,
      fun _ hk _ hy => frame_line hon hin h0 hk hy⟩⟩

end Sys2Proof.Machine
end

section
/-! The sprites of a line (60 R426, R427): which are selected, and the order in which they are drawn. -/

namespace Sys2Proof.Machine

/-! ### Selection -/

/-- The entries of OAM that a line can show, in OAM order. -/
def spritesOnLine (s : State) (ly : Nat) : List Sprite :=
  ((List.range 40).map (oamEntry s.mem)).filter (spriteOnLine (spriteHeight s.ppu.lcdc) ly)

theorem mem_spritesOnLine {s : State} {ly : Nat} {sp : Sprite} :
    sp ∈ spritesOnLine s ly ↔
      ∃ i < 40, oamEntry s.mem i = sp ∧ spriteOnLine (spriteHeight s.ppu.lcdc) ly sp = true := by
  simp only [spritesOnLine, List.mem_filter, List.mem_map, List.mem_range]
  exact ⟨fun ⟨⟨i, hi, he⟩, h⟩ => ⟨i, hi, he, h⟩, fun ⟨i, hi, he, h⟩ => ⟨⟨i, hi, he⟩, h⟩⟩

theorem spriteOnLine_iff {h ly : Nat} {sp : Sprite} :
    spriteOnLine h ly sp = true ↔ sp.y ≤ ly + 16 ∧ ly + 16 < sp.y + h ∧ 1 ≤ sp.x ∧ sp.x ≤ 167 := by
  simp only [spriteOnLine, Bool.and_eq_true, decide_eq_true_eq, and_assoc]

/-- The indices of OAM entries in OAM order rise. -/
theorem spritesOnLine_pairwise (s : State) (ly : Nat) :
    (spritesOnLine s ly).Pairwise fun u v => u.index < v.index := by
  refine List.Pairwise.filter _ (List.pairwise_map.2 ?_)
  exact List.pairwise_lt_range

/-- Settles O34: of the entries on the line the first ten are taken, so that one left behind has ten before it. -/
theorem spriteSelection : Obligations.SpriteSelection := by
  intro s ly h matching l
  have hsplit : l ++ (spritesOnLine s ly).drop 10 = spritesOnLine s ly := List.take_append_drop 10 _
  have hmatch (i : Nat) : matching i ↔ spriteOnLine (spriteHeight s.ppu.lcdc) ly (oamEntry s.mem i) = true :=
    (spriteOnLine_iff (sp := oamEntry s.mem i)).symm
  have hsorted := spritesOnLine_pairwise s ly
  rw [← hsplit, List.pairwise_append] at hsorted
  obtain ⟨hl, -, hbefore⟩ := hsorted
  refine ⟨fun _ => rfl, List.length_take_le 10 _, List.pairwise_map.2 hl, fun sp hsp => ?_, fun i hi hm => ?_⟩
  · obtain ⟨i, hi, rfl, hline⟩ := mem_spritesOnLine.1 (List.mem_of_mem_take hsp)
    exact ⟨hi, rfl, (hmatch i).2 hline⟩
  · have hmem : oamEntry s.mem i ∈ l ++ (spritesOnLine s ly).drop 10 := by
      rw [hsplit]
      exact mem_spritesOnLine.2 ⟨i, hi, rfl, (hmatch i).1 hm⟩
    refine (List.mem_append.1 hmem).imp_right fun hdrop => ⟨?_, fun sp hsp => hbefore sp hsp _ hdrop⟩
    have hlen : 0 < ((spritesOnLine s ly).drop 10).length := List.length_pos_of_mem hdrop
    rw [List.length_drop] at hlen
    exact List.length_take_of_le (l := spritesOnLine s ly) (by omega)

/-! ### Drawing order -/

/-- The order of drawing (60 R427). -/
def DrawnBefore (u v : Sprite) : Prop := u.x < v.x ∨ (u.x = v.x ∧ v.index < u.index)

theorem drawnBefore_iff {u v : Sprite} : drawnBefore u v = true ↔ DrawnBefore u v := by
  simp [drawnBefore, DrawnBefore]

theorem DrawnBefore.trans {u v w : Sprite} (h : DrawnBefore u v) (h' : DrawnBefore v w) : DrawnBefore u w := by
  unfold DrawnBefore at *
  omega

/-- Of two sprites with distinct indices one is drawn before the other. -/
theorem DrawnBefore.of_not {u v : Sprite} (h : ¬ DrawnBefore u v) (hne : u.index ≠ v.index) : DrawnBefore v u := by
  unfold DrawnBefore at *
  omega

theorem insertForDraw_perm (sp : Sprite) (l : List Sprite) : (insertForDraw sp l).Perm (sp :: l) := by
  induction l with
  | nil => exact .refl _
  | cons q rest ih =>
    unfold insertForDraw
    split
    · exact .refl _
    · exact (ih.cons q).trans (.swap sp q rest)

/-- A sprite with an index of its own goes to its place. -/
theorem insertForDraw_pairwise {sp : Sprite} {l : List Sprite} (hl : l.Pairwise DrawnBefore)
    (hne : ∀ q ∈ l, sp.index ≠ q.index) : (insertForDraw sp l).Pairwise DrawnBefore := by
  induction l with
  | nil => exact List.pairwise_singleton _ _
  | cons q rest ih =>
    obtain ⟨hq, hrest⟩ := List.pairwise_cons.1 hl
    unfold insertForDraw
    split
    next h =>
      have hsp := drawnBefore_iff.1 h
      exact List.pairwise_cons.2 ⟨List.forall_mem_cons.2 ⟨hsp, fun r hr => hsp.trans (hq r hr)⟩, hl⟩
    next h =>
      have hsp : DrawnBefore q sp := .of_not (mt drawnBefore_iff.2 h) (hne q List.mem_cons_self)
      refine List.pairwise_cons.2 ⟨fun r hr => ?_, ih hrest fun r hr => hne r (List.mem_cons_of_mem q hr)⟩
      obtain rfl | hr := List.mem_cons.1 ((insertForDraw_perm sp rest).mem_iff.1 hr)
      · exact hsp
      · exact hq r hr

theorem sortForDraw_perm (l : List Sprite) : (sortForDraw l).Perm l := by
  induction l with
  | nil => exact .refl _
  | cons sp rest ih => exact (insertForDraw_perm sp _).trans (ih.cons sp)

theorem sortForDraw_pairwise {l : List Sprite} (h : (l.map Sprite.index).Nodup) :
    (sortForDraw l).Pairwise DrawnBefore := by
  induction l with
  | nil => exact .nil
  | cons sp rest ih =>
    obtain ⟨hsp, hrest⟩ := List.nodup_cons.1 h
    refine insertForDraw_pairwise (ih hrest) fun q hq he => hsp ?_
    rw [he]
    exact List.mem_map_of_mem ((sortForDraw_perm rest).mem_iff.1 hq)

/-- Settles O35: an insertion sort, by an order that is total on sprites with distinct indices. -/
theorem spriteDrawOrder : Obligations.SpriteDrawOrder :=
  fun l h => ⟨sortForDraw_perm l, sortForDraw_pairwise h⟩

end Sys2Proof.Machine
end

section
/-! The layers of a line (60 R420 to R430): background, window and sprite at one column, and which of them shows. -/

namespace Sys2Proof.Machine

/-! ### Palettes and planes of tiles -/

/-- A palette gives a colour number two of its bits (60 R424). -/
theorem paletteShade_toNat (palette : Byte) (c : Shade) :
    (paletteShade palette c).toNat = palette.toNat / 4 ^ c.toNat % 4 := by
  rw [paletteShade, BitVec.extractLsb'_toNat, BitVec.toNat_ushiftRight, Nat.shiftRight_zero,
    Nat.shiftRight_eq_div_pow, Nat.pow_mul]

/-- A column drawn from a plane of tiles through `BGP`. -/
def planeColumn (s : State) (map px py : Nat) : Column :=
  { shade := paletteShade s.ppu.bgp (tilePixel s.mem s.ppu.lcdc map px py)
    bgcol := tilePixel s.mem s.ppu.lcdc map px py }

theorem planeColumn_drawn (s : State) (map px py : Nat) :
    (planeColumn s map px py).bgcol.toNat = planeColour s map px py ∧
      (planeColumn s map px py).shade = paletteShade s.ppu.bgp (planeColumn s map px py).bgcol :=
  ⟨tilePixel_toNat s map px py, rfl⟩

theorem backgroundColumn_on {s : State} (h : s.ppu.lcdc.getLsbD 0 = true) (ly x : Nat) :
    backgroundColumn s ly x =
      planeColumn s (if s.ppu.lcdc.getLsbD 3 then 0x9C00 else 0x9800) ((x + s.ppu.scx.toNat) % 256)
        ((ly + s.ppu.scy.toNat) % 256) := if_pos h

theorem backgroundColumn_off {s : State} (h : s.ppu.lcdc.getLsbD 0 = false) (ly x : Nat) :
    backgroundColumn s ly x = { shade := 0, bgcol := 0 } := if_neg (Bool.eq_false_iff.1 h)

/-- The window is enabled, has begun and covers the column (60 R420, R425). -/
def WindowCovers (s : State) (ly x : Nat) : Prop :=
  s.ppu.lcdc.getLsbD 5 = true ∧ s.ppu.wy.toNat ≤ ly ∧ windowX0 s.cfg.winX0 s.ppu.wx ≤ (x : Int)

theorem windowColumn_on {s : State} {ly x : Nat} (h : WindowCovers s ly x) (below : Column) :
    windowColumn s ly x below =
      planeColumn s (if s.ppu.lcdc.getLsbD 6 then 0x9C00 else 0x9800)
        ((x : Int) - windowX0 s.cfg.winX0 s.ppu.wx).toNat (ly - s.ppu.wy.toNat) := if_pos h

theorem windowColumn_off {s : State} {ly x : Nat} (h : ¬ WindowCovers s ly x) (below : Column) :
    windowColumn s ly x below = below := if_neg h

/-! ### Sprites -/

/-- The row of a sprite `h` rows high that a line shows, with its vertical flip (60 R428). -/
def spriteRow (h ly : Nat) (sp : Sprite) : Nat :=
  if sp.flags.getLsbD 6 then h - 1 - (ly + 16 - sp.y) else ly + 16 - sp.y

/-- The tile that holds a row of a sprite (60 R429). -/
def spriteTile (h row : Nat) (tile : Byte) : Nat :=
  if h = 16 then (tile &&& 0xFE).toNat ||| row / 8 else tile.toNat

theorem spriteColour_eq (s : State) (ly x : Nat) (sp : Sprite) :
    spriteColour s ly x sp =
      tileRowPixel s.mem
        (0x8000 + spriteTile (spriteHeight s.ppu.lcdc) (spriteRow (spriteHeight s.ppu.lcdc) ly sp) sp.tile * 16)
        (spriteRow (spriteHeight s.ppu.lcdc) ly sp % 8)
        (if sp.flags.getLsbD 5 then x + 8 - sp.x else 7 - (x + 8 - sp.x)) := rfl

theorem spriteRow_lt {h ly : Nat} {sp : Sprite} (hy : sp.y ≤ ly + 16) (hy' : ly + 16 < sp.y + h) :
    spriteRow h ly sp < h := by
  unfold spriteRow
  split <;> omega

/-- The tile of a pair: the even one for the upper half, the odd one for the lower. -/
theorem pairTile (tile : Byte) {half : Nat} (h : half < 2) :
    (tile &&& 0xFE).toNat ||| half = tile.toNat / 2 * 2 + half := by
  have heven : (tile &&& 0xFE).toNat = 2 ^ 1 * (tile.toNat / 2) := by
    have hsplit : (tile &&& 0xFE).toNat + (tile &&& 1).toNat = tile.toNat := and_not_toNat_add_and tile 1
    have hlow : (tile &&& 1).toNat = tile.toNat % 2 := Nat.and_one_is_mod tile.toNat
    omega
  rw [heven, ← Nat.two_pow_add_eq_or_of_lt h, Nat.mul_comm]

theorem spriteTile_eq {lcdc : Byte} {row : Nat} (h : row < spriteHeight lcdc) (tile : Byte) :
    spriteTile (spriteHeight lcdc) row tile =
      if lcdc.getLsbD 2 then tile.toNat / 2 * 2 + row / 8 else tile.toNat := by
  unfold spriteTile spriteHeight bitOf at *
  cases hsize : lcdc.getLsbD 2
  · rfl
  · rw [hsize, if_pos rfl] at h
    exact pairTile tile (by omega)

/-- The colour number of a sprite's pixel, with its flips and, 16 rows high, its pair of tiles (60 R428, R429). -/
theorem spriteColour_toNat {s : State} {ly x : Nat} {sp : Sprite} (hy : sp.y ≤ ly + 16)
    (hy' : ly + 16 < sp.y + spriteHeight s.ppu.lcdc) (hx : sp.x ≤ x + 8) (hx' : x < sp.x) :
    let row := spriteRow (spriteHeight s.ppu.lcdc) ly sp
    let tile := if s.ppu.lcdc.getLsbD 2 then sp.tile.toNat / 2 * 2 + row / 8 else sp.tile.toNat
    let k := x + 8 - sp.x
    (spriteColour s ly x sp).toNat =
      rowColour s.mem (0x8000 + 16 * tile + 2 * (row % 8)) (if sp.flags.getLsbD 5 then 7 - k else k) := by
  intro row tile k
  have hk : k < 8 := by omega
  have hbit : 7 - (if sp.flags.getLsbD 5 then k else 7 - k) = if sp.flags.getLsbD 5 then 7 - k else k := by
    split <;> omega
  rw [spriteColour_eq, spriteTile_eq (spriteRow_lt hy hy'), tileRowPixel_toNat _ _ _ (by split <;> omega), hbit,
    Nat.mul_comm _ 16]

/-! ### Priority -/

/-- A sprite shows at a column over a background or window colour number (60 R428). -/
def SpriteShows (s : State) (ly x : Nat) (bgcol : Shade) (sp : Sprite) : Prop :=
  sp.x ≤ x + 8 ∧ x < sp.x ∧ spriteColour s ly x sp ≠ 0 ∧ (sp.flags.getLsbD 7 = true → bgcol = 0)

theorem spriteColumn_of_shows {s : State} {ly x : Nat} {c : Column} {sp : Sprite}
    (h : SpriteShows s ly x c.bgcol sp) :
    spriteColumn s ly x c sp =
      { c with
        shade := paletteShade (if sp.flags.getLsbD 4 then s.ppu.obp1 else s.ppu.obp0) (spriteColour s ly x sp) } := by
  obtain ⟨hx, hx', hc, hb⟩ := h
  unfold spriteColumn
  rw [if_pos (by omega)]
  exact if_neg fun h => h.elim hc fun ⟨hf, hne⟩ => hne (hb hf)

theorem spriteColumn_of_not_shows {s : State} {ly x : Nat} {c : Column} {sp : Sprite}
    (h : ¬ SpriteShows s ly x c.bgcol sp) : spriteColumn s ly x c sp = c := by
  unfold spriteColumn
  split
  next hx =>
    refine if_pos (Classical.not_not.1 fun hn => h ?_)
    rw [not_or, not_and_not_right] at hn
    exact ⟨hx.1, by omega, hn.1, hn.2⟩
  · rfl

/-- Sprites change the shade of a column and not its background colour number. -/
theorem spriteColumn_bgcol (s : State) (ly x : Nat) (c : Column) (sp : Sprite) :
    (spriteColumn s ly x c sp).bgcol = c.bgcol := by
  by_cases h : SpriteShows s ly x c.bgcol sp
  · rw [spriteColumn_of_shows h]
  · rw [spriteColumn_of_not_shows h]

theorem foldl_spriteColumn_bgcol (s : State) (ly x : Nat) (l : List Sprite) (c : Column) :
    (l.foldl (spriteColumn s ly x) c).bgcol = c.bgcol := by
  induction l generalizing c with
  | nil => rfl
  | cons sp rest ih => exact (ih _).trans (spriteColumn_bgcol s ly x c sp)

/-- Sprites none of which shows change nothing. -/
theorem foldl_spriteColumn_hidden {s : State} {ly x : Nat} {l : List Sprite} {c : Column}
    (h : ∀ q ∈ l, ¬ SpriteShows s ly x c.bgcol q) : l.foldl (spriteColumn s ly x) c = c := by
  induction l with
  | nil => rfl
  | cons sp rest ih =>
    obtain ⟨hsp, hrest⟩ := List.forall_mem_cons.1 h
    rw [List.foldl_cons, spriteColumn_of_not_shows hsp, ih hrest]

/-- The last-drawn sprite that shows gives the shade (60 R430). -/
theorem foldl_spriteColumn_last {s : State} {ly x : Nat} {l1 l2 : List Sprite} {sp : Sprite} {c : Column}
    (hsp : SpriteShows s ly x c.bgcol sp) (h2 : ∀ q ∈ l2, ¬ SpriteShows s ly x c.bgcol q) :
    ((l1 ++ sp :: l2).foldl (spriteColumn s ly x) c).shade =
      paletteShade (if sp.flags.getLsbD 4 then s.ppu.obp1 else s.ppu.obp0) (spriteColour s ly x sp) := by
  have h1 := foldl_spriteColumn_bgcol s ly x l1 c
  rw [List.foldl_append, List.foldl_cons, foldl_spriteColumn_hidden, spriteColumn_of_shows (by rwa [h1])]
  rwa [spriteColumn_bgcol, h1]

/-- Settles O36: each layer is its plane or its pixel, and the fold over the sprites keeps the background's colour
number, so that the last one to show gives the shade. -/
theorem layerPriority : Obligations.LayerPriority := by
  refine ⟨paletteShade_toNat, fun s ly x => ?_⟩
  intro p drawn left covered h under shows
  have hleft : left = windowX0 s.cfg.winX0 s.ppu.wx := rfl
  have hcovered : covered ↔ WindowCovers s ly x := by
    unfold WindowCovers
    rw [← hleft]
  refine ⟨fun hoff => backgroundColumn_off hoff ly x, fun hon => ?background,
    fun below => ⟨fun hc => ?beside, fun hc => ?window⟩, fun sp hy hy' hx hx' => spriteColour_toNat hy hy' hx hx',
    fun l1 sp l2 hsp h2 => foldl_spriteColumn_last hsp h2,
    fun l hl => congrArg Column.shade (foldl_spriteColumn_hidden hl)⟩
  case background =>
    rw [backgroundColumn_on hon]
    exact planeColumn_drawn s _ _ _
  case beside => exact windowColumn_off (mt hcovered.2 hc) below
  case window =>
    rw [windowColumn_on (hcovered.1 hc), hleft]
    exact planeColumn_drawn s _ _ _

end Sys2Proof.Machine
end

section
/-! A rendered line (60 R420, R432): what it writes, the colours of its pixels, and the bytes of video RAM and OAM it
depends on (20 R121). -/

namespace Sys2Proof.Machine

/-! ### Colours (60 R432) -/

/-- The colours of the four shades. -/
def shadeColours (t : ShadeRgb) : List Rgb := [t.shade0, t.shade1, t.shade2, t.shade3]

theorem shadeColours_getElem? (t : ShadeRgb) (c : Shade) : (shadeColours t)[c.toNat]? = some (shadeRgb t c) := by
  have h : c = 0 ∨ c = 1 ∨ c = 2 ∨ c = 3 := by revert c; decide
  obtain rfl | rfl | rfl | rfl := h
  all_goals rfl

theorem shadeRgb_injective {t : ShadeRgb} {c d : Shade} (h : shadeRgb t c = shadeRgb t d) : c = d := by
  have hc : c.toNat < (shadeColours t).length := c.isLt
  have hcolours : (shadeColours t)[c.toNat]? = (shadeColours t)[d.toNat]? := by
    rw [shadeColours_getElem?, shadeColours_getElem?, h]
  exact BitVec.eq_of_toNat_eq ((List.getElem?_inj hc t.injective).1 hcolours)

theorem composeLine_getElem? (s : State) (y : Nat) {x : Nat} (h : x < 160) :
    (composeLine s y)[x]? = some (shadeRgb s.cfg.shadeRgb (columnShade s y (spritesToDraw s y) x)) := by
  simp [composeLine, h]

/-! ### What a line depends on (20 R121, 60 R422) -/

/-- A storage address of video RAM or OAM. -/
def IsVideo (k : Nat) : Prop := (0x8000 ≤ k ∧ k < 0xA000) ∨ (0xFE00 ≤ k ∧ k < 0xFEA0)

section
variable {s : State} {m : Memory} (h : ∀ k, IsVideo k → m.get k = s.mem.get k)
include h

/-- The rows of the 384 tiles are in video RAM. -/
theorem tileRowPixel_congr {base row : Nat} (hbase : 0x8000 ≤ base) (hbase' : base + 16 ≤ 0xA000) (hrow : row < 8)
    (bit : Nat) : tileRowPixel m base row bit = tileRowPixel s.mem base row bit := by
  unfold tileRowPixel
  rw [h _ (.inl ⟨by omega, by omega⟩), h _ (.inl ⟨by omega, by omega⟩)]

omit h in
theorem tileBase_bounds (lcdc idx : Byte) : 0x8000 ≤ tileBase lcdc idx ∧ tileBase lcdc idx + 16 ≤ 0x9800 := by
  have := idx.isLt
  have := BitVec.toInt_eq_toNat_cond idx
  unfold tileBase
  split
  · omega
  · split at this <;> omega

/-- The pixels of a plane of 256 columns and rows are in video RAM. -/
theorem tilePixel_congr {map px py : Nat} (hmap : 0x9800 ≤ map) (hmap' : map ≤ 0x9C00) (hx : px < 256) (hy : py < 256)
    (lcdc : Byte) : tilePixel m lcdc map px py = tilePixel s.mem lcdc map px py := by
  unfold tilePixel
  rw [h (map + py / 8 * 32 + px / 8) (.inl ⟨by omega, by omega⟩)]
  obtain ⟨hb, hb'⟩ := tileBase_bounds lcdc (s.mem.get (map + py / 8 * 32 + px / 8))
  exact tileRowPixel_congr h hb (by omega) (Nat.mod_lt _ (by decide)) _

omit h in
theorem mapBase_bounds (select : Bool) : 0x9800 ≤ mapBase select ∧ mapBase select ≤ 0x9C00 := by
  cases select <;> decide

theorem backgroundColumn_congr (ly x : Nat) : backgroundColumn (s.withMem m) ly x = backgroundColumn s ly x := by
  obtain ⟨hm, hm'⟩ := mapBase_bounds (bitOf s.ppu.lcdc 3)
  have hpixel := tilePixel_congr h hm hm' (Nat.mod_lt (x + s.ppu.scx.toNat) (y := 256) (by decide))
    (Nat.mod_lt (ly + s.ppu.scy.toNat) (y := 256) (by decide)) s.ppu.lcdc
  simp only [backgroundColumn, State.withMem_ppu, State.withMem_mem, hpixel]

theorem windowColumn_congr {ly x : Nat} (hy : ly < 144) (hx : x < 160) (below : Column) :
    windowColumn (s.withMem m) ly x below = windowColumn s ly x below := by
  have hleft : -7 ≤ windowX0 s.cfg.winX0 s.ppu.wx := by
    cases s.cfg.winX0 <;> simp only [windowX0] <;> omega
  obtain ⟨hm, hm'⟩ := mapBase_bounds (bitOf s.ppu.lcdc 6)
  have hpixel := tilePixel_congr h hm hm' (px := ((x : Int) - windowX0 s.cfg.winX0 s.ppu.wx).toNat)
    (py := ly - s.ppu.wy.toNat) (by omega) (by omega) s.ppu.lcdc
  simp only [windowColumn, State.withMem_ppu, State.withMem_mem, State.withMem_cfg, hpixel]

omit h in
theorem spriteTile_lt {lcdc : Byte} {row : Nat} (h : row < spriteHeight lcdc) (tile : Byte) :
    spriteTile (spriteHeight lcdc) row tile < 256 := by
  have hrow : row < 16 := by unfold spriteHeight at h; split at h <;> omega
  have := tile.isLt
  rw [spriteTile_eq h]
  split <;> omega

/-- The pixels of a sprite on the line are in video RAM. -/
theorem spriteColumn_congr {ly x : Nat} {sp : Sprite} (hsp : spriteOnLine (spriteHeight s.ppu.lcdc) ly sp = true)
    (c : Column) : spriteColumn (s.withMem m) ly x c sp = spriteColumn s ly x c sp := by
  obtain ⟨hy, hy', -⟩ := spriteOnLine_iff.1 hsp
  have htile := spriteTile_lt (spriteRow_lt hy hy') sp.tile
  have hcolour : spriteColour (s.withMem m) ly x sp = spriteColour s ly x sp := by
    rw [spriteColour_eq, spriteColour_eq, State.withMem_ppu, State.withMem_mem]
    exact tileRowPixel_congr h (by omega) (by omega) (Nat.mod_lt _ (by decide)) _
  simp only [spriteColumn, hcolour, State.withMem_ppu]

theorem oamEntry_congr {i : Nat} (hi : i < 40) : oamEntry m i = oamEntry s.mem i := by
  unfold oamEntry
  rw [h (0xFE00 + 4 * i) (.inr ⟨by omega, by omega⟩), h (0xFE00 + 4 * i + 1) (.inr ⟨by omega, by omega⟩),
    h (0xFE00 + 4 * i + 2) (.inr ⟨by omega, by omega⟩), h (0xFE00 + 4 * i + 3) (.inr ⟨by omega, by omega⟩)]

theorem spritesToDraw_congr (ly : Nat) : spritesToDraw (s.withMem m) ly = spritesToDraw s ly := by
  have hoam : (List.range 40).map (oamEntry m) = (List.range 40).map (oamEntry s.mem) :=
    List.map_congr_left fun i hi => oamEntry_congr h (List.mem_range.1 hi)
  simp only [spritesToDraw, selectSprites, State.withMem_ppu, State.withMem_mem, hoam]

omit h in
theorem spriteOnLine_of_mem_spritesToDraw {ly : Nat} {sp : Sprite} (hsp : sp ∈ spritesToDraw s ly) :
    spriteOnLine (spriteHeight s.ppu.lcdc) ly sp = true := by
  unfold spritesToDraw at hsp
  split at hsp
  · have hmem := List.mem_of_mem_take ((sortForDraw_perm (selectSprites s ly)).mem_iff.1 hsp)
    obtain ⟨_, _, _, hline⟩ := mem_spritesOnLine.1 hmem
    exact hline
  · cases hsp

theorem columnShade_congr {ly x : Nat} (hy : ly < 144) (hx : x < 160) {l : List Sprite}
    (hl : ∀ sp ∈ l, spriteOnLine (spriteHeight s.ppu.lcdc) ly sp = true) :
    columnShade (s.withMem m) ly l x = columnShade s ly l x := by
  unfold columnShade
  rw [backgroundColumn_congr h, windowColumn_congr h hy hx,
    List.foldl_ext _ _ _ fun c sp hsp => spriteColumn_congr h (hl sp hsp) c]

theorem composeLine_congr {y : Nat} (hy : y < 144) : composeLine (s.withMem m) y = composeLine s y := by
  unfold composeLine
  dsimp only
  rw [spritesToDraw_congr h]
  refine List.map_congr_left fun x hx => congrArg (shadeRgb s.cfg.shadeRgb) ?_
  exact columnShade_congr h hy (List.mem_range.1 hx) fun sp => spriteOnLine_of_mem_spritesToDraw

end

/-- Settles O37: the line written is the composed one, pixel by pixel a colour of its shade, and every byte a layer
reads is of video RAM or OAM. -/
theorem renderLineReadsVideoMemoryOnly : Obligations.RenderLineReadsVideoMemoryOnly := by
  refine ⟨fun s y => ⟨s.fb.setLine y (composeLine s y), rfl, ?_, by simp [composeLine], fun z hz => ?_⟩,
    fun s y x hx => ?_, fun t c d => shadeRgb_injective, fun s m y hy h => composeLine_congr h hy⟩
  · rw [PixelBuffer.line_setLine, if_pos rfl]
  · rw [PixelBuffer.line_setLine, if_neg hz.symm]
  · exact (composeLine_getElem? s y hx).trans (shadeColours_getElem? _ _).symm

/-- Settles O38: the pixels of the example, evaluated. -/
theorem compositorExample : Obligations.CompositorExample := by
  unfold Obligations.CompositorExample
  decide

end Sys2Proof.Machine
end

section
/-! Reset (70 R451 to R455): the invariant and the values of the reset table. -/

namespace Sys2Proof.Machine

theorem resetPpu_inPlace : resetPpu.inPlace := by decide

/-- The pairs of the reset table (70 R451). -/
theorem resetRegs_pairs :
    getAf resetRegs = 0x01B0 ∧ getPair .bc resetRegs = 0x0013 ∧ getPair .de resetRegs = 0x00D8 ∧
      getPair .hl resetRegs = 0x014D := by decide

theorem launch_inv (cfg : Config) {mem : Memory} {fb : PixelBuffer} (dma : Byte) (hmem : mem.wf) (hfb : fb.wf) :
    (State.launch cfg mem fb dma).Inv :=
  ⟨hmem, hfb, Nat.zero_lt_succ 255, resetPpu_inPlace, rfl, rfl, rfl⟩

/-- Settles O12: a launch takes its memory and pixel buffer as they are, and reset is the launch with nothing listed. -/
theorem resetMeetsInvariant : Obligations.ResetMeetsInvariant :=
  ⟨launch_inv specConfig resetDma Memory.wf_nil PixelBuffer.wf_nil, fun cfg _ _ dma => launch_inv cfg dma⟩

/-- The addresses of the byte stores on the I/O page are those of a port that is not left open (20 R101 to R103). -/
theorem byteStore_port {cfg : Config} {a : Addr}
    (h : (cfg.joypad = .store ∧ a = 0xFF00) ∨ (cfg.serial = .store ∧ (a = 0xFF01 ∨ a = 0xFF02)) ∨
      (cfg.apu = .store ∧ 0xFF10 ≤ a.toNat ∧ a.toNat ≤ 0xFF3F)) :
    (∃ d, deviceAt a = some d ∧ d ≠ .cart ∧ isOpen cfg d = false) ∧ unlisted a.toNat = 0xFF := by
  obtain ⟨hc, rfl⟩ | ⟨hc, rfl | rfl⟩ | ⟨hc, ha, ha'⟩ := h
  · exact ⟨⟨.joypad, rfl, nofun, by rw [isOpen, hc]; rfl⟩, rfl⟩
  · exact ⟨⟨.serial, rfl, nofun, by rw [isOpen, hc]; rfl⟩, rfl⟩
  · exact ⟨⟨.serial, rfl, nofun, by rw [isOpen, hc]; rfl⟩, rfl⟩
  · exact ⟨⟨.apu, deviceAt_apu ha ha', nofun, by rw [isOpen, hc]; rfl⟩, if_pos (by omega)⟩

/-- Settles O13: the registers are the literals of the reset table, and a byte store reads what its unlisted address
does. -/
theorem resetValues : Obligations.ResetValues := by
  intro cfg mem fb dma s
  obtain ⟨haf, hbc, hde, hhl⟩ := resetRegs_pairs
  refine ⟨haf, hbc, hde, hhl, rfl, rfl, rfl, rfl, rfl, rfl, rfl, rfl, rfl, rfl, rfl, rfl, rfl, rfl, rfl, rfl, rfl, rfl,
    rfl, rfl, rfl, rfl, rfl, rfl, rfl, rfl, rfl, rfl, rfl, fun a ha hmem => ?_⟩
  obtain ⟨⟨d, hd, hcart, hopen⟩, hunlisted⟩ := byteStore_port ha
  have hread : memRead a s = .next (mem.get a.toNat, s) := portReads_at (model := .store) hd hcart hopen
  rw [hread, hmem, hunlisted]

end Sys2Proof.Machine
end
